-- ==== Sys2Proof/Word.lean ====
section
/-! DEFINITION. The word types of LSHA1-CORE (spec/00_scope.md R8, R9: every value is unsigned). -/

namespace Sys2Proof

/-- A word: 32 bits (R8, R9). Registers, chaining words and schedule words are words. -/
abbrev Word := BitVec 32

/-- A byte: 8 bits (R9). -/
abbrev Byte := BitVec 8

/-- An index field of a command word, `X` or `Y`: 4 bits, unsigned, not scaled (R81, R82). -/
abbrev Idx := BitVec 4

end Sys2Proof
end

