-- ==== Sys2Proof/Config.lean ====
section
/-! DEFINITION. The implementation parameters (spec/00_scope.md R7). -/

namespace Sys2Proof

/-- The parameters of R7 that fix the machine's shape. `DMEM_INIT` is an argument of `State.resetWith`. -/
structure Params where
  /-- number of hasher contexts -/
  nctx : Nat
  /-- number of snapshot slots -/
  nsnap : Nat
  /-- number of HMAC channels -/
  nhmac : Nat
  /-- data-memory size in bytes -/
  dmemSize : Nat
  deriving DecidableEq, Repr

/-- The default parameters of R7. -/
def Params.default : Params := { nctx := 4, nsnap := 4, nhmac := 2, dmemSize := 65536 }

/-- The ranges R7 gives the parameters. -/
def Params.inRange (p : Params) : Bool :=
  decide (1 ≤ p.nctx) && decide (p.nctx ≤ 16) && decide (1 ≤ p.nsnap) && decide (p.nsnap ≤ 16) &&
  decide (1 ≤ p.nhmac) && decide (p.nhmac ≤ 16) && decide (1 ≤ p.dmemSize) && decide (p.dmemSize ≤ 2 ^ 32)

/-- `REG_BASE` and `DMEM_BASE` (R72): where the platform puts the two address spaces. No rule reads them and nothing
in this model does (log 12). -/
opaque Config.regBase : Nat

@[inherit_doc Config.regBase]
opaque Config.dmemBase : Nat

end Sys2Proof
end

