-- ==== Sys2Proof/Syntax.lean ====
section
/-! DEFINITION. The commands of LSHA1-CORE, one constructor per row of spec/opcode_table.json (R83). -/

namespace Sys2Proof

/-- A command. `c` is a context index, `h` an HMAC channel index, `s` a snapshot slot index (R82). The operands `ADDR`
and `LEN` are not in the command word: they are registers (R80). -/
inductive Instr where
  | nop
  | reset (c : Idx)
  | update (c : Idx)
  | finish (c : Idx)
  | save (c s : Idx)
  | restore (c s : Idx)
  | clean (c : Idx)
  | sclr (s : Idx)
  | pblk (c : Idx)
  | sread (c : Idx)
  | hkey (h : Idx)
  | hupd (h : Idx)
  | hfin (h : Idx)
  | hrst (h : Idx)
  | hcln (h : Idx)
  | srst
  deriving DecidableEq, Repr

end Sys2Proof
end

