-- ==== Sys2Proof/WellFormed.lean ====
section
/-! DEFINITION. When a command is legal for given parameters: its indices are in range (spec/30_encoding.md R82, R85, R88). -/

namespace Sys2Proof

/-- The context index a command carries in `X`, if it carries one (R82). -/
def Instr.ctxIdx : Instr → Option Idx
  | .reset c => some c
  | .update c => some c
  | .finish c => some c
  | .save c _ => some c
  | .restore c _ => some c
  | .clean c => some c
  | .pblk c => some c
  | .sread c => some c
  | .nop => none
  | .sclr _ => none
  | .hkey _ => none
  | .hupd _ => none
  | .hfin _ => none
  | .hrst _ => none
  | .hcln _ => none
  | .srst => none

/-- The HMAC channel index a command carries in `X`, if it carries one (R82). -/
def Instr.chanIdx : Instr → Option Idx
  | .hkey h => some h
  | .hupd h => some h
  | .hfin h => some h
  | .hrst h => some h
  | .hcln h => some h
  | .nop => none
  | .reset _ => none
  | .update _ => none
  | .finish _ => none
  | .save _ _ => none
  | .restore _ _ => none
  | .clean _ => none
  | .sclr _ => none
  | .pblk _ => none
  | .sread _ => none
  | .srst => none

/-- The snapshot slot index a command carries in `Y`, if it carries one (R82). -/
def Instr.slotIdx : Instr → Option Idx
  | .save _ s => some s
  | .restore _ s => some s
  | .sclr s => some s
  | .nop => none
  | .reset _ => none
  | .update _ => none
  | .finish _ => none
  | .clean _ => none
  | .pblk _ => none
  | .sread _ => none
  | .hkey _ => none
  | .hupd _ => none
  | .hfin _ => none
  | .hrst _ => none
  | .hcln _ => none
  | .srst => none

/-- An absent index is in range; a present one is in range when it is below the count. -/
def idxBelow (n : Nat) : Option Idx → Bool
  | none => true
  | some i => decide (i.toNat < n)

/-- `c < NCTX` (R82). -/
def Instr.ctxOk (p : Params) (i : Instr) : Bool := idxBelow p.nctx i.ctxIdx

/-- `h < NHMAC` (R82). -/
def Instr.chanOk (p : Params) (i : Instr) : Bool := idxBelow p.nhmac i.chanIdx

/-- `s < NSNAP` (R82). -/
def Instr.slotOk (p : Params) (i : Instr) : Bool := idxBelow p.nsnap i.slotIdx

/-- A command is well formed for parameters `p` when every index it carries is in range (R85). -/
def Instr.wf (p : Params) (i : Instr) : Bool := i.ctxOk p && i.chanOk p && i.slotOk p

end Sys2Proof
end

