-- ==== Sys2Proof/Decode.lean ====
section
/-! DEFINITION. The command word, its decoder and its encoder (spec/30_encoding.md R80 to R88). -/

namespace Sys2Proof

/-- Why a word raises `ILLEGAL` (R85, R86), named in the order R85 tests. -/
inductive DecodeError where
  /-- `OP` is not one of the 16 values of R83 -/
  | reservedOpcode
  /-- `RSV` is not 0 -/
  | nonzeroRsv
  /-- `X` is not 0 in a command that uses no `X` -/
  | nonzeroX
  /-- `Y` is not 0 in a command that uses no `Y` -/
  | nonzeroY
  /-- a context index at or above `NCTX` -/
  | contextRange
  /-- a channel index at or above `NHMAC` -/
  | channelRange
  /-- a slot index at or above `NSNAP` -/
  | slotRange
  deriving DecidableEq, Repr

/-- `OP`, bits 31:24 (R81). -/
def opField (v : Word) : BitVec 8 := v.extractLsb' 24 8

/-- `X`, bits 23:20 (R81). -/
def xField (v : Word) : Idx := v.extractLsb' 20 4

/-- `Y`, bits 19:16 (R81). -/
def yField (v : Word) : Idx := v.extractLsb' 16 4

/-- `RSV`, bits 15:0 (R81). -/
def rsvField (v : Word) : BitVec 16 := v.extractLsb' 0 16

/-- One row of the opcode map of R83: the opcode, whether the command uses `X` and `Y`, and the command it selects. -/
structure OpRow where
  op : BitVec 8
  usesX : Bool
  usesY : Bool
  make : Idx → Idx → Instr

/-- The opcode map (R83). -/
def opcodeMap : List OpRow :=
  [ ⟨0x00, false, false, fun _ _ => .nop⟩,
    ⟨0x01, true, false, fun x _ => .reset x⟩,
    ⟨0x02, true, false, fun x _ => .update x⟩,
    ⟨0x03, true, false, fun x _ => .finish x⟩,
    ⟨0x04, true, true, fun x y => .save x y⟩,
    ⟨0x05, true, true, fun x y => .restore x y⟩,
    ⟨0x06, true, false, fun x _ => .clean x⟩,
    ⟨0x07, false, true, fun _ y => .sclr y⟩,
    ⟨0x10, true, false, fun x _ => .pblk x⟩,
    ⟨0x11, true, false, fun x _ => .sread x⟩,
    ⟨0x20, true, false, fun x _ => .hkey x⟩,
    ⟨0x21, true, false, fun x _ => .hupd x⟩,
    ⟨0x22, true, false, fun x _ => .hfin x⟩,
    ⟨0x23, true, false, fun x _ => .hrst x⟩,
    ⟨0x24, true, false, fun x _ => .hcln x⟩,
    ⟨0x30, false, false, fun _ _ => .srst⟩ ]

/-- The mask of a row's usage class (R84). -/
def OpRow.mask (r : OpRow) : Word :=
  (0xFF : BitVec 8) ++ (if r.usesX then 0x0 else 0xF : Idx) ++ (if r.usesY then 0x0 else 0xF : Idx) ++ (0xFFFF : BitVec 16)

/-- The match value of a row, `OPV << 24` (R84). -/
def OpRow.matchValue (r : OpRow) : Word := r.op ++ (0 : BitVec 24)

/-- The row whose opcode is `op`, if `op` is one of the 16 values of R83. -/
def rowOf (op : BitVec 8) : Option OpRow := opcodeMap.find? fun r => r.op == op

/-- The index-range tests that end R85. -/
def checkRanges (p : Params) (i : Instr) : Except DecodeError Instr :=
  if !i.ctxOk p then .error .contextRange
  else if !i.chanOk p then .error .channelRange
  else if !i.slotOk p then .error .slotRange
  else .ok i

/-- The decoder (R85), total on every word; it takes the parameters (R88). -/
def decode (p : Params) (v : Word) : Except DecodeError Instr :=
  match rowOf (opField v) with
  | none => .error .reservedOpcode
  | some r =>
    if rsvField v ≠ 0 then .error .nonzeroRsv
    else if !r.usesX && xField v != 0 then .error .nonzeroX
    else if !r.usesY && yField v != 0 then .error .nonzeroY
    else checkRanges p (r.make (xField v) (yField v))

/-- A command word from its fields, `RSV` zero (R81). -/
def commandWord (op : BitVec 8) (x y : Idx) : Word := op ++ x ++ y ++ (0 : BitVec 16)

/-- The encoder: the command word of a command (R81, R83, R94). -/
def encode : Instr → Word
  | .nop => commandWord 0x00 0 0
  | .reset c => commandWord 0x01 c 0
  | .update c => commandWord 0x02 c 0
  | .finish c => commandWord 0x03 c 0
  | .save c s => commandWord 0x04 c s
  | .restore c s => commandWord 0x05 c s
  | .clean c => commandWord 0x06 c 0
  | .sclr s => commandWord 0x07 0 s
  | .pblk c => commandWord 0x10 c 0
  | .sread c => commandWord 0x11 c 0
  | .hkey h => commandWord 0x20 h 0
  | .hupd h => commandWord 0x21 h 0
  | .hfin h => commandWord 0x22 h 0
  | .hrst h => commandWord 0x23 h 0
  | .hcln h => commandWord 0x24 h 0
  | .srst => commandWord 0x30 0 0

/-- The command the decoder reads from a word of the opcode table's numbering, for the parameters `State.reset` has
(log 13). Every command is one 32-bit word (R80). -/
def decodeTableWord (nbits w : Nat) : Option Instr :=
  if nbits ≤ 32 then
    match decode Params.default (BitVec.ofNat 32 (w % 2 ^ nbits)) with
    | .ok i => some i
    | .error _ => none
  else none

end Sys2Proof
end

