-- ==== Sys2Proof/Machine/Constants.lean ====
section
/-! DEFINITION. The numbers the rules fix: the initial chaining words, the round constants, the HMAC pads,
the identity. The sizes of R7 (block 64, digest 20, buffer 128, schedule 80) stand as literals, as they do in the rules. -/

namespace Sys2Proof.Machine

/-- IV word 0 (spec/10_state.md R31). -/
def iv0 : Word := 0x67452301
/-- IV word 1 (R31). -/
def iv1 : Word := 0xEFCDAB89
/-- IV word 2 (R31). -/
def iv2 : Word := 0x98BADCFE
/-- IV word 3 (R31). -/
def iv3 : Word := 0x10325476
/-- IV word 4 (R31). -/
def iv4 : Word := 0xC3D2E1F0

/-- Round constant of round `i` (spec/40_compression.md R104). -/
def roundK (i : Nat) : Word :=
  if i < 20 then 0x5A827999 else if i < 40 then 0x6ED9EBA1 else if i < 60 then 0x8F1BBCDC else 0xCA62C1D6

/-- The inner pad byte (spec/42_hmac.md R170). -/
def innerPad : Byte := 0x36
/-- The outer pad byte (R170). -/
def outerPad : Byte := 0x5C

/-- What `ID` reads (spec/10_state.md R28). -/
def idWord : Word := 0x53484131

end Sys2Proof.Machine
end

