-- ==== Sys2Proof/Machine/State.lean ====
section
/-! DEFINITION. The machine's state, its reset, and the reasons a step can stop (spec/10_state.md). -/

namespace Sys2Proof.Machine

/-- A chaining state `H[0..4]` (R31). -/
structure HState where
  h0 : Word
  h1 : Word
  h2 : Word
  h3 : Word
  h4 : Word
  deriving DecidableEq, Repr

/-- The initial chaining value (R31). -/
def HState.iv : HState := ⟨iv0, iv1, iv2, iv3, iv4⟩

/-- Five zero words: what an empty snapshot slot holds (R43). -/
def HState.zero : HState := ⟨0, 0, 0, 0, 0⟩

/-- A hasher context (R30). `buf` holds 128 bytes and `w` 80 words (log 9). -/
structure Context where
  h : HState
  buf : List Byte
  bufLen : BitVec 7
  count : BitVec 64
  fin : Bool
  w : List Word
  deriving DecidableEq, Repr

/-- A context after power-on reset (R43). -/
def Context.initial : Context :=
  { h := HState.iv, buf := List.replicate 128 0, bufLen := 0, count := 0, fin := false,
    w := List.replicate 80 0 }

/-- A snapshot slot (R38). -/
structure Snapshot where
  valid : Bool
  h : HState
  bufValid : Bool
  buf : List Byte
  bufLen : BitVec 7
  count : BitVec 64
  deriving DecidableEq, Repr

/-- A snapshot with every field 0 (R43). -/
def Snapshot.empty : Snapshot :=
  { valid := false, h := HState.zero, bufValid := false, buf := List.replicate 128 0, bufLen := 0, count := 0 }

/-- An HMAC channel (R39); `inn` is the spec's `IN`. -/
structure Channel where
  inn : Context
  out : Context
  ikey : Snapshot
  okey : Snapshot
  keyed : Bool
  done : Bool
  deriving DecidableEq, Repr

/-- A channel after power-on reset (R43). -/
def Channel.initial : Channel :=
  { inn := Context.initial, out := Context.initial, ikey := Snapshot.empty, okey := Snapshot.empty,
    keyed := false, done := false }

/-- The result codes of spec/60_exceptions.md R211, `ok` first. -/
inductive Code where
  | ok
  | illegal
  | bounds
  | misuse
  | outbuf
  | snapempty
  | nokey
  deriving DecidableEq, Repr

/-- The width of a host access to the register block. Only `word` is defined by the spec (R69). -/
inductive BusWidth where
  | byte
  | half
  | word
  | double
  deriving DecidableEq, Repr

/-- What the outside world can do to the machine, one at a time (R19, R74, R240). -/
inductive Input where
  /-- a host write of `v` at byte offset `off` of the register block (R202) -/
  | regWrite (width : BusWidth) (off : BitVec 8) (v : Word)
  /-- a host read at byte offset `off` of the register block (R203) -/
  | regRead (width : BusWidth) (off : BitVec 8)
  /-- a host write of one byte of `DMEM` (R61, R63) -/
  | memWrite (a : Nat) (b : Byte)
  /-- a host read of one byte of `DMEM` (R61, R63) -/
  | memRead (a : Nat)
  /-- power-on reset (R240) -/
  | powerOn
  deriving DecidableEq, Repr

/-- A value a host read returned (R89: "the value read is the observation"). -/
inductive Observed where
  | reg (off : BitVec 8) (v : Word)
  | mem (a : Nat) (b : Byte)
  deriving DecidableEq, Repr

/-- `DMEM` (spec/20_memory.md R61) as the cells that differ from what an unlisted address reads as, addresses strictly
rising (log 2). -/
abbrev Memory := List Host.Cell

/-- The whole state: R20, with the parameters (log 1) and the model's own `inputs` (log 3) and `seen` (log 4). -/
structure State where
  /-- `CMD` (R22) -/
  cmd : Word
  /-- `ADDR` (R23) -/
  addr : Word
  /-- `LEN` (R24) -/
  len : Word
  /-- `STATUS.CODE` (R25) -/
  code : Code
  /-- `STATUS.STICKY` (R25) -/
  sticky : Bool
  /-- `RESULT` (R27) -/
  result : Word
  /-- `CTX[0..NCTX-1]` (R30) -/
  ctx : List Context
  /-- `SNAP[0..NSNAP-1]` (R38) -/
  snap : List Snapshot
  /-- `HM[0..NHMAC-1]` (R39) -/
  hm : List Channel
  /-- `DMEM_SIZE` (R7) -/
  dmemSize : Nat
  /-- `DMEM` (R61) -/
  dmem : Memory
  /-- what the outside world does next, first the next one (R74, log 3) -/
  inputs : List Input
  /-- what the host has read, newest first (R89, log 4) -/
  seen : List Observed
  deriving DecidableEq, Repr

/-- The parameters of the machine a state belongs to (R7): the sizes of its files and of its memory (log 1). -/
def State.params (s : State) : Params :=
  { nctx := s.ctx.length, nsnap := s.snap.length, nhmac := s.hm.length, dmemSize := s.dmemSize }

/-- Power-on reset (R43, R240) of the machine with parameters `p`; `init` is `DMEM_INIT`, which the reset does not write. -/
def State.resetWith (p : Params) (init : Memory) : State :=
  { cmd := 0, addr := 0, len := 0, code := .ok, sticky := false, result := 0,
    ctx := List.replicate p.nctx Context.initial,
    snap := List.replicate p.nsnap Snapshot.empty,
    hm := List.replicate p.nhmac Channel.initial,
    dmemSize := p.dmemSize, dmem := init, inputs := [], seen := [] }

/-- The machine after power-on reset with the default parameters (R7, R43) and nothing listed in memory (log 2). -/
def State.reset : State := State.resetWith Params.default []

/-- Why a step faults. -/
inductive Fault where
  /-- a host access to a `DMEM` address at or above `DMEM_SIZE`, which does not exist (R8, R60); raised by
  `memWrite` and `memRead` inputs only, never by a command; safe (log 6) -/
  | noSuchAddress
  deriving DecidableEq, Repr

/-- Why a step is refused. -/
inductive Refusal where
  /-- an instruction with no meaning yet; no arm of `exec` answers it; safe -/
  | notModelled (mnemonic : String)
  /-- a host access to the register block that is not an aligned 32-bit access (R69: "a model refuses it"); raised by
  `regWrite` and `regRead` inputs only, never by a command; safe (log 5) -/
  | registerAccess
  deriving DecidableEq, Repr

end Sys2Proof.Machine
end

