-- ==== Sys2Proof/Machine/Ops.lean ====
section
/-! DEFINITION. The named operations: words and bytes (spec/00_scope.md R11, R12), `DMEM` (R13, spec/20_memory.md), and
raising an error (spec/60_exceptions.md R214), the one exception this hardware has. -/

namespace Sys2Proof.Machine

/-- `ROTL(x, n)`, `0 < n < 32` (R11). -/
def rotl (x : Word) (n : Nat) : Word := (x <<< n) ||| (x >>> (32 - n))

/-- `BE32(w)`, most significant byte first (R12, R65). -/
def be32 (w : Word) : List Byte :=
  [w.extractLsb' 24 8, w.extractLsb' 16 8, w.extractLsb' 8 8, w.extractLsb' 0 8]

/-- `LOADBE32(s, i)` (R12, R65). -/
def loadBE32 (s : List Byte) (i : Nat) : Word :=
  s.getD i 0 ++ s.getD (i + 1) 0 ++ s.getD (i + 2) 0 ++ s.getD (i + 3) 0

/-- The sequence `s` with the bytes `bs` stored from index `i` on. -/
def putBytes (s : List Byte) (i : Nat) : List Byte → List Byte
  | [] => s
  | b :: bs => putBytes (s.set i b) (i + 1) bs

/-- What an address that memory does not list reads as (log 2). -/
def unlistedByte : Byte := 0

/-- One byte of memory. -/
def readByte : Memory → Nat → Byte
  | [], _ => unlistedByte
  | (k, b) :: m, a => if a = k then b else readByte m a

/-- Memory with byte `b` stored at `a`; keeps the canonical form. -/
def writeByte : Memory → Nat → Byte → Memory
  | [], a, b => if b = unlistedByte then [] else [(a, b)]
  | (k, c) :: m, a, b =>
    if a < k then (if b = unlistedByte then (k, c) :: m else (a, b) :: (k, c) :: m)
    else if a = k then (if b = unlistedByte then m else (a, b) :: m)
    else (k, c) :: writeByte m a b

/-- Every address listed in `m` is at least `lo`, addresses rise strictly, and no entry holds the unlisted byte. -/
def Memory.sortedFrom : Nat → Memory → Bool
  | _, [] => true
  | lo, (k, b) :: m => decide (lo ≤ k) && decide (b ≠ unlistedByte) && Memory.sortedFrom (k + 1) m

/-- The canonical form of memory. -/
def Memory.wf (m : Memory) : Bool := Memory.sortedFrom 0 m

/-- Every listed address is below `n`. -/
def Memory.below (n : Nat) (m : Memory) : Bool := m.all fun cell => decide (cell.1 < n)

/-- `MemRead(addr, n)` (R13). -/
def memRead (m : Memory) (a n : Nat) : List Byte := (List.range n).map fun j => readByte m (a + j)

/-- `MemWrite(addr, len(s), s)` (R13). -/
def memWrite (m : Memory) (a : Nat) : List Byte → Memory
  | [] => m
  | b :: bs => memWrite (writeByte m a b) (a + 1) bs

/-- `raise E` (R14, R214): `STATUS.CODE <- E`, `STATUS.STICKY <- 1`, and nothing else. There is no return from it: the
next command executes normally (R219). -/
def raise (e : Code) (s : State) : State := { s with code := e, sticky := true }

/-- A command that does not raise ends with `STATUS.CODE <- OK` (R14). -/
def complete (s : State) : State := { s with code := .ok }

/-- A test of the pseudocode: `if not ok: raise e`. -/
def require (ok : Bool) (e : Code) : Except Code Unit := if ok then .ok () else .error e

/-- The end of a command that started in `s`: it raised a code, or reached a state (R14, R210). -/
def settle (s : State) : Except Code State → Host.Outcome State Fault Refusal
  | .error e => .next (raise e s)
  | .ok t => .next (complete t)

end Sys2Proof.Machine
end

