-- ==== Sys2Proof/Machine/Operands.lean ====
section
/-! DEFINITION. The operand forms: the files the index fields select (spec/30_encoding.md R82) and the `ADDR`/`LEN`
buffers (spec/20_memory.md R62, R64; spec/60_exceptions.md R212). -/

namespace Sys2Proof.Machine

/-- `CTX[c]`; `ILLEGAL` when `c >= NCTX` (R82, R85; log 10). -/
def getCtx (s : State) (c : Idx) : Except Code Context :=
  match s.ctx[c.toNat]? with
  | some x => .ok x
  | none => .error .illegal

/-- `SNAP[k]`; `ILLEGAL` when `k >= NSNAP` (R82, R85; log 10). -/
def getSnap (s : State) (k : Idx) : Except Code Snapshot :=
  match s.snap[k.toNat]? with
  | some p => .ok p
  | none => .error .illegal

/-- `HM[h]`; `ILLEGAL` when `h >= NHMAC` (R82, R85; log 10). -/
def getChan (s : State) (h : Idx) : Except Code Channel :=
  match s.hm[h.toNat]? with
  | some ch => .ok ch
  | none => .error .illegal

/-- `CTX[c] <- x`. -/
def setCtx (s : State) (c : Idx) (x : Context) : State := { s with ctx := s.ctx.set c.toNat x }

/-- `SNAP[k] <- p`. -/
def setSnap (s : State) (k : Idx) (p : Snapshot) : State := { s with snap := s.snap.set k.toNat p }

/-- `HM[h] <- ch`. -/
def setChan (s : State) (h : Idx) (ch : Channel) : State := { s with hm := s.hm.set h.toNat ch }

/-- `n` bytes at `ADDR` are in bounds, in exact integers (R64). -/
def inBounds (s : State) (n : Nat) : Bool := decide (s.addr.toNat + n ≤ s.dmemSize)

/-- The input form: the `LEN` bytes at `ADDR`; `BOUNDS` when they do not fit (R62, R64). -/
def inputBytes (s : State) : Except Code (List Byte) :=
  if inBounds s s.len.toNat then .ok (memRead s.dmem s.addr.toNat s.len.toNat) else .error .bounds

/-- The tests of the output form: `OUTBUF` when `LEN < 20`, then `BOUNDS` when 20 bytes at `ADDR` do not fit
(R62, R64, R212, R213). -/
def checkOutput (s : State) : Except Code Unit :=
  if s.len.toNat < 20 then .error .outbuf
  else if inBounds s 20 then .ok ()
  else .error .bounds

/-- The write of the output form: the digest's 20 bytes at `ADDR` (R62). -/
def putOutput (s : State) (digest : List Byte) : State := { s with dmem := memWrite s.dmem s.addr.toNat digest }

end Sys2Proof.Machine
end

