-- ==== Sys2Proof/Machine/Sha1.lean ====
section
/-! DEFINITION. The compression function and the block loop (spec/40_compression.md R100 to R108). -/

namespace Sys2Proof.Machine

/-- Step 1, load: schedule slots 0 to 15 (R101). -/
def loadSchedule (blk : List Byte) (w : List Word) : List Word :=
  (List.range 16).foldl (fun w j => w.set j (loadBE32 blk (4 * j))) w

/-- Slot `i` from the slots before it (R102). -/
def schedWord (w : List Word) (i : Nat) : Word :=
  rotl (w.getD (i - 3) 0 ^^^ w.getD (i - 8) 0 ^^^ w.getD (i - 14) 0 ^^^ w.getD (i - 16) 0) 1

/-- Step 2, extend: schedule slots 16 to 79 in increasing order (R102). -/
def extendSchedule (w : List Word) : List Word :=
  (List.range' 16 64).foldl (fun w i => w.set i (schedWord w i)) w

/-- The five working variables (R103). -/
structure Work where
  a : Word
  b : Word
  c : Word
  d : Word
  e : Word
  deriving DecidableEq, Repr

/-- Step 3, initialise (R103). -/
def initWork (h : HState) : Work := ⟨h.h0, h.h1, h.h2, h.h3, h.h4⟩

/-- The round function of round `i` (R104). -/
def roundF (i : Nat) (b c d : Word) : Word :=
  if i < 20 then (b &&& c) ||| (~~~b &&& d)
  else if i < 40 then b ^^^ c ^^^ d
  else if i < 60 then (b &&& c) ||| (b &&& d) ||| (c &&& d)
  else b ^^^ c ^^^ d

/-- Round `i` with schedule word `wi` (R105). -/
def round (i : Nat) (wi : Word) (v : Work) : Work :=
  let temp := rotl v.a 5 + roundF i v.b v.c v.d + v.e + roundK i + wi
  { a := temp, b := v.a, c := rotl v.b 30, d := v.c, e := v.d }

/-- Rounds `i`, `i+1`, … with the schedule words `ws`, in order. -/
def roundsFrom : Nat → List Word → Work → Work
  | _, [], v => v
  | i, wi :: ws, v => roundsFrom (i + 1) ws (round i wi v)

/-- Step 4, the 80 rounds: round `i` with `W[i]`, for `i` from 0 to 79 (R105). -/
def rounds (w : List Word) (v : Work) : Work := roundsFrom 0 w v

/-- Step 5, accumulate (R106). -/
def accumulate (h : HState) (v : Work) : HState :=
  ⟨h.h0 + v.a, h.h1 + v.b, h.h2 + v.c, h.h3 + v.d, h.h4 + v.e⟩

/-- `Compress(ctx, blk)` (R100): writes `W` and `H` and nothing else. `blk` is exactly 64 bytes, as every caller gives it;
for any other sequence the rule says nothing and this leaves the context alone (log 15). -/
def compress (x : Context) (blk : List Byte) : Context :=
  if blk.length = 64 then
    let w := extendSchedule (loadSchedule blk x.w)
    { x with w := w, h := accumulate x.h (rounds w (initWork x.h)) }
  else x

/-- `k` whole blocks of `s` from offset `off` on, in increasing address order, with the offset after them. -/
def processLoop : Nat → Context → List Byte → Nat → Context × Nat
  | 0, x, _, off => (x, off)
  | k + 1, x, s, off => processLoop k (compress x ((s.drop off).take 64)) s (off + 64)

/-- `ProcessBlocks(ctx, s, off, n)` (R108): `floor(n / 64)` blocks, and the offset one past the last. -/
def processBlocks (x : Context) (s : List Byte) (off n : Nat) : Context × Nat :=
  processLoop (n / 64) x s off

end Sys2Proof.Machine
end

