-- ==== Sys2Proof/Machine/Subroutines.lean ====
section
/-! DEFINITION. The incremental hasher's subroutines on a context (spec/41_hasher.md R131 to R137), shared by the hasher
commands and the HMAC commands. -/

namespace Sys2Proof.Machine

/-- `CtxReset` (R131): does not write `BUF` or `W`. -/
def ctxReset (x : Context) : Context := { x with h := HState.iv, bufLen := 0, count := 0, fin := false }

/-- `BUF[BUFLEN] <- b; BUFLEN <- BUFLEN + 1`: the body of both byte loops of R132. -/
def pushByte (x : Context) (b : Byte) : Context :=
  { x with buf := x.buf.set x.bufLen.toNat b, bufLen := x.bufLen + 1 }

/-- The fill loop of R132: buffers bytes while `BUFLEN < 64` and input is left; gives the input not consumed. -/
def fillLoop : Context → List Byte → Context × List Byte
  | x, [] => (x, [])
  | x, b :: s => if x.bufLen.toNat < 64 then fillLoop (pushByte x b) s else (x, b :: s)

/-- The first step of R132: complete a partly filled buffer and compress it once full. -/
def fillBuffer (x : Context) (s : List Byte) : Context × List Byte :=
  if x.bufLen.toNat > 0 then
    let r := fillLoop x s
    if r.1.bufLen.toNat = 64 then
      ({ compress r.1 (r.1.buf.take 64) with bufLen := 0 }, r.2)
    else r
  else (x, s)

/-- The middle step of R132: whole blocks bypass the buffer; gives the remainder of fewer than 64 bytes. -/
def bypassBlocks (x : Context) (s : List Byte) : Context × List Byte :=
  if 64 ≤ s.length then
    let r := processBlocks x s 0 s.length
    (r.1, s.drop r.2)
  else (x, s)

/-- `CtxUpdate(ctx, s)` (R132). Precondition `FIN = 0`, which every caller tests. -/
def ctxUpdate (x : Context) (s : List Byte) : Context :=
  let r1 := fillBuffer { x with count := x.count + BitVec.ofNat 64 s.length } s
  let r2 := bypassBlocks r1.1 r1.2
  r2.2.foldl pushByte r2.1

/-- `padLength` of R133: 64 if a terminator and the length field fit in the block, else 128. -/
def padLength (left : Nat) : Nat := if left % 64 < 56 then 64 else 128

/-- The bit length `8 * COUNT mod 2^64`, 8 bytes, high word first (R133). -/
def lengthField (count : BitVec 64) : List Byte :=
  let bitlen : BitVec 64 := 8 * count
  be32 (bitlen.extractLsb' 32 32) ++ be32 (bitlen.extractLsb' 0 32)

/-- `BUF` with the terminator, the zero fill and the length field stored after `left` bytes of data (R133). -/
def padBuffer (buf : List Byte) (left : Nat) (count : BitVec 64) : List Byte :=
  let n := padLength left
  let b1 := buf.set left 0x80
  let b2 := putBytes b1 (left + 1) (List.replicate (n - 8 - (left + 1)) 0)
  putBytes b2 (n - 8) (lengthField count)

/-- `CtxFinish(ctx)` (R133): idempotent. -/
def ctxFinish (x : Context) : Context :=
  if x.fin then x
  else
    let buf := padBuffer x.buf x.bufLen.toNat x.count
    { (processBlocks { x with buf := buf } buf 0 (padLength x.bufLen.toNat)).1 with fin := true }

/-- The big-endian serialisation of a chaining state (R65, R134). -/
def hBytes (h : HState) : List Byte := be32 h.h0 ++ be32 h.h1 ++ be32 h.h2 ++ be32 h.h3 ++ be32 h.h4

/-- `CtxDigest(ctx)` (R134). -/
def ctxDigest (x : Context) : List Byte := hBytes x.h

/-- `CtxSave(ctx, p)` (R135): what the snapshot holds afterwards. Precondition `FIN = 0`, which every caller tests. -/
def ctxSave (x : Context) : Snapshot :=
  { valid := true, h := x.h, bufValid := decide (x.bufLen.toNat > 0),
    buf := if x.bufLen.toNat > 0 then x.buf else List.replicate 128 0,
    bufLen := x.bufLen, count := x.count }

/-- `CtxRestore(ctx, p)` (R136). Precondition `VALID = 1`, which every caller meets. -/
def ctxRestore (x : Context) (p : Snapshot) : Context :=
  { x with h := p.h, bufLen := p.bufLen, buf := if p.bufValid then p.buf else x.buf, count := p.count, fin := false }

/-- `CtxClean(ctx)` (R137). -/
def ctxClean (x : Context) : Context :=
  ctxReset { x with buf := List.replicate 128 0, w := List.replicate 80 0 }

end Sys2Proof.Machine
end

