-- ==== Sys2Proof/Machine/Compression.lean ====
section
/-! DEFINITION. The compression commands PBLK and SREAD (spec/40_compression.md R109, R110). -/

namespace Sys2Proof.Machine

/-- PBLK (R109): whole blocks into `H`, `RESULT` one past the last; `COUNT`, `BUF`, `BUFLEN` untouched. -/
def execPblk (c : Idx) (s : State) : Host.Outcome State Fault Refusal :=
  settle s do
    let x ← getCtx s c
    require (!x.fin) .misuse
    let bs ← inputBytes s
    let r := processBlocks x bs 0 bs.length
    return { setCtx s c r.1 with result := s.addr + BitVec.ofNat 32 r.2 }

/-- SREAD (R110): writes the chaining state, in either state of the context, and leaves the context alone. -/
def execSread (c : Idx) (s : State) : Host.Outcome State Fault Refusal :=
  settle s do
    let x ← getCtx s c
    checkOutput s
    return putOutput s (ctxDigest x)

end Sys2Proof.Machine
end

