-- ==== Sys2Proof/Machine/Hmac.lean ====
section
/-! DEFINITION. The HMAC commands HKEY, HUPD, HFIN, HRST, HCLN (spec/42_hmac.md R170 to R177). They reach a context only
through the subroutines of spec/41_hasher.md (R16). -/

namespace Sys2Proof.Machine

/-- A pad XORed with a constant byte (R171). -/
def xorPad (pad : List Byte) (b : Byte) : List Byte := pad.map (· ^^^ b)

/-- The 64 pad bytes HKEY makes of a key, hashing a key longer than 64 bytes in the cleaned context `x` (R173). -/
def keyPad (x : Context) (key : List Byte) : List Byte :=
  if key.length > 64 then
    putBytes (List.replicate 64 0) 0 (ctxDigest (ctxFinish (ctxUpdate x key)))
  else putBytes (List.replicate 64 0) 0 key

/-- The body of HKEY on a channel (R173). A context that hashed a long key is cleaned again before the pad. -/
def keyChannel (ch : Channel) (key : List Byte) : Channel :=
  let inn0 := ctxClean ch.inn
  let out0 := ctxClean ch.out
  let pad := keyPad inn0 key
  let inn1 := if key.length > 64 then ctxClean (ctxFinish (ctxUpdate inn0 key)) else inn0
  let inn2 := ctxUpdate inn1 (xorPad pad innerPad)
  let out2 := ctxUpdate out0 (xorPad pad outerPad)
  { inn := inn2, out := out2, ikey := ctxSave inn2, okey := ctxSave out2, keyed := true, done := false }

/-- The body of HUPD on a channel (R174). -/
def updateChannel (ch : Channel) (bs : List Byte) : Channel := { ch with inn := ctxUpdate ch.inn bs }

/-- The body of HFIN on a channel: once, then nothing (R175). -/
def finishChannel (ch : Channel) : Channel :=
  if ch.done then ch
  else
    let inn := ctxFinish ch.inn
    let out := ctxFinish (ctxUpdate ch.out (ctxDigest inn))
    { ch with inn := inn, out := out, done := true }

/-- The body of HRST on a channel (R176). -/
def restoreChannel (ch : Channel) : Channel :=
  { ch with inn := ctxRestore ch.inn ch.ikey, out := ctxRestore ch.out ch.okey, done := false }

/-- The body of HCLN on a channel (R177). -/
def cleanChannel (ch : Channel) : Channel :=
  { inn := ctxClean ch.inn, out := ctxClean ch.out, ikey := Snapshot.empty, okey := Snapshot.empty,
    keyed := false, done := false }

/-- HKEY (R173). -/
def execHkey (h : Idx) (s : State) : Host.Outcome State Fault Refusal :=
  settle s do
    let ch ← getChan s h
    let key ← inputBytes s
    return setChan s h (keyChannel ch key)

/-- HUPD (R174). -/
def execHupd (h : Idx) (s : State) : Host.Outcome State Fault Refusal :=
  settle s do
    let ch ← getChan s h
    require ch.keyed .nokey
    require (!ch.inn.fin) .misuse
    let bs ← inputBytes s
    return setChan s h (updateChannel ch bs)

/-- HFIN (R175). -/
def execHfin (h : Idx) (s : State) : Host.Outcome State Fault Refusal :=
  settle s do
    let ch ← getChan s h
    require ch.keyed .nokey
    checkOutput s
    let done := finishChannel ch
    return putOutput (setChan s h done) (ctxDigest done.out)

/-- HRST (R176). -/
def execHrst (h : Idx) (s : State) : Host.Outcome State Fault Refusal :=
  settle s do
    let ch ← getChan s h
    require ch.keyed .nokey
    return setChan s h (restoreChannel ch)

/-- HCLN (R177). -/
def execHcln (h : Idx) (s : State) : Host.Outcome State Fault Refusal :=
  settle s do
    let ch ← getChan s h
    return setChan s h (cleanChannel ch)

end Sys2Proof.Machine
end

