-- ==== Sys2Proof/Machine/Control.lean ====
section
/-! DEFINITION. Engine control: NOP and SRST (spec/43_control.md R200, R201). -/

namespace Sys2Proof.Machine

/-- NOP (R200). -/
def execNop (s : State) : Host.Outcome State Fault Refusal := settle s (.ok s)

/-- SRST (R201): keeps `CMD`, `ADDR`, `LEN` and `DMEM`; zeroes `RESULT` (log 11). -/
def execSrst (s : State) : Host.Outcome State Fault Refusal :=
  settle s (.ok { s with
    ctx := s.ctx.map ctxClean
    snap := s.snap.map fun _ => Snapshot.empty
    hm := s.hm.map cleanChannel
    result := 0
    sticky := false })

end Sys2Proof.Machine
end

