-- ==== Sys2Proof/Machine/Hasher.lean ====
section
/-! DEFINITION. The hasher commands RESET, UPDATE, FINISH, SAVE, RESTORE, SCLR, CLEAN (spec/41_hasher.md R138 to R144). -/

namespace Sys2Proof.Machine

/-- RESET (R138). -/
def execReset (c : Idx) (s : State) : Host.Outcome State Fault Refusal :=
  settle s do
    let x ← getCtx s c
    return setCtx s c (ctxReset x)

/-- UPDATE (R139). -/
def execUpdate (c : Idx) (s : State) : Host.Outcome State Fault Refusal :=
  settle s do
    let x ← getCtx s c
    require (!x.fin) .misuse
    let bs ← inputBytes s
    return setCtx s c (ctxUpdate x bs)

/-- FINISH (R140): finalises once, and writes the digest every time. -/
def execFinish (c : Idx) (s : State) : Host.Outcome State Fault Refusal :=
  settle s do
    let x ← getCtx s c
    checkOutput s
    let y := ctxFinish x
    return putOutput (setCtx s c y) (ctxDigest y)

/-- SAVE (R141). -/
def execSave (c k : Idx) (s : State) : Host.Outcome State Fault Refusal :=
  settle s do
    let x ← getCtx s c
    let _ ← getSnap s k
    require (!x.fin) .misuse
    return setSnap s k (ctxSave x)

/-- RESTORE (R142). -/
def execRestore (c k : Idx) (s : State) : Host.Outcome State Fault Refusal :=
  settle s do
    let x ← getCtx s c
    let p ← getSnap s k
    require p.valid .snapempty
    return setCtx s c (ctxRestore x p)

/-- SCLR (R143). -/
def execSclr (k : Idx) (s : State) : Host.Outcome State Fault Refusal :=
  settle s do
    let _ ← getSnap s k
    return setSnap s k Snapshot.empty

/-- CLEAN (R144). -/
def execClean (c : Idx) (s : State) : Host.Outcome State Fault Refusal :=
  settle s do
    let x ← getCtx s c
    return setCtx s c (ctxClean x)

end Sys2Proof.Machine
end

