-- ==== Sys2Proof/Machine/Dispatch.lean ====
section
/-! DEFINITION. One arm per command: its meaning (spec/30_encoding.md R83). -/

namespace Sys2Proof.Machine

def exec (i : Instr) (s : State) : Host.Outcome State Fault Refusal :=
  match i with
  | .nop => Sys2Proof.Machine.execNop s
  | .reset c => Sys2Proof.Machine.execReset c s
  | .update c => Sys2Proof.Machine.execUpdate c s
  | .finish c => Sys2Proof.Machine.execFinish c s
  | .save c k => Sys2Proof.Machine.execSave c k s
  | .restore c k => Sys2Proof.Machine.execRestore c k s
  | .clean c => Sys2Proof.Machine.execClean c s
  | .sclr k => Sys2Proof.Machine.execSclr k s
  | .pblk c => Sys2Proof.Machine.execPblk c s
  | .sread c => Sys2Proof.Machine.execSread c s
  | .hkey h => Sys2Proof.Machine.execHkey h s
  | .hupd h => Sys2Proof.Machine.execHupd h s
  | .hfin h => Sys2Proof.Machine.execHfin h s
  | .hrst h => Sys2Proof.Machine.execHrst h s
  | .hcln h => Sys2Proof.Machine.execHcln h s
  | .srst => Sys2Proof.Machine.execSrst s

end Sys2Proof.Machine
end

