-- ==== Sys2Proof/Machine/Flags.lean ====
section
/-! DEFINITION. The status bits: the `STATUS` register's fields and its write (spec/10_state.md R25, R42). -/

namespace Sys2Proof.Machine

/-- The number of a result code (spec/60_exceptions.md R211). -/
def Code.bits : Code → BitVec 4
  | .ok => 0
  | .illegal => 1
  | .bounds => 2
  | .misuse => 3
  | .outbuf => 4
  | .snapempty => 5
  | .nokey => 6

/-- What a read of `STATUS` returns (R25): `CODE` in bits 3:0, `STICKY` in bit 8, `BUSY` (bit 16) and the reserved bits 0. -/
def statusWord (s : State) : Word :=
  (0 : BitVec 15) ++ (0 : BitVec 1) ++ (0 : BitVec 7) ++ BitVec.ofBool s.sticky ++ (0 : BitVec 4) ++ s.code.bits

/-- A host write of `v` to `STATUS` (R25, R202): bit 8 set clears `STICKY`; every other bit is ignored. -/
def writeStatus (v : Word) (s : State) : State :=
  if v.getLsbD 8 then { s with sticky := false } else s

end Sys2Proof.Machine
end

