-- ==== Sys2Proof/Machine/Bus.lean ====
section
/-! DEFINITION. What each input does: the host's accesses (spec/43_control.md R202 to R204, spec/20_memory.md R60 to R74)
and power-on reset (spec/70_reset_and_hazards.md R240). -/

namespace Sys2Proof.Machine

/-- The registers of the host register block (spec/10_state.md R21). -/
inductive Reg where
  | cmd
  | addr
  | len
  | status
  | result
  | id
  | cfg
  | dmsz
  deriving DecidableEq, Repr

/-- The byte offset of a register (R21). -/
def Reg.offset : Reg → BitVec 8
  | .cmd => 0x00
  | .addr => 0x04
  | .len => 0x08
  | .status => 0x0C
  | .result => 0x10
  | .id => 0x14
  | .cfg => 0x18
  | .dmsz => 0x1C

/-- The register at an aligned offset; the other aligned offsets are reserved (R21, R204). -/
def regAt (off : BitVec 8) : Option Reg :=
  [Reg.cmd, Reg.addr, Reg.len, Reg.status, Reg.result, Reg.id, Reg.cfg, Reg.dmsz].find? fun r => r.offset == off

/-- What `CFG` reads (R29). -/
def cfgWord (p : Params) : Word :=
  (0 : BitVec 8) ++ BitVec.ofNat 8 p.nhmac ++ BitVec.ofNat 8 p.nsnap ++ BitVec.ofNat 8 p.nctx

/-- What `DMSZ` reads (R29). -/
def dmszWord (p : Params) : Word := BitVec.ofNat 32 p.dmemSize

/-- The value of a register (R22 to R29, R203). -/
def regValue (s : State) : Reg → Word
  | .cmd => s.cmd
  | .addr => s.addr
  | .len => s.len
  | .status => statusWord s
  | .result => s.result
  | .id => idWord
  | .cfg => cfgWord s.params
  | .dmsz => dmszWord s.params

/-- What a read of an aligned offset returns; a reserved offset reads 0 (R203, R204). -/
def readOffset (s : State) (off : BitVec 8) : Word :=
  match regAt off with
  | some r => regValue s r
  | none => 0

/-- A write of `v` to `CMD` (R22): the word is stored, then the command it encodes executes; a word that is no legal
command raises `ILLEGAL` (R85, R86). -/
def runCommand (v : Word) (s : State) : Host.Outcome State Fault Refusal :=
  match decode s.params v with
  | .ok i => exec i { s with cmd := v }
  | .error _ => settle { s with cmd := v } (.error .illegal)

/-- A host write of `v` at an aligned offset (R202, R204). -/
def writeOffset (off : BitVec 8) (v : Word) (s : State) : Host.Outcome State Fault Refusal :=
  match regAt off with
  | some .cmd => runCommand v s
  | some .addr => .next { s with addr := v }
  | some .len => .next { s with len := v }
  | some .status => .next (writeStatus v s)
  | some .result => .next s
  | some .id => .next s
  | some .cfg => .next s
  | some .dmsz => .next s
  | none => .next s

/-- An access of the register block that the spec defines: 32 bits wide, offset a multiple of 4 (R69). -/
def regAccessOk (width : BusWidth) (off : BitVec 8) : Bool := width == .word && off.toNat % 4 == 0

/-- Power-on reset (R240): every register, context, slot and channel takes its value of R43; `DMEM` is not written. What
the outside world still does and what the host has read are not the engine's (log 7). -/
def powerOn (s : State) : State := { State.resetWith s.params s.dmem with inputs := s.inputs, seen := s.seen }

/-- One input, carried out to completion as one step (R70, R74). -/
def perform (i : Input) (s : State) : Host.Outcome State Fault Refusal :=
  match i with
  | .regWrite width off v => if regAccessOk width off then writeOffset off v s else .refused .registerAccess
  | .regRead width off =>
    if regAccessOk width off then .next { s with seen := .reg off (readOffset s off) :: s.seen }
    else .refused .registerAccess
  | .memWrite a b => if a < s.dmemSize then .next { s with dmem := writeByte s.dmem a b } else .fault .noSuchAddress
  | .memRead a =>
    if a < s.dmemSize then .next { s with seen := .mem a (readByte s.dmem a) :: s.seen } else .fault .noSuchAddress
  | .powerOn => .next (powerOn s)

/-- The next input is taken off the list and carried out; with none, the engine waits (R241, log 3). -/
def takeInput (s : State) : Host.Outcome State Fault Refusal :=
  match s.inputs with
  | [] => .next s
  | i :: rest => perform i { s with inputs := rest }

/-- `s` with a host write of `v` to `CMD` as the very next input. -/
def beforeCommand (s : State) (v : Word) : State :=
  { s with inputs := .regWrite .word Reg.cmd.offset v :: s.inputs }

end Sys2Proof.Machine
end

