-- ==== Sys2Proof/Machine/Step.lean ====
section
/-! DEFINITION. One step: the next thing the outside world does to the machine, to completion (spec/20_memory.md R74). -/

namespace Sys2Proof.Machine

/-- One step (R70, R74; log 3). -/
def step (s : State) : Host.Outcome State Fault Refusal := takeInput s

/-- `s` with the command word `w` (its `nbits` bits) as the next word the host writes to `CMD`, so that the next step
runs it. A command arrives by a host write, it is not fetched (R77); this stands for that write (log 3, log 13). -/
def State.withFetchWord (s : State) (nbits w : Nat) : State := beforeCommand s (BitVec.ofNat 32 (w % 2 ^ nbits))

end Sys2Proof.Machine
end

