-- ==== Sys2Proof/Machine/Assembler.lean ====
section
/-! DEFINITION. The assembler of host programs: the statements, the accesses each stands for, and the text of a line
(spec/30_encoding.md R89 to R95). -/

namespace Sys2Proof.Machine

/-- A statement of a host program (R89, R90, R95). -/
inductive Stmt where
  /-- `WR <reg>, <value>` -/
  | wr (r : Reg) (v : Word)
  /-- `RD <reg>` -/
  | rd (r : Reg)
  /-- `MEMW <addr>, <bytes>` -/
  | memw (a : Word) (bs : List Byte)
  /-- `MEMR <addr>, <n>` -/
  | memr (a : Word) (n : Nat)
  /-- a command in its short form (R91) -/
  | short (i : Instr)
  /-- a command in its long form (R92); only for commands that read `ADDR` and `LEN` (`takesBuffer`) -/
  | long (i : Instr) (a n : Word)
  /-- `DIGEST c, addr` (R95) -/
  | digest (c : Idx) (a : Word)
  /-- `SHA1 c, src, n, dst` (R95) -/
  | sha1 (c : Idx) (src n dst : Word)
  /-- `HMAC h, key, klen, msg, mlen, dst` (R95) -/
  | hmac (h : Idx) (key klen msg mlen dst : Word)
  /-- `CLRSTICKY` (R95) -/
  | clrSticky
  deriving DecidableEq, Repr

/-- The commands that read `ADDR` and `LEN`, and so have a long form (R83, R90). -/
def takesBuffer : Instr → Bool
  | .update _ => true
  | .finish _ => true
  | .pblk _ => true
  | .sread _ => true
  | .hkey _ => true
  | .hupd _ => true
  | .hfin _ => true
  | .nop => false
  | .reset _ => false
  | .save _ _ => false
  | .restore _ _ => false
  | .clean _ => false
  | .sclr _ => false
  | .hrst _ => false
  | .hcln _ => false
  | .srst => false

/-- `WR <reg>, <value>`: one aligned 32-bit write (R89). -/
def writeReg (r : Reg) (v : Word) : Input := .regWrite .word r.offset v

/-- The short form: one write of the command word to `CMD` (R91). -/
def shortForm (i : Instr) : List Input := [writeReg .cmd (encode i)]

/-- The long form: `ADDR`, then `LEN`, then `CMD` (R92). -/
def longForm (i : Instr) (a n : Word) : List Input := [writeReg .addr a, writeReg .len n, writeReg .cmd (encode i)]

/-- The host writes of `bs` to `DMEM[a]`, `DMEM[a+1]`, … (R89). -/
def memWrites (a : Nat) : List Byte → List Input
  | [] => []
  | b :: bs => .memWrite a b :: memWrites (a + 1) bs

/-- The accesses a statement stands for, in order (R89 to R95). -/
def expand : Stmt → List Input
  | .wr r v => [writeReg r v]
  | .rd r => [.regRead .word r.offset]
  | .memw a bs => memWrites a.toNat bs
  | .memr a n => (List.range n).map fun j => .memRead (a.toNat + j)
  | .short i => shortForm i
  | .long i a n => longForm i a n
  | .digest c a => longForm (.finish c) a 20
  | .sha1 c src n dst => shortForm (.reset c) ++ longForm (.update c) src n ++ longForm (.finish c) dst 20
  | .hmac h key klen msg mlen dst =>
    longForm (.hkey h) key klen ++ longForm (.hupd h) msg mlen ++ longForm (.hfin h) dst 20
  | .clrSticky => [writeReg .status 0x00000100]

/-- A piece of a line: a word, or the inside of a quoted string. -/
inductive Tok where
  | word (cs : List Char)
  | str (cs : List Char)
  deriving DecidableEq, Repr

/-- The word collected so far, if there is one. -/
def flushWord : List Char → List Tok
  | [] => []
  | cs => [.word cs.reverse]

/-- A line cut into tokens; `#` outside quotes starts a comment (R89). DESIGN CHOICE, log 14: outside quotes the separators are
blanks, tabs, carriage returns and commas, and a quotation mark starts a string wherever it stands. The second argument is the
word being collected, reversed; the third is the string being collected, reversed, when inside quotes. -/
def tokensFrom : List Char → List Char → Option (List Char) → Option (List Tok)
  | [], cur, none => some (flushWord cur)
  | [], _, some _ => none
  | ch :: rest, cur, some q =>
    if ch = '"' then (tokensFrom rest [] none).map (.str q.reverse :: ·) else tokensFrom rest cur (some (ch :: q))
  | ch :: rest, cur, none =>
    if ch = '#' then some (flushWord cur)
    else if ch = '"' then (tokensFrom rest [] (some [])).map (flushWord cur ++ ·)
    else if ch = ' ' || ch = '\t' || ch = '\r' || ch = ',' then (tokensFrom rest [] none).map (flushWord cur ++ ·)
    else tokensFrom rest (ch :: cur) none

/-- The value of a digit in a base of at most 16. -/
def digitOf (base : Nat) (ch : Char) : Option Nat :=
  let n := ch.toNat
  let d :=
    if 48 ≤ n ∧ n ≤ 57 then n - 48
    else if 65 ≤ n ∧ n ≤ 70 then n - 55
    else if 97 ≤ n ∧ n ≤ 102 then n - 87
    else 16
  if d < base then some d else none

/-- The number a row of digits stands for, after `acc`. -/
def digitsFrom (base acc : Nat) : List Char → Option Nat
  | [] => some acc
  | ch :: rest => (digitOf base ch).bind fun d => digitsFrom base (base * acc + d) rest

/-- A number: decimal, or hexadecimal with `0x` (R89). -/
def number : List Char → Option Nat
  | '0' :: 'x' :: ch :: rest => digitsFrom 16 0 (ch :: rest)
  | ch :: rest => digitsFrom 10 0 (ch :: rest)
  | [] => none

/-- A number in `0 .. 2^32-1` (R93). -/
def wordOf (cs : List Char) : Option Word :=
  (number cs).bind fun n => if n < 2 ^ 32 then some (BitVec.ofNat 32 n) else none

/-- An operand name: the letter `l` and a decimal number in `0 .. 15` (R90, R93). -/
def idxOf (l : Char) : List Char → Option Idx
  | c :: d :: ds => if c = l then (digitsFrom 10 0 (d :: ds)).bind fun n => if n < 16 then some (BitVec.ofNat 4 n) else none else none
  | _ => none

/-- Bytes from pairs of hex digits (R89). -/
def hexBytes : List Char → Option (List Byte)
  | [] => some []
  | a :: b :: rest =>
    (digitOf 16 a).bind fun x => (digitOf 16 b).bind fun y => (hexBytes rest).map (BitVec.ofNat 8 (16 * x + y) :: ·)
  | _ => none

/-- The hex digits of the remaining tokens, joined across separators (DESIGN CHOICE, log 14). -/
def joinWords : List Tok → Option (List Char)
  | [] => some []
  | .word cs :: rest => (joinWords rest).map (cs ++ ·)
  | .str _ :: _ => none

/-- The bytes of an ASCII string (R89). -/
def asciiBytes : List Char → Option (List Byte)
  | [] => some []
  | ch :: rest => if ch.toNat < 128 then (asciiBytes rest).map (BitVec.ofNat 8 ch.toNat :: ·) else none

/-- A register by its name (R21, R89). -/
def regNamed (cs : List Char) : Option Reg :=
  if cs = ['C', 'M', 'D'] then some .cmd
  else if cs = ['A', 'D', 'D', 'R'] then some .addr
  else if cs = ['L', 'E', 'N'] then some .len
  else if cs = ['S', 'T', 'A', 'T', 'U', 'S'] then some .status
  else if cs = ['R', 'E', 'S', 'U', 'L', 'T'] then some .result
  else if cs = ['I', 'D'] then some .id
  else if cs = ['C', 'F', 'G'] then some .cfg
  else if cs = ['D', 'M', 'S', 'Z'] then some .dmsz
  else none

/-- The operand shapes of R90. -/
inductive CmdShape where
  | plain (i : Instr)
  | oneIdx (letter : Char) (make : Idx → Instr)
  | ctxSlot (make : Idx → Idx → Instr)
  | buffer (letter : Char) (make : Idx → Instr)

/-- A command's shape by its mnemonic (R83, R90). -/
def shapeNamed (cs : List Char) : Option CmdShape :=
  if cs = ['N', 'O', 'P'] then some (.plain .nop)
  else if cs = ['S', 'R', 'S', 'T'] then some (.plain .srst)
  else if cs = ['R', 'E', 'S', 'E', 'T'] then some (.oneIdx 'c' .reset)
  else if cs = ['C', 'L', 'E', 'A', 'N'] then some (.oneIdx 'c' .clean)
  else if cs = ['S', 'A', 'V', 'E'] then some (.ctxSlot .save)
  else if cs = ['R', 'E', 'S', 'T', 'O', 'R', 'E'] then some (.ctxSlot .restore)
  else if cs = ['S', 'C', 'L', 'R'] then some (.oneIdx 's' .sclr)
  else if cs = ['U', 'P', 'D', 'A', 'T', 'E'] then some (.buffer 'c' .update)
  else if cs = ['F', 'I', 'N', 'I', 'S', 'H'] then some (.buffer 'c' .finish)
  else if cs = ['P', 'B', 'L', 'K'] then some (.buffer 'c' .pblk)
  else if cs = ['S', 'R', 'E', 'A', 'D'] then some (.buffer 'c' .sread)
  else if cs = ['H', 'K', 'E', 'Y'] then some (.buffer 'h' .hkey)
  else if cs = ['H', 'U', 'P', 'D'] then some (.buffer 'h' .hupd)
  else if cs = ['H', 'F', 'I', 'N'] then some (.buffer 'h' .hfin)
  else if cs = ['H', 'R', 'S', 'T'] then some (.oneIdx 'h' .hrst)
  else if cs = ['H', 'C', 'L', 'N'] then some (.oneIdx 'h' .hcln)
  else none

/-- A command statement: its shape and its operands, `X` before `Y` before `<addr>, <len>` (R90). -/
def parseCmd (shape : CmdShape) (args : List Tok) : Option Stmt :=
  match shape, args with
  | .plain i, [] => some (.short i)
  | .oneIdx l make, [.word x] => (idxOf l x).map fun i => .short (make i)
  | .ctxSlot make, [.word x, .word y] => (idxOf 'c' x).bind fun c => (idxOf 's' y).map fun k => .short (make c k)
  | .buffer l make, [.word x] => (idxOf l x).map fun i => .short (make i)
  | .buffer l make, [.word x, .word a, .word n] =>
    (idxOf l x).bind fun i => (wordOf a).bind fun a => (wordOf n).map fun n => .long (make i) a n
  | _, _ => none

/-- The operands that are words in `0 .. 2^32-1`, all of them. -/
def wordArgs : List Tok → Option (List Word)
  | [] => some []
  | .word cs :: rest => (wordOf cs).bind fun w => (wordArgs rest).map (w :: ·)
  | .str _ :: _ => none

/-- A statement from its first word and the tokens after it (R89, R90, R95). DESIGN CHOICE, log 14: MEMW with an address and
no bytes, or with an empty string, is a statement that stands for no write, and MEMR of 0 bytes for no read. -/
def parseStmt (name : List Char) (args : List Tok) : Option Stmt :=
  if name = ['W', 'R'] then
    match args with
    | [.word r, .word v] => (regNamed r).bind fun r => (wordOf v).map fun v => .wr r v
    | _ => none
  else if name = ['R', 'D'] then
    match args with
    | [.word r] => (regNamed r).map .rd
    | _ => none
  else if name = ['M', 'E', 'M', 'W'] then
    match args with
    | [.word a, .str cs] => (wordOf a).bind fun a => (asciiBytes cs).map fun bs => .memw a bs
    | .word a :: rest => (wordOf a).bind fun a => ((joinWords rest).bind hexBytes).map fun bs => .memw a bs
    | _ => none
  else if name = ['M', 'E', 'M', 'R'] then
    match args with
    | [.word a, .word n] => (wordOf a).bind fun a => (number n).map fun n => .memr a n
    | _ => none
  else if name = ['D', 'I', 'G', 'E', 'S', 'T'] then
    match args with
    | .word x :: rest =>
      (idxOf 'c' x).bind fun c => (wordArgs rest).bind fun
        | [a] => some (.digest c a)
        | _ => none
    | _ => none
  else if name = ['S', 'H', 'A', '1'] then
    match args with
    | .word x :: rest =>
      (idxOf 'c' x).bind fun c => (wordArgs rest).bind fun
        | [src, n, dst] => some (.sha1 c src n dst)
        | _ => none
    | _ => none
  else if name = ['H', 'M', 'A', 'C'] then
    match args with
    | .word x :: rest =>
      (idxOf 'h' x).bind fun h => (wordArgs rest).bind fun
        | [key, klen, msg, mlen, dst] => some (.hmac h key klen msg mlen dst)
        | _ => none
    | _ => none
  else if name = ['C', 'L', 'R', 'S', 'T', 'I', 'C', 'K', 'Y'] then
    match args with
    | [] => some .clrSticky
    | _ => none
  else (shapeNamed name).bind fun shape => parseCmd shape args

/-- One line of a host program: no statement (blank or comment), one statement, or no sense (R89). -/
def parseLine (line : List Char) : Option (Option Stmt) :=
  (tokensFrom line [] none).bind fun
    | [] => some none
    | .word name :: args => (parseStmt name args).map some
    | .str _ :: _ => none

/-- The accesses a line stands for. -/
def assembleLine (line : List Char) : Option (List Input) :=
  (parseLine line).map fun
    | none => []
    | some st => expand st

end Sys2Proof.Machine
end

