-- ==== Sys2Proof/Safety.lean ====
section
/-! DEFINITION. The terms claims are stated in: the machine's invariant, the hash and MAC functions the rules define on
whole messages, the table of error conditions, and which parts of two states a host cannot tell apart. -/

namespace Sys2Proof.Machine

/-! ## The invariant -/

/-- A context between commands: its arrays have their sizes (spec/10_state.md R30) and `BUFLEN = COUNT mod 64` (R37). -/
def ctxWf (x : Context) : Bool :=
  decide (x.buf.length = 128) && decide (x.w.length = 80) &&
  decide (x.bufLen.toNat = x.count.toNat % 64)

/-- A snapshot between commands: a buffer is carried exactly when bytes were buffered (R38, R135), and a slot with no
saved state holds zeros (R43, R143). -/
def snapWf (p : Snapshot) : Bool :=
  decide (p.buf.length = 128) && decide (p.bufLen.toNat = p.count.toNat % 64) &&
  decide (p.bufValid = decide (p.bufLen.toNat > 0)) && (p.valid || decide (p = Snapshot.empty))

/-- A channel between commands: `DONE = IN.FIN` (R39); a keyed channel holds the two just-keyed states, and `OUT` is still
just keyed until HFIN (spec/42_hmac.md R173, R175, R176); an unkeyed one is as after power-on (R177). -/
def chanWf (ch : Channel) : Bool :=
  ctxWf ch.inn && ctxWf ch.out && snapWf ch.ikey && snapWf ch.okey &&
  decide (ch.inn.fin = ch.done) && decide (ch.out.fin = ch.done) &&
  (if ch.keyed then
    ch.ikey.valid && ch.okey.valid && decide (ch.ikey.count = 64) && decide (ch.okey.count = 64) &&
    (ch.done || (decide (ch.out.h = ch.okey.h) && decide (ch.out.count = 64)))
  else decide (ch = Channel.initial))

/-- The invariant every step keeps. -/
def State.inv (s : State) : Bool :=
  s.params.inRange && s.ctx.all ctxWf && s.snap.all snapWf && s.hm.all chanWf && s.dmem.wf && s.dmem.below s.dmemSize

/-! ## Hashes and MACs of whole messages -/

/-- Block `k` of a byte sequence. -/
def blockAt (m : List Byte) (k : Nat) : List Byte := (m.drop (64 * k)).take 64

/-- The whole blocks of a byte sequence, in order. -/
def wholeBlocks (m : List Byte) : List (List Byte) := (List.range (m.length / 64)).map (blockAt m)

/-- What `Compress` does to a chaining state: a function of `H` and the block alone (spec/40_compression.md R107). -/
def compressH (h : HState) (blk : List Byte) : HState := (compress { Context.initial with h := h } blk).h

/-- `Compress` applied to blocks in order (spec/41_hasher.md R145). -/
def hashBlocks (h : HState) (blocks : List (List Byte)) : HState := blocks.foldl compressH h

/-- The bytes a context has buffered (R32). -/
def buffered (x : Context) : List Byte := x.buf.take x.bufLen.toNat

/-- The padding of `left` bytes buffered out of `count`: the terminator, zeros up to the length field of the last block,
and the bit length (R133, R147). -/
def padding (left : Nat) (count : BitVec 64) : List Byte :=
  0x80 :: List.replicate (if left % 64 < 56 then 55 - left % 64 else 119 - left % 64) 0 ++ lengthField count

/-- The SHA-1 of a message: `Compress` over the blocks of the padded message, from IV, serialised (R145, R147, R134). -/
def sha1Of (m : List Byte) : List Byte :=
  hBytes (hashBlocks HState.iv (wholeBlocks (m ++ padding (m.length % 64) (BitVec.ofNat 64 m.length))))

/-- `K0`: the key, hashed if longer than 64 bytes, then padded with zeros to 64 (spec/42_hmac.md R171). -/
def blockKey (key : List Byte) : List Byte :=
  let k := if key.length > 64 then sha1Of key else key
  k ++ List.replicate (64 - k.length) 0

/-- `HMAC(K, m)` (R171). -/
def hmacOf (key m : List Byte) : List Byte :=
  sha1Of ((blockKey key).map (· ^^^ 0x5C) ++ sha1Of ((blockKey key).map (· ^^^ 0x36) ++ m))

/-- A context that has absorbed some chunks, one `CtxUpdate` each (R145). -/
def absorb (x : Context) (chunks : List (List Byte)) : Context := chunks.foldl ctxUpdate x

/-- A channel that has absorbed some message chunks, one HUPD each (R174). -/
def absorbMessage (ch : Channel) (chunks : List (List Byte)) : Channel := chunks.foldl updateChannel ch

/-! ## Sessions: what a sequence of commands has fed to one context or one channel -/

/-- Context `c` has absorbed the message `m` since it was last reset or cleaned: any sequence of RESET, CLEAN and UPDATE of
`c` that completed, with anything that leaves the context alone in between (R145). -/
inductive HashSession (c : Idx) : List Byte → State → Prop
  | reset {s t : State} (hs : s.inv = true) (h : exec (.reset c) s = .next t) (hok : t.code = .ok) : HashSession c [] t
  | clean {s t : State} (h : exec (.clean c) s = .next t) (hok : t.code = .ok) : HashSession c [] t
  | update {m : List Byte} {s t : State} (hm : HashSession c m s) (h : exec (.update c) s = .next t)
      (hok : t.code = .ok) : HashSession c (m ++ memRead s.dmem s.addr.toNat s.len.toNat) t
  | other {m : List Byte} {s t : State} (hm : HashSession c m s) (h : t.ctx[c.toNat]? = s.ctx[c.toNat]?) :
      HashSession c m t

/-- Channel `h` was last keyed with `key` and has absorbed the message `some m` since it was keyed or reset, or has
finished its MAC (`none`): any sequence of HKEY, HUPD, HFIN and HRST of `h` that completed, with anything that leaves the
channel alone in between (spec/42_hmac.md R178). -/
inductive HmacSession (h : Idx) : List Byte → Option (List Byte) → State → Prop
  | key {s t : State} (hx : exec (.hkey h) s = .next t) (hok : t.code = .ok) :
      HmacSession h (memRead s.dmem s.addr.toNat s.len.toNat) (some []) t
  | update {key m : List Byte} {s t : State} (hm : HmacSession h key (some m) s) (hx : exec (.hupd h) s = .next t)
      (hok : t.code = .ok) : HmacSession h key (some (m ++ memRead s.dmem s.addr.toNat s.len.toNat)) t
  | finish {key : List Byte} {o : Option (List Byte)} {s t : State} (hm : HmacSession h key o s)
      (hx : exec (.hfin h) s = .next t) (hok : t.code = .ok) : HmacSession h key none t
  | reset {key : List Byte} {o : Option (List Byte)} {s t : State} (hm : HmacSession h key o s)
      (hx : exec (.hrst h) s = .next t) (hok : t.code = .ok) : HmacSession h key (some []) t
  | other {key : List Byte} {o : Option (List Byte)} {s t : State} (hm : HmacSession h key o s)
      (hx : t.hm[h.toNat]? = s.hm[h.toNat]?) : HmacSession h key o t

/-! ## The states of a context and of a channel -/

/-- The states of a channel (R172). -/
inductive ChanState where
  | unkeyed
  | opened
  | finished
  deriving DecidableEq, Repr

/-- Which state a channel is in (R172). -/
def chanState (ch : Channel) : ChanState :=
  if !ch.keyed then .unkeyed else if ch.done then .finished else .opened

/-! ## The error conditions -/

/-- The command needs a keyed channel and the channel is not keyed (spec/60_exceptions.md R212). -/
def needsKey (s : State) : Instr → Bool
  | .hupd h | .hfin h | .hrst h => (s.hm[h.toNat]?).any fun ch => !ch.keyed
  | .nop | .reset _ | .update _ | .finish _ | .save _ _ | .restore _ _ | .clean _ | .sclr _ | .pblk _ | .sread _
  | .hkey _ | .hcln _ | .srst => false

/-- RESTORE from a slot that holds no saved state (R212). -/
def needsSaved (s : State) : Instr → Bool
  | .restore _ k => (s.snap[k.toNat]?).any fun p => !p.valid
  | .nop | .reset _ | .update _ | .finish _ | .save _ _ | .clean _ | .sclr _ | .pblk _ | .sread _ | .hkey _ | .hupd _
  | .hfin _ | .hrst _ | .hcln _ | .srst => false

/-- The command absorbs, saves or compresses, and its hasher is finished (R212). -/
def needsActive (s : State) : Instr → Bool
  | .update c | .save c _ | .pblk c => (s.ctx[c.toNat]?).any fun x => x.fin
  | .hupd h => (s.hm[h.toNat]?).any fun ch => ch.inn.fin
  | .nop | .reset _ | .finish _ | .restore _ _ | .clean _ | .sclr _ | .sread _ | .hkey _ | .hfin _ | .hrst _ | .hcln _
  | .srst => false

/-- The command writes a digest and the output buffer is short (R212). -/
def needsRoom (s : State) : Instr → Bool
  | .finish _ | .sread _ | .hfin _ => decide (s.len.toNat < 20)
  | .nop | .reset _ | .update _ | .save _ _ | .restore _ _ | .clean _ | .sclr _ | .pblk _ | .hkey _ | .hupd _ | .hrst _
  | .hcln _ | .srst => false

/-- The bytes the command would read or write do not all exist, in exact integers (R64, R212). -/
def badBuffer (s : State) : Instr → Bool
  | .update _ | .pblk _ | .hkey _ | .hupd _ => decide (s.dmemSize < s.addr.toNat + s.len.toNat)
  | .finish _ | .sread _ | .hfin _ => decide (s.dmemSize < s.addr.toNat + 20)
  | .nop | .reset _ | .save _ _ | .restore _ _ | .clean _ | .sclr _ | .hrst _ | .hcln _ | .srst => false

/-- The first condition that holds, in the order of R213. -/
def firstError (s : State) (i : Instr) : Option Code :=
  if !i.wf s.params then some .illegal
  else if needsKey s i then some .nokey
  else if needsSaved s i then some .snapempty
  else if needsActive s i then some .misuse
  else if needsRoom s i then some .outbuf
  else if badBuffer s i then some .bounds
  else none

/-! ## Frames -/

/-- What no command changes: the command word, the operand registers, the parameters, and what is outside the engine
(R22 to R24, R29, R216). -/
def keepsHostSide (s t : State) : Prop :=
  t.cmd = s.cmd ∧ t.addr = s.addr ∧ t.len = s.len ∧ t.params = s.params ∧ t.inputs = s.inputs ∧ t.seen = s.seen

/-- Every context but `c` is unchanged. -/
def keepsOtherCtx (c : Idx) (s t : State) : Prop := ∀ j : Nat, j ≠ c.toNat → t.ctx[j]? = s.ctx[j]?

/-- Every slot but `k` is unchanged. -/
def keepsOtherSnap (k : Idx) (s t : State) : Prop := ∀ j : Nat, j ≠ k.toNat → t.snap[j]? = s.snap[j]?

/-- Every channel but `h` is unchanged. -/
def keepsOtherChan (h : Idx) (s t : State) : Prop := ∀ j : Nat, j ≠ h.toNat → t.hm[j]? = s.hm[j]?

/-- Every byte of memory reads as before. -/
def keepsMemory (s t : State) : Prop := ∀ a : Nat, readByte t.dmem a = readByte s.dmem a

/-- Every byte outside the 20 bytes at `ADDR` reads as before. -/
def keepsMemoryButOutput (s t : State) : Prop :=
  ∀ a : Nat, a < s.addr.toNat ∨ s.addr.toNat + 20 ≤ a → readByte t.dmem a = readByte s.dmem a

/-- A command that completed: `CODE` is `OK` and `STICKY` is as it was (R14, R215). -/
def completed (s t : State) : Prop := t.code = .ok ∧ t.sticky = s.sticky

/-! ## What a host cannot tell apart -/

/-- Two contexts that differ at most in `W` and in `BUF` at or beyond `BUFLEN` (spec/10_state.md R32, R36, R44). -/
def ctxAlike (x y : Context) : Prop :=
  x.h = y.h ∧ x.bufLen = y.bufLen ∧ x.count = y.count ∧ x.fin = y.fin ∧ buffered x = buffered y

/-- Two snapshots that differ at most in `BUF` at or beyond `BUFLEN`. -/
def snapAlike (p q : Snapshot) : Prop :=
  p.valid = q.valid ∧ p.h = q.h ∧ p.bufValid = q.bufValid ∧ p.bufLen = q.bufLen ∧ p.count = q.count ∧
  p.buf.take p.bufLen.toNat = q.buf.take q.bufLen.toNat

/-- Two channels alike in each part. -/
def chanAlike (a b : Channel) : Prop :=
  ctxAlike a.inn b.inn ∧ ctxAlike a.out b.out ∧ snapAlike a.ikey b.ikey ∧ snapAlike a.okey b.okey ∧
  a.keyed = b.keyed ∧ a.done = b.done

/-- Two states that differ at most in hidden state (R44): everything a host can read is equal. -/
def alike (s t : State) : Prop :=
  s.cmd = t.cmd ∧ s.addr = t.addr ∧ s.len = t.len ∧ s.code = t.code ∧ s.sticky = t.sticky ∧ s.result = t.result ∧
  s.dmemSize = t.dmemSize ∧ s.dmem = t.dmem ∧ s.inputs = t.inputs ∧ s.seen = t.seen ∧
  List.Forall₂ ctxAlike s.ctx t.ctx ∧ List.Forall₂ snapAlike s.snap t.snap ∧ List.Forall₂ chanAlike s.hm t.hm

end Sys2Proof.Machine
end

