-- ==== Sys2Proof/Certificates/Slice0/Obligations.lean ====
section
/-! DEFINITION. The statements for the provers, in the order of spec/: encoding, the host's side, errors, control,
compression, hasher, HMAC, whole messages, the invariant, and what stays hidden. -/

open Sys2Proof Sys2Proof.Machine

/-! ## Encoding (spec/30_encoding.md) -/

/-- Every well-formed command is read back from its word, with every index, for all parameters (R81, R83, R85). -/
def Obligations.DecodeReadsEncodedCommand : Prop :=
  ∀ (p : Params) (i : Instr), i.wf p = true → decode p (encode i) = .ok i

/-- A word the decoder accepts is the word of the command it gives, and that command is legal: no two words share a
command and no field is dropped (R81, R85). -/
def Obligations.DecodedWordIsTheEncoding : Prop :=
  ∀ (p : Params) (v : Word) (i : Instr), decode p v = .ok i → encode i = v ∧ i.wf p = true

/-- R84, with the masks and match values of spec/opcode_table.json: a word is a command exactly when it matches a row and
the indices are in range, and no word matches two rows (R85). -/
def Obligations.DecodeFollowsMaskAndMatch : Prop :=
  (opcodeMap.map fun r => (r.mask, r.matchValue, r.make 1 2)) =
    [ (0xFFFFFFFF, 0x00000000, .nop), (0xFF0FFFFF, 0x01000000, .reset 1), (0xFF0FFFFF, 0x02000000, .update 1),
      (0xFF0FFFFF, 0x03000000, .finish 1), (0xFF00FFFF, 0x04000000, .save 1 2), (0xFF00FFFF, 0x05000000, .restore 1 2),
      (0xFF0FFFFF, 0x06000000, .clean 1), (0xFFF0FFFF, 0x07000000, .sclr 2), (0xFF0FFFFF, 0x10000000, .pblk 1),
      (0xFF0FFFFF, 0x11000000, .sread 1), (0xFF0FFFFF, 0x20000000, .hkey 1), (0xFF0FFFFF, 0x21000000, .hupd 1),
      (0xFF0FFFFF, 0x22000000, .hfin 1), (0xFF0FFFFF, 0x23000000, .hrst 1), (0xFF0FFFFF, 0x24000000, .hcln 1),
      (0xFFFFFFFF, 0x30000000, .srst) ] ∧
  (∀ (p : Params) (v : Word) (i : Instr), decode p v = .ok i ↔
    ∃ r ∈ opcodeMap, v &&& r.mask = r.matchValue ∧ i = r.make (xField v) (yField v) ∧ i.wf p = true) ∧
  (∀ (v : Word), ∀ r ∈ opcodeMap, ∀ r' ∈ opcodeMap,
    v &&& r.mask = r.matchValue → v &&& r'.mask = r'.matchValue → r.op = r'.op)

/-- The encoding examples of R94, read and written. -/
def Obligations.SpecExamplesEncodeAndDecode : Prop :=
  ∀ e ∈ [ (Instr.nop, (0x00000000 : Word)), (.reset 0, 0x01000000), (.update 1, 0x02100000), (.finish 3, 0x03300000),
      (.save 2 3, 0x04230000), (.restore 0 1, 0x05010000), (.clean 1, 0x06100000), (.sclr 2, 0x07020000),
      (.pblk 0, 0x10000000), (.sread 2, 0x11200000), (.hkey 1, 0x20100000), (.hupd 0, 0x21000000),
      (.hfin 1, 0x22100000), (.hrst 0, 0x23000000), (.hcln 1, 0x24100000), (.srst, 0x30000000) ],
    encode e.1 = e.2 ∧ decode Params.default e.2 = .ok e.1

/-- Which words raise `ILLEGAL`, in numbers: `op`, `x`, `y`, `rsv` are the fields of R81 (R85, R86). -/
def Obligations.IllegalWordRaisesIllegalOnly : Prop :=
  ∀ (s : State) (v : Word) (rest : List Input), s.inputs = .regWrite .word 0x00 v :: rest →
    let op := v.toNat / 2 ^ 24
    let x := v.toNat / 2 ^ 20 % 16
    let y := v.toNat / 2 ^ 16 % 16
    let rsv := v.toNat % 2 ^ 16
    let bad :=
      (0x08 ≤ op ∧ op ≤ 0x0F) ∨ (0x12 ≤ op ∧ op ≤ 0x1F) ∨ (0x25 ≤ op ∧ op ≤ 0x2F) ∨ (0x31 ≤ op ∧ op ≤ 0xFF) ∨
      rsv ≠ 0 ∨
      (x ≠ 0 ∧ (op = 0x00 ∨ op = 0x07 ∨ op = 0x30)) ∨
      (y ≠ 0 ∧ op ≠ 0x04 ∧ op ≠ 0x05 ∧ op ≠ 0x07) ∨
      (s.params.nctx ≤ x ∧ ((0x01 ≤ op ∧ op ≤ 0x06) ∨ op = 0x10 ∨ op = 0x11)) ∨
      (s.params.nhmac ≤ x ∧ 0x20 ≤ op ∧ op ≤ 0x24) ∨
      (s.params.nsnap ≤ y ∧ (op = 0x04 ∨ op = 0x05 ∨ op = 0x07))
    (bad → step s = .next { s with cmd := v, inputs := rest, code := .illegal, sticky := true }) ∧
    (¬ bad → ∃ i, decode s.params v = .ok i ∧ step s = exec i { s with cmd := v, inputs := rest })

/-! ## The host's side (spec/10_state.md, spec/20_memory.md, spec/43_control.md) -/

/-- A write of a legal command word to `CMD` stores it and executes the command it encodes, from the state as it stands;
`withFetchWord` places such a write first (R22, R70, log 3). -/
def Obligations.StepRunsTheCommandWritten : Prop :=
  (∀ (s : State) (v : Word) (i : Instr) (rest : List Input), s.inputs = .regWrite .word 0x00 v :: rest →
    decode s.params v = .ok i → step s = exec i { s with cmd := v, inputs := rest }) ∧
  (∀ (s : State) (w : Nat) (i : Instr), w < 2 ^ 32 → decode s.params (BitVec.ofNat 32 w) = .ok i →
    step (s.withFetchWord 32 w) = exec i { s with cmd := BitVec.ofNat 32 w })

/-- Host writes, register by register (R202). -/
def Obligations.HostWritesEachRegister : Prop :=
  ∀ (s : State) (off : BitVec 8) (v : Word) (rest : List Input), s.inputs = .regWrite .word off v :: rest →
    (off = 0x00 → step s = match decode s.params v with
      | .ok i => exec i { s with cmd := v, inputs := rest }
      | .error _ => .next { s with cmd := v, inputs := rest, code := .illegal, sticky := true }) ∧
    (off = 0x04 → step s = .next { s with inputs := rest, addr := v }) ∧
    (off = 0x08 → step s = .next { s with inputs := rest, len := v }) ∧
    (off = 0x0C → step s = .next { s with inputs := rest, sticky := s.sticky && !v.getLsbD 8 }) ∧
    (off = 0x10 ∨ off = 0x14 ∨ off = 0x18 ∨ off = 0x1C → step s = .next { s with inputs := rest })

/-- Host reads, register by register, and the reserved offsets: a read changes nothing but the model's own record of what the
host has read (log 4); a reserved offset reads 0 and ignores writes (R203, R204, with the values of R22 to R29 and R211). -/
def Obligations.HostReadsEachRegister : Prop :=
  ∀ (s : State), s.params.inRange = true →
    (∀ (off : BitVec 8) (rest : List Input), s.inputs = .regRead .word off :: rest → off.toNat % 4 = 0 →
      step s = .next { s with inputs := rest, seen := .reg off (readOffset s off) :: s.seen }) ∧
    (∀ (off : BitVec 8) (v : Word) (rest : List Input), s.inputs = .regWrite .word off v :: rest → off.toNat % 4 = 0 →
      0x20 ≤ off.toNat → step s = .next { s with inputs := rest }) ∧
    readOffset s 0x00 = s.cmd ∧ readOffset s 0x04 = s.addr ∧ readOffset s 0x08 = s.len ∧
    readOffset s 0x0C = BitVec.ofNat 32 ((match s.code with
      | .ok => 0 | .illegal => 1 | .bounds => 2 | .misuse => 3 | .outbuf => 4 | .snapempty => 5 | .nokey => 6) +
      if s.sticky then 256 else 0) ∧
    readOffset s 0x10 = s.result ∧ readOffset s 0x14 = 0x53484131 ∧
    readOffset s 0x18 = BitVec.ofNat 32 (s.params.nctx + 2 ^ 8 * s.params.nsnap + 2 ^ 16 * s.params.nhmac) ∧
    readOffset s 0x1C = BitVec.ofNat 32 s.params.dmemSize ∧
    (∀ off : BitVec 8, off.toNat % 4 = 0 → 0x20 ≤ off.toNat → readOffset s off = 0)

/-- `ID`, `CFG` and `DMSZ` are constant: no step changes a parameter (R28, R29). -/
def Obligations.IdentityRegistersAreConstant : Prop :=
  ∀ (s t : State), step s = .next t → t.params = s.params ∧ readOffset t 0x14 = readOffset s 0x14 ∧
    readOffset t 0x18 = readOffset s 0x18 ∧ readOffset t 0x1C = readOffset s 0x1C

/-- A step is refused exactly for a register access that is not an aligned 32-bit access (R69), and faults exactly for a
host access to a DMEM address that does not exist (the model's choice, log 6). -/
def Obligations.OnlyBadHostAccessesStop : Prop :=
  ∀ (s : State),
    ((∃ r, step s = .refused r) ↔ ∃ width off rest, ¬ (width = .word ∧ off.toNat % 4 = 0) ∧
      (s.inputs = .regRead width off :: rest ∨ ∃ v, s.inputs = .regWrite width off v :: rest)) ∧
    ((∃ f, step s = .fault f) ↔ ∃ a rest, s.dmemSize ≤ a ∧
      (s.inputs = .memRead a :: rest ∨ ∃ b, s.inputs = .memWrite a b :: rest))

/-- The host's byte accesses of DMEM: a write changes that byte and no other, a read returns the byte and changes nothing
but the model's own record of it (R61, R63, log 4). -/
def Obligations.HostReadsAndWritesMemory : Prop :=
  ∀ (s : State) (a : Nat) (rest : List Input), s.dmem.wf = true → a < s.dmemSize →
    (∀ b, s.inputs = .memWrite a b :: rest → ∃ m, step s = .next { s with inputs := rest, dmem := m } ∧
      readByte m a = b ∧ ∀ a', a' ≠ a → readByte m a' = readByte s.dmem a') ∧
    (s.inputs = .memRead a :: rest →
      step s = .next { s with inputs := rest, seen := .mem a (readByte s.dmem a) :: s.seen })

/-- With nothing to do the engine waits: it fetches nothing (R241; that a step then leaves the state alone is the model's
choice, log 3). -/
def Obligations.EngineWaitsForTheHost : Prop := ∀ (s : State), s.inputs = [] → step s = .next s

/-- What power-on reset leaves: every register, context, slot and channel field at the value of R43, `DMEM` at the
contents the machine is given, for every parameter. -/
def Obligations.ResetLeavesTheSpecValues : Prop :=
  let iv : HState := ⟨0x67452301, 0xEFCDAB89, 0x98BADCFE, 0x10325476, 0xC3D2E1F0⟩
  let freshCtx : Context := { h := iv, buf := List.replicate 128 0, bufLen := 0, count := 0, fin := false, w := List.replicate 80 0 }
  let emptySnap : Snapshot :=
    { valid := false, h := ⟨0, 0, 0, 0, 0⟩, bufValid := false, buf := List.replicate 128 0, bufLen := 0, count := 0 }
  ∀ (p : Params) (m : Memory), p.inRange = true →
    let t := State.resetWith p m
    t.cmd = 0 ∧ t.addr = 0 ∧ t.len = 0 ∧ t.result = 0 ∧ statusWord t = 0 ∧ readOffset t 0x14 = 0x53484131 ∧
    readOffset t 0x18 = BitVec.ofNat 32 (p.nctx + 2 ^ 8 * p.nsnap + 2 ^ 16 * p.nhmac) ∧
    readOffset t 0x1C = BitVec.ofNat 32 p.dmemSize ∧ t.params = p ∧ t.dmem = m ∧
    (∀ x ∈ t.ctx, x = freshCtx) ∧ (∀ q ∈ t.snap, q = emptySnap) ∧
    (∀ ch ∈ t.hm, ch = { inn := freshCtx, out := freshCtx, ikey := emptySnap, okey := emptySnap, keyed := false, done := false })

/-- Power-on reset as an event on any machine: everything is as reset leaves it, but DMEM stays as it stands and so do the
parameters (R240, log 7) and the model's own fields `inputs` and `seen` (log 3, log 4). -/
def Obligations.PowerOnIsResetButForMemory : Prop :=
  ∀ (s : State) (rest : List Input), s.inputs = .powerOn :: rest →
    step s = .next { State.resetWith s.params s.dmem with inputs := rest, seen := s.seen }

/-! ## Errors (spec/60_exceptions.md) -/

/-- Each command raises the first condition of the table of R212 that holds, in the order of R213; a raise writes
`STATUS` and nothing else (R214); with no condition the command completes with `OK`. -/
def Obligations.ErrorsFollowTheTable : Prop :=
  ∀ (s : State) (i : Instr),
    (∀ e, firstError s i = some e → exec i s = .next { s with code := e, sticky := true }) ∧
    (firstError s i = none → ∃ t, exec i s = .next t ∧ t.code = .ok ∧ (i ≠ .srst → t.sticky = s.sticky))

/-- `STICKY` is set by every raise and cleared by a host write of `STATUS` with bit 8 set, by SRST and by power-on reset,
and by nothing else (R215). -/
def Obligations.StickyIsSetAndClearedAsSaid : Prop :=
  ∀ (s t : State), step s = .next t →
    let clears := (∃ v rest, s.inputs = .regWrite .word 0x0C v :: rest ∧ v.getLsbD 8 = true) ∨
      (∃ rest, s.inputs = .regWrite .word 0x00 0x30000000 :: rest) ∨ (∃ rest, s.inputs = .powerOn :: rest)
    let raises := (∃ v rest, s.inputs = .regWrite .word 0x00 v :: rest) ∧ t.code ≠ .ok
    (raises → t.sticky = true) ∧ (clears → t.sticky = false) ∧ (¬ raises → ¬ clears → t.sticky = s.sticky)

/-- No command stops the machine or changes the command word, the operand registers, the parameters, or anything outside
the engine (R23, R24, R210, R216, R219). -/
def Obligations.CommandsAlwaysEndAndKeepOperands : Prop :=
  ∀ (s : State) (i : Instr), ∃ t, exec i s = .next t ∧ keepsHostSide s t

/-- `RESULT` is written by a PBLK that does not raise (R27, R109), zeroed by SRST, and left alone by every other command. That
SRST zeroes it is the model's choice between R27's words and R201 with D27 (DEDUCED, log 11). -/
def Obligations.ResultIsWrittenByPblkAndSrst : Prop :=
  ∀ (s t : State) (i : Instr), exec i s = .next t →
    (i = .srst → t.result = 0) ∧
    (∀ c, i = .pblk c → t.code = .ok → t.result = BitVec.ofNat 32 (s.addr.toNat + 64 * (s.len.toNat / 64))) ∧
    (∀ c, i = .pblk c → t.code ≠ .ok → t.result = s.result) ∧
    (i ≠ .srst → (∀ c, i ≠ .pblk c) → t.result = s.result)

/-- Only FINISH, SREAD and HFIN write DMEM, only when they complete, and only the 20 bytes at `ADDR` (R62). -/
def Obligations.MemoryIsWrittenByDigestsOnly : Prop :=
  ∀ (s t : State) (i : Instr), exec i s = .next t → ∀ a, readByte t.dmem a ≠ readByte s.dmem a →
    (∃ c, i = .finish c ∨ i = .sread c ∨ i = .hfin c) ∧ t.code = .ok ∧ s.addr.toNat ≤ a ∧ a < s.addr.toNat + 20

/-- A command reads no byte of DMEM outside `ADDR .. ADDR+LEN-1`: other bytes do not change what it does (R62). -/
def Obligations.CommandsReadTheirInputOnly : Prop :=
  ∀ (s t : State) (m : Memory) (i : Instr),
    (∀ a, s.addr.toNat ≤ a → a < s.addr.toNat + s.len.toNat → readByte m a = readByte s.dmem a) →
    exec i s = .next t → ∃ t', exec i { s with dmem := m } = .next t' ∧ { t' with dmem := [] } = { t with dmem := [] }

/-- A command other than SRST changes only the context, slot or channel its indices name; RESTORE leaves the slot and SAVE
the context alone (R82, R135, R136, R224). -/
def Obligations.CommandsTouchOnlyWhatTheyName : Prop :=
  ∀ (s t : State) (i : Instr), exec i s = .next t → i ≠ .srst →
    (∀ j : Nat, (∀ c, i.ctxIdx = some c → j ≠ c.toNat) → t.ctx[j]? = s.ctx[j]?) ∧
    (∀ j : Nat, (∀ k, i.slotIdx = some k → j ≠ k.toNat) → t.snap[j]? = s.snap[j]?) ∧
    (∀ j : Nat, (∀ h, i.chanIdx = some h → j ≠ h.toNat) → t.hm[j]? = s.hm[j]?) ∧
    (∀ c k, i = .restore c k → t.snap = s.snap) ∧ (∀ c k, i = .save c k → t.ctx = s.ctx)

/-! ## Engine control (spec/43_control.md) -/

/-- NOP changes nothing but `STATUS.CODE` (R200). -/
def Obligations.NopOnlySetsCode : Prop := ∀ (s : State), exec .nop s = .next { s with code := .ok }

/-- SRST gives everything its power-on value but `CMD`, `ADDR`, `LEN` and DMEM (R201, R241; `RESULT` too, DEDUCED, log 11). -/
def Obligations.SrstIsPowerOnButForOperands : Prop :=
  ∀ (s : State), exec .srst s = .next { State.resetWith s.params s.dmem with
    cmd := s.cmd, addr := s.addr, len := s.len, inputs := s.inputs, seen := s.seen }

/-! ## Compression (spec/40_compression.md) -/

/-- The schedule `Compress` leaves in `W`: 16 big-endian words, then the recurrence (R101, R102). -/
def Obligations.ScheduleLoadsAndExtends : Prop :=
  ∀ (x : Context) (blk : List Byte), x.w.length = 80 → blk.length = 64 →
    let w := (compress x blk).w
    w.length = 80 ∧
    (∀ j, j < 16 → w.getD j 0 = BitVec.ofNat 32 ((blk.getD (4 * j) 0).toNat * 2 ^ 24 +
      (blk.getD (4 * j + 1) 0).toNat * 2 ^ 16 + (blk.getD (4 * j + 2) 0).toNat * 2 ^ 8 + (blk.getD (4 * j + 3) 0).toNat)) ∧
    (∀ i, 16 ≤ i → i < 80 → w.getD i 0 =
      (w.getD (i - 3) 0 ^^^ w.getD (i - 8) 0 ^^^ w.getD (i - 14) 0 ^^^ w.getD (i - 16) 0).rotateLeft 1)

/-- The working variables start at `H`, follow the round rule 80 times, and are added to `H` (R103 to R106). -/
def Obligations.RoundsFollowTheRule : Prop :=
  ∀ (x : Context) (blk : List Byte), x.w.length = 80 → blk.length = 64 →
    let w := (compress x blk).w
    let f (i : Nat) (b c d : Word) : Word :=
      if i ≤ 19 then (b &&& c) ||| (~~~b &&& d)
      else if i ≤ 39 then b ^^^ c ^^^ d
      else if i ≤ 59 then (b &&& c) ||| (b &&& d) ||| (c &&& d)
      else b ^^^ c ^^^ d
    let k (i : Nat) : Word :=
      if i ≤ 19 then 0x5A827999 else if i ≤ 39 then 0x6ED9EBA1 else if i ≤ 59 then 0x8F1BBCDC else 0xCA62C1D6
    ∃ a b c d e : Nat → Word,
      (a 0 = x.h.h0 ∧ b 0 = x.h.h1 ∧ c 0 = x.h.h2 ∧ d 0 = x.h.h3 ∧ e 0 = x.h.h4) ∧
      (∀ i, i < 80 →
        a (i + 1) = (a i).rotateLeft 5 + f i (b i) (c i) (d i) + e i + k i + w.getD i 0 ∧ b (i + 1) = a i ∧
        c (i + 1) = (b i).rotateLeft 30 ∧ d (i + 1) = c i ∧ e (i + 1) = d i) ∧
      (compress x blk).h = ⟨x.h.h0 + a 80, x.h.h1 + b 80, x.h.h2 + c 80, x.h.h3 + d 80, x.h.h4 + e 80⟩

/-- `Compress` is a function of `H` and the block, writes nothing but `H` and `W`, and leaves in `W` a schedule that
depends on the block only; with the worked example of R107. -/
def Obligations.CompressDependsOnStateAndBlockOnly : Prop :=
  (∀ (x y : Context) (blk : List Byte), x.w.length = 80 → y.w.length = 80 → blk.length = 64 →
    (x.h = y.h → (compress x blk).h = (compress y blk).h) ∧ (compress x blk).w = (compress y blk).w ∧
    (compress x blk).buf = x.buf ∧ (compress x blk).bufLen = x.bufLen ∧ (compress x blk).count = x.count ∧
    (compress x blk).fin = x.fin) ∧
  (compress Context.initial ([0x61, 0x62, 0x63, 0x80] ++ List.replicate 59 0 ++ [0x18])).h =
    ⟨0xA9993E36, 0x4706816A, 0xBA3E2571, 0x7850C26C, 0x9CD0D89D⟩

/-- `ProcessBlocks` compresses `floor(n / 64)` blocks in increasing address order, gives the offset after them and does not
read a remainder (R108). -/
def Obligations.ProcessBlocksTakesWholeBlocks : Prop :=
  ∀ (x : Context) (s : List Byte) (off n : Nat), off + n ≤ s.length →
    (processBlocks x s off n).1 =
      (List.range (n / 64)).foldl (fun y j => compress y ((s.drop (off + 64 * j)).take 64)) x ∧
    (processBlocks x s off n).2 = off + 64 * (n / 64) ∧ (n < 64 → processBlocks x s off n = (x, off)) ∧
    (∀ s' : List Byte, s'.take (off + 64 * (n / 64)) = s.take (off + 64 * (n / 64)) →
      processBlocks x s' off n = processBlocks x s off n)

/-- PBLK completes on an Active context with its bytes in bounds: `H` over the whole blocks, `RESULT` one past the last,
the rest of the context and of the machine unchanged (R109). -/
def Obligations.PblkCompressesWholeBlocks : Prop :=
  ∀ (s : State) (c : Idx) (x : Context), s.ctx[c.toNat]? = some x → ctxWf x = true → x.fin = false →
    s.addr.toNat + s.len.toNat ≤ s.dmemSize →
    ∃ t y, exec (.pblk c) s = .next t ∧ completed s t ∧ t.ctx[c.toNat]? = some y ∧
      y.h = hashBlocks x.h (wholeBlocks (memRead s.dmem s.addr.toNat s.len.toNat)) ∧
      y.buf = x.buf ∧ y.bufLen = x.bufLen ∧ y.count = x.count ∧ y.fin = x.fin ∧ (s.len.toNat < 64 → y = x) ∧
      t.result = BitVec.ofNat 32 (s.addr.toNat + 64 * (s.len.toNat / 64)) ∧
      keepsHostSide s t ∧ keepsOtherCtx c s t ∧ t.snap = s.snap ∧ t.hm = s.hm ∧ keepsMemory s t

/-- SREAD completes in either state of the context, with room and in bounds: the 20 bytes of `H`, most significant byte
first, at `ADDR`; nothing else changes (R110, R134). -/
def Obligations.SreadWritesChainingState : Prop :=
  ∀ (s : State) (c : Idx) (x : Context), s.dmem.wf = true → s.ctx[c.toNat]? = some x → 20 ≤ s.len.toNat →
    s.addr.toNat + 20 ≤ s.dmemSize →
    ∃ t, exec (.sread c) s = .next t ∧ completed s t ∧
      memRead t.dmem s.addr.toNat 20 = ([x.h.h0, x.h.h1, x.h.h2, x.h.h3, x.h.h4].flatMap fun w =>
        [24, 16, 8, 0].map fun k => BitVec.ofNat 8 (w.toNat / 2 ^ k)) ∧
      keepsMemoryButOutput s t ∧ t.ctx = s.ctx ∧ keepsHostSide s t ∧ t.snap = s.snap ∧ t.hm = s.hm ∧ t.result = s.result

/-! ## Hasher (spec/41_hasher.md) -/

/-- RESET completes on every context: IV, counters and flag zero, `BUF` and `W` as they were (R131, R138). -/
def Obligations.ResetReinitialisesContext : Prop :=
  ∀ (s : State) (c : Idx) (x : Context), s.ctx[c.toNat]? = some x →
    ∃ t, exec (.reset c) s = .next t ∧ completed s t ∧
      t.ctx[c.toNat]? = some ⟨⟨0x67452301, 0xEFCDAB89, 0x98BADCFE, 0x10325476, 0xC3D2E1F0⟩, x.buf, 0, 0, false, x.w⟩ ∧
      keepsHostSide s t ∧ keepsOtherCtx c s t ∧ t.snap = s.snap ∧ t.hm = s.hm ∧ t.result = s.result ∧ keepsMemory s t

/-- CLEAN completes on every context and leaves it as power-on does (R137, R144). -/
def Obligations.CleanWipesContext : Prop :=
  ∀ (s : State) (c : Idx) (x : Context), s.ctx[c.toNat]? = some x →
    let fresh : Context := { h := ⟨0x67452301, 0xEFCDAB89, 0x98BADCFE, 0x10325476, 0xC3D2E1F0⟩, buf := List.replicate 128 0, bufLen := 0, count := 0, fin := false, w := List.replicate 80 0 }
    ∃ t, exec (.clean c) s = .next t ∧ completed s t ∧ t.ctx[c.toNat]? = some fresh ∧
      keepsHostSide s t ∧ keepsOtherCtx c s t ∧ t.snap = s.snap ∧ t.hm = s.hm ∧ t.result = s.result ∧ keepsMemory s t

/-- UPDATE completes on an Active context with its bytes in bounds: the buffered bytes and the input together are cut into
whole blocks, which go through `Compress`, and a remainder, which is buffered; `COUNT` grows by `LEN` modulo 2^64
(R132, R139). -/
def Obligations.UpdateAbsorbsInput : Prop :=
  ∀ (s : State) (c : Idx) (x : Context), s.ctx[c.toNat]? = some x → ctxWf x = true → x.fin = false →
    s.addr.toNat + s.len.toNat ≤ s.dmemSize →
    let data := buffered x ++ memRead s.dmem s.addr.toNat s.len.toNat
    ∃ t y, exec (.update c) s = .next t ∧ completed s t ∧ t.ctx[c.toNat]? = some y ∧
      y.h = hashBlocks x.h (wholeBlocks data) ∧ y.bufLen.toNat = data.length % 64 ∧
      buffered y = data.drop (64 * (data.length / 64)) ∧
      y.count.toNat = (x.count.toNat + s.len.toNat) % 2 ^ 64 ∧ y.fin = false ∧
      keepsHostSide s t ∧ keepsOtherCtx c s t ∧ t.snap = s.snap ∧ t.hm = s.hm ∧ t.result = s.result ∧ keepsMemory s t

/-- FINISH completes with room and in bounds: an Active context is padded, compressed and marked finished, a Finished one
is left alone; either way the 20 bytes of `H` are written at `ADDR`, and no other byte (R133, R134, R140). -/
def Obligations.FinishPadsAndWritesDigest : Prop :=
  ∀ (s : State) (c : Idx) (x : Context), s.dmem.wf = true → s.ctx[c.toNat]? = some x → ctxWf x = true →
    20 ≤ s.len.toNat → s.addr.toNat + 20 ≤ s.dmemSize →
    ∃ t y, exec (.finish c) s = .next t ∧ completed s t ∧ t.ctx[c.toNat]? = some y ∧
      (x.fin = true → y = x) ∧
      (x.fin = false → y.h = hashBlocks x.h (wholeBlocks (buffered x ++ padding x.bufLen.toNat x.count)) ∧
        y.fin = true ∧ y.bufLen = x.bufLen ∧ y.count = x.count) ∧
      memRead t.dmem s.addr.toNat 20 = hBytes y.h ∧ keepsMemoryButOutput s t ∧
      keepsHostSide s t ∧ keepsOtherCtx c s t ∧ t.snap = s.snap ∧ t.hm = s.hm ∧ t.result = s.result

/-- The padded buffer byte by byte, and how many blocks are compressed, by the number of bytes buffered, with the message
lengths R147 names (R133, R147). -/
def Obligations.PaddingLayoutByBufferedBytes : Prop :=
  ([55, 56, 63, 64, 65, 119, 120, 128].map fun n => (n % 64, padLength (n % 64) / 64)) =
    [(55, 1), (56, 2), (63, 2), (0, 1), (1, 1), (55, 1), (56, 2), (0, 1)] ∧
  ∀ (x : Context), ctxWf x = true → x.fin = false →
    let left := x.bufLen.toNat
    let n := if left ≤ 55 then 64 else 128
    let bits := 8 * x.count.toNat % 2 ^ 64
    let y := ctxFinish x
    (∀ i, i < 128 → y.buf.getD i 0 =
      if i < left then x.buf.getD i 0
      else if i = left then 0x80
      else if i < n - 8 then 0
      else if i < n then BitVec.ofNat 8 (bits / 2 ^ (8 * (n - 1 - i)))
      else x.buf.getD i 0) ∧
    y.h = (if left ≤ 55 then compressH x.h (y.buf.take 64)
      else compressH (compressH x.h (y.buf.take 64)) (y.buf.drop 64))

/-- SAVE completes on an Active context: every field of the slot, and nothing else (R135, R141). -/
def Obligations.SaveCopiesContextToSlot : Prop :=
  ∀ (s : State) (c k : Idx) (x : Context) (p : Snapshot), s.ctx[c.toNat]? = some x → s.snap[k.toNat]? = some p →
    x.fin = false →
    ∃ t q, exec (.save c k) s = .next t ∧ completed s t ∧ t.snap[k.toNat]? = some q ∧
      q.valid = true ∧ q.h = x.h ∧ q.bufLen = x.bufLen ∧ q.count = x.count ∧
      (x.bufLen.toNat > 0 → q.bufValid = true ∧ q.buf = x.buf) ∧
      (x.bufLen.toNat = 0 → q.bufValid = false ∧ q.buf = List.replicate 128 0) ∧
      t.ctx = s.ctx ∧ keepsOtherSnap k s t ∧ t.hm = s.hm ∧ t.result = s.result ∧ keepsHostSide s t ∧ keepsMemory s t

/-- RESTORE completes from a slot that holds a saved state, whatever state the context is in (R136, R142). -/
def Obligations.RestoreLoadsContextFromSlot : Prop :=
  ∀ (s : State) (c k : Idx) (x : Context) (p : Snapshot), s.ctx[c.toNat]? = some x → s.snap[k.toNat]? = some p →
    p.valid = true →
    ∃ t y, exec (.restore c k) s = .next t ∧ completed s t ∧ t.ctx[c.toNat]? = some y ∧
      y.h = p.h ∧ y.bufLen = p.bufLen ∧ y.count = p.count ∧ y.fin = false ∧ y.w = x.w ∧
      (p.bufValid = true → y.buf = p.buf) ∧ (p.bufValid = false → y.buf = x.buf) ∧
      t.snap = s.snap ∧ keepsOtherCtx c s t ∧ t.hm = s.hm ∧ t.result = s.result ∧ keepsHostSide s t ∧ keepsMemory s t

/-- SCLR completes on every slot: every field 0, so a later RESTORE from it raises `SNAPEMPTY` (R143). -/
def Obligations.SclrWipesSlot : Prop :=
  ∀ (s : State) (k : Idx) (p : Snapshot), s.snap[k.toNat]? = some p →
    let empty : Snapshot := { valid := false, h := ⟨0, 0, 0, 0, 0⟩, bufValid := false, buf := List.replicate 128 0, bufLen := 0, count := 0 }
    ∃ t, exec (.sclr k) s = .next t ∧ completed s t ∧ t.snap[k.toNat]? = some empty ∧
      (∀ c : Idx, c.toNat < s.params.nctx →
        exec (.restore c k) t = .next { t with code := .snapempty, sticky := true }) ∧
      t.ctx = s.ctx ∧ keepsOtherSnap k s t ∧ t.hm = s.hm ∧ t.result = s.result ∧ keepsHostSide s t ∧ keepsMemory s t

/-- The hasher's state machine: a context starts Active, and what each command on context `c` makes of an Active and of a
Finished context (R130). -/
def Obligations.HasherStateMachine : Prop :=
  (∀ (p : Params) (m : Memory), ∀ x ∈ (State.resetWith p m).ctx, x.fin = false) ∧
  ∀ (s t : State) (c : Idx) (x : Context), s.inv = true → s.ctx[c.toNat]? = some x →
    let finAfter := (t.ctx[c.toNat]?).map (·.fin)
    (exec (.reset c) s = .next t → finAfter = some false) ∧
    (exec (.clean c) s = .next t → finAfter = some false) ∧
    (exec (.update c) s = .next t → finAfter = some x.fin ∧ (x.fin = true → t.code = .misuse)) ∧
    (exec (.finish c) s = .next t → t.code = .ok → finAfter = some true ∧
      (x.fin = true → t.ctx = s.ctx ∧ memRead t.dmem s.addr.toNat 20 = hBytes x.h)) ∧
    (∀ k : Idx, k.toNat < s.params.nsnap → exec (.save c k) s = .next t →
      t.ctx = s.ctx ∧ (x.fin = true → t.code = .misuse) ∧
      (x.fin = false → t.code = .ok ∧ (t.snap[k.toNat]?).map (·.valid) = some true)) ∧
    (∀ k : Idx, exec (.restore c k) s = .next t → t.code = .ok → finAfter = some false) ∧
    (exec (.pblk c) s = .next t → finAfter = some x.fin ∧ (x.fin = true → t.code = .misuse)) ∧
    (exec (.sread c) s = .next t → finAfter = some x.fin)

/-- A context saved and restored, into any context, hashes whatever follows to the same digest (R135, R136, R142). -/
def Obligations.SaveThenRestoreClonesTheHash : Prop :=
  ∀ (s : State) (c d k : Idx) (x : Context), s.inv = true → s.ctx[c.toNat]? = some x → x.fin = false →
    d.toNat < s.params.nctx → k.toNat < s.params.nsnap →
    ∃ t u y, exec (.save c k) s = .next t ∧ exec (.restore d k) t = .next u ∧ u.code = .ok ∧
      u.ctx[d.toNat]? = some y ∧ ctxAlike y x ∧
      ∀ chunks, ctxDigest (ctxFinish (absorb y chunks)) = ctxDigest (ctxFinish (absorb x chunks))

/-- The streaming invariant (R145): what a context holds after a reset and any updates depends on the message only, not on
how it was split. -/
def Obligations.StreamingDoesNotDependOnChunks : Prop :=
  ∀ (x : Context) (chunks : List (List Byte)), ctxWf x = true →
    let m := chunks.flatten
    let y := absorb (ctxReset x) chunks
    y.h = hashBlocks ⟨0x67452301, 0xEFCDAB89, 0x98BADCFE, 0x10325476, 0xC3D2E1F0⟩
        ((List.range (m.length / 64)).map fun q => (m.drop (64 * q)).take 64) ∧
      y.bufLen.toNat = m.length % 64 ∧ y.buf.take (m.length % 64) = m.drop (64 * (m.length / 64)) ∧
      y.count = BitVec.ofNat 64 m.length ∧ y.fin = false ∧
      ∀ (x' : Context) (chunks' : List (List Byte)), ctxWf x' = true → chunks'.flatten = m →
        ctxDigest (ctxFinish (absorb (ctxReset x') chunks')) = ctxDigest (ctxFinish y)

/-- Idempotence (R146): once FINISH or HFIN has completed, a repeat (or SREAD after FINISH) with nothing in between that
writes the context or channel writes the same 20 bytes and changes nothing in it. -/
def Obligations.RepeatedFinishWritesTheSameDigest : Prop :=
  ∀ (s t u : State), s.dmem.wf = true → u.dmem.wf = true → t.code = .ok → 20 ≤ u.len.toNat →
    u.addr.toNat + 20 ≤ u.dmemSize →
    let same (v : State) := memRead v.dmem u.addr.toNat 20 = memRead t.dmem s.addr.toNat 20
    (∀ c : Idx, exec (.finish c) s = .next t → u.ctx[c.toNat]? = t.ctx[c.toNat]? →
      (∃ v, exec (.finish c) u = .next v ∧ v.code = .ok ∧ same v ∧ v.ctx = u.ctx) ∧
      (∃ v, exec (.sread c) u = .next v ∧ v.code = .ok ∧ same v ∧ v.ctx = u.ctx)) ∧
    (∀ h : Idx, exec (.hfin h) s = .next t → u.hm[h.toNat]? = t.hm[h.toNat]? →
      ∃ v, exec (.hfin h) u = .next v ∧ v.code = .ok ∧ same v ∧ v.hm = u.hm)

/-! ## HMAC (spec/42_hmac.md) -/

/-- HKEY completes on every channel with the key in bounds: both contexts have absorbed their pad of the block key and are
saved as the keyed states (R171, R173). -/
def Obligations.HkeyKeysChannel : Prop :=
  ∀ (s : State) (h : Idx) (ch : Channel), s.hm[h.toNat]? = some ch → s.addr.toNat + s.len.toNat ≤ s.dmemSize →
    let k0 := blockKey (memRead s.dmem s.addr.toNat s.len.toNat)
    let saved (hs : HState) : Snapshot :=
      { valid := true, h := hs, bufValid := false, buf := List.replicate 128 0, bufLen := 0, count := 64 }
    ∃ t u, exec (.hkey h) s = .next t ∧ completed s t ∧ t.hm[h.toNat]? = some u ∧
      u.keyed = true ∧ u.done = false ∧
      u.inn.h = compressH HState.iv (k0.map (· ^^^ 0x36)) ∧ u.out.h = compressH HState.iv (k0.map (· ^^^ 0x5C)) ∧
      u.inn.bufLen = 0 ∧ u.inn.count = 64 ∧ u.inn.fin = false ∧
      u.out.bufLen = 0 ∧ u.out.count = 64 ∧ u.out.fin = false ∧
      u.ikey = saved u.inn.h ∧ u.okey = saved u.out.h ∧
      keepsHostSide s t ∧ keepsOtherChan h s t ∧ t.ctx = s.ctx ∧ t.snap = s.snap ∧ t.result = s.result ∧ keepsMemory s t

/-- HUPD completes on an open channel with its bytes in bounds: the inner context absorbs them as UPDATE does (R174). -/
def Obligations.HupdAbsorbsMessage : Prop :=
  ∀ (s : State) (h : Idx) (ch : Channel), s.hm[h.toNat]? = some ch → chanWf ch = true → ch.keyed = true →
    ch.inn.fin = false → s.addr.toNat + s.len.toNat ≤ s.dmemSize →
    let data := buffered ch.inn ++ memRead s.dmem s.addr.toNat s.len.toNat
    ∃ t y, exec (.hupd h) s = .next t ∧ completed s t ∧ t.hm[h.toNat]? = some { ch with inn := y } ∧
      y.h = hashBlocks ch.inn.h (wholeBlocks data) ∧ y.bufLen.toNat = data.length % 64 ∧
      buffered y = data.drop (64 * (data.length / 64)) ∧
      y.count.toNat = (ch.inn.count.toNat + s.len.toNat) % 2 ^ 64 ∧ y.fin = false ∧
      keepsHostSide s t ∧ keepsOtherChan h s t ∧ t.ctx = s.ctx ∧ t.snap = s.snap ∧ t.result = s.result ∧ keepsMemory s t

/-- HFIN completes on a keyed channel with room and in bounds: the first time both contexts are finished, the outer one over
the inner digest; a finished channel is left alone; the 20 bytes of `OUT.H` are written at `ADDR` (R175). -/
def Obligations.HfinWritesMac : Prop :=
  ∀ (s : State) (h : Idx) (ch : Channel), s.dmem.wf = true → s.hm[h.toNat]? = some ch → chanWf ch = true →
    ch.keyed = true → 20 ≤ s.len.toNat → s.addr.toNat + 20 ≤ s.dmemSize →
    ∃ t u, exec (.hfin h) s = .next t ∧ completed s t ∧ t.hm[h.toNat]? = some u ∧
      (ch.done = true → u = ch) ∧
      (ch.done = false →
        u.inn.h = hashBlocks ch.inn.h (wholeBlocks (buffered ch.inn ++ padding ch.inn.bufLen.toNat ch.inn.count)) ∧
        u.inn.count = ch.inn.count ∧ u.inn.bufLen = ch.inn.bufLen ∧ u.inn.fin = true ∧
        u.out.h = hashBlocks ch.out.h (wholeBlocks (hBytes u.inn.h ++ padding 20 84)) ∧
        u.out.count = 84 ∧ u.out.bufLen = 20 ∧ u.out.fin = true ∧
        u.done = true ∧ u.keyed = true ∧ u.ikey = ch.ikey ∧ u.okey = ch.okey) ∧
      memRead t.dmem s.addr.toNat 20 = hBytes u.out.h ∧ keepsMemoryButOutput s t ∧
      keepsHostSide s t ∧ keepsOtherChan h s t ∧ t.ctx = s.ctx ∧ t.snap = s.snap ∧ t.result = s.result

/-- HRST completes on every keyed channel: both contexts are as just keyed, the key is not read again (R176). -/
def Obligations.HrstReturnsToKeyedState : Prop :=
  ∀ (s : State) (h : Idx) (ch : Channel), s.hm[h.toNat]? = some ch → chanWf ch = true → ch.keyed = true →
    ∃ t, exec (.hrst h) s = .next t ∧ completed s t ∧
      t.hm[h.toNat]? = some { ch with
        inn := { ch.inn with h := ch.ikey.h, bufLen := 0, count := 64, fin := false },
        out := { ch.out with h := ch.okey.h, bufLen := 0, count := 64, fin := false }, done := false } ∧
      keepsHostSide s t ∧ keepsOtherChan h s t ∧ t.ctx = s.ctx ∧ t.snap = s.snap ∧ t.result = s.result ∧ keepsMemory s t

/-- HCLN completes on every channel and leaves it as power-on does (R177). -/
def Obligations.HclnWipesChannel : Prop :=
  ∀ (s : State) (h : Idx) (ch : Channel), s.hm[h.toNat]? = some ch →
    let fresh : Context := { h := ⟨0x67452301, 0xEFCDAB89, 0x98BADCFE, 0x10325476, 0xC3D2E1F0⟩, buf := List.replicate 128 0, bufLen := 0, count := 0, fin := false, w := List.replicate 80 0 }
    let empty : Snapshot := { valid := false, h := ⟨0, 0, 0, 0, 0⟩, bufValid := false, buf := List.replicate 128 0, bufLen := 0, count := 0 }
    ∃ t, exec (.hcln h) s = .next t ∧ completed s t ∧
      t.hm[h.toNat]? = some { inn := fresh, out := fresh, ikey := empty, okey := empty, keyed := false, done := false } ∧
      keepsHostSide s t ∧ keepsOtherChan h s t ∧ t.ctx = s.ctx ∧ t.snap = s.snap ∧ t.result = s.result ∧ keepsMemory s t

/-- The channel's state machine (R172): what each HMAC command makes of an unkeyed, an open and a finished channel, and
which error it raises; a command that raises leaves the channel alone. -/
def Obligations.ChannelStateMachine : Prop :=
  ∀ (s t : State) (h : Idx) (ch : Channel), s.inv = true → s.hm[h.toNat]? = some ch →
    let before := chanState ch
    let after := (t.hm[h.toNat]?).map chanState
    (before = .unkeyed → ch.keyed = false ∧ ch.done = false) ∧
    (exec (.hkey h) s = .next t → t.code = .ok → after = some .opened) ∧
    (exec (.hupd h) s = .next t → (before = .unkeyed → t.code = .nokey) ∧ (before = .finished → t.code = .misuse) ∧
      (t.code = .ok → before = .opened ∧ after = some .opened)) ∧
    (exec (.hfin h) s = .next t → (before = .unkeyed → t.code = .nokey) ∧
      (t.code = .ok → before ≠ .unkeyed ∧ after = some .finished) ∧
      (t.code = .ok → before = .finished → t.hm = s.hm ∧ memRead t.dmem s.addr.toNat 20 = hBytes ch.out.h)) ∧
    (exec (.hrst h) s = .next t → (before = .unkeyed → t.code = .nokey) ∧
      (before ≠ .unkeyed → t.code = .ok ∧ after = some .opened ∧
        (t.hm[h.toNat]?).map (·.inn.count) = some 64 ∧ (t.hm[h.toNat]?).map (·.inn.bufLen) = some 0)) ∧
    (exec (.hcln h) s = .next t → after = some .unkeyed) ∧
    (∀ i : Instr, i.chanIdx = some h → exec i s = .next t → t.code ≠ .ok → t.hm = s.hm)

/-- A key longer than 64 bytes acts as its own hash (R179): in the function of R171 and in a channel. -/
def Obligations.LongKeyActsAsItsHash : Prop :=
  ∀ (key m : List Byte) (ch ch' : Channel), 64 < key.length →
    hmacOf key m = hmacOf (sha1Of key) m ∧ keyChannel ch key = keyChannel ch' (sha1Of key)

/-! ## Whole messages -/

/-- FINISH after a reset or clean and any updates that completed writes the SHA-1 of the message absorbed, whatever else
happened in between and whatever the context held before (R140, R145, R147, R149, R171). -/
def Obligations.FinishWritesSha1OfTheMessage : Prop :=
  ∀ (c : Idx) (m : List Byte) (s t : State), HashSession c m s → s.dmem.wf = true →
    exec (.finish c) s = .next t → t.code = .ok → memRead t.dmem s.addr.toNat 20 = sha1Of m

/-- HFIN after HKEY or HRST and any HUPDs that completed writes the HMAC of the message under the last key (R178). -/
def Obligations.HfinWritesHmacOfTheMessage : Prop :=
  ∀ (h : Idx) (key m : List Byte) (s t : State), HmacSession h key (some m) s → s.dmem.wf = true →
    exec (.hfin h) s = .next t → t.code = .ok → memRead t.dmem s.addr.toNat 20 = hmacOf key m

/-- The seven host accesses of the pseudo-instruction `SHA1 c, src, n, dst` write the SHA-1 of the `n` bytes at `src` to
`dst`, from any state the machine can be in (R95, R171). -/
def Obligations.Sha1StatementHashesMemory : Prop :=
  ∀ (s : State) (c : Idx) (src n dst : Word) (rest : List Input), s.inv = true → c.toNat < s.params.nctx →
    src.toNat + n.toNat ≤ s.dmemSize → dst.toNat + 20 ≤ s.dmemSize →
    s.inputs = expand (.sha1 c src n dst) ++ rest →
    ∃ t : State, Host.Core.run Sys2Proof.core 7 s = .next t ∧ t.inputs = rest ∧ completed s t ∧
      memRead t.dmem dst.toNat 20 = sha1Of (memRead s.dmem src.toNat n.toNat) ∧
      (∀ a, a < dst.toNat ∨ dst.toNat + 20 ≤ a → readByte t.dmem a = readByte s.dmem a) ∧
      keepsOtherCtx c s t ∧ t.snap = s.snap ∧ t.hm = s.hm

/-- The nine host accesses of the pseudo-instruction `HMAC h, key, klen, msg, mlen, dst` write the HMAC of the message
bytes under the key bytes to `dst`, from any state the machine can be in (R95, R171). -/
def Obligations.HmacStatementAuthenticatesMemory : Prop :=
  ∀ (s : State) (h : Idx) (key klen msg mlen dst : Word) (rest : List Input), s.inv = true → h.toNat < s.params.nhmac →
    key.toNat + klen.toNat ≤ s.dmemSize → msg.toNat + mlen.toNat ≤ s.dmemSize → dst.toNat + 20 ≤ s.dmemSize →
    s.inputs = expand (.hmac h key klen msg mlen dst) ++ rest →
    ∃ t : State, Host.Core.run Sys2Proof.core 9 s = .next t ∧ t.inputs = rest ∧ completed s t ∧
      memRead t.dmem dst.toNat 20 =
        hmacOf (memRead s.dmem key.toNat klen.toNat) (memRead s.dmem msg.toNat mlen.toNat) ∧
      (∀ a, a < dst.toNat ∨ dst.toNat + 20 ≤ a → readByte t.dmem a = readByte s.dmem a) ∧
      keepsOtherChan h s t ∧ t.ctx = s.ctx ∧ t.snap = s.snap

/-- What the assembler makes of the command forms and the pseudo-instructions (R91, R92, R95). -/
def Obligations.AssemblerExpandsStatements : Prop :=
  ∀ (i : Instr) (a n : Word) (c h : Idx) (src key klen msg mlen dst : Word),
    expand (.short i) = [.regWrite .word 0x00 (encode i)] ∧
    expand (.long i a n) = [.regWrite .word 0x04 a, .regWrite .word 0x08 n, .regWrite .word 0x00 (encode i)] ∧
    expand (.digest c a) = expand (.long (.finish c) a 20) ∧
    expand (.sha1 c src n dst) =
      expand (.short (.reset c)) ++ expand (.long (.update c) src n) ++ expand (.long (.finish c) dst 20) ∧
    expand (.hmac h key klen msg mlen dst) =
      expand (.long (.hkey h) key klen) ++ expand (.long (.hupd h) msg mlen) ++ expand (.long (.hfin h) dst 20) ∧
    expand .clrSticky = expand (.wr .status 0x00000100)

/-! ## The invariant, and what stays hidden -/

/-- The machine starts in the invariant, with any parameters in range and any canonical initial memory (R7, R43); the state
called reset has the default parameters and lists no byte of memory (the model's choice, log 2). -/
def Obligations.ResetMeetsTheInvariant : Prop :=
  State.reset.inv = true ∧ State.reset = State.resetWith { nctx := 4, nsnap := 4, nhmac := 2, dmemSize := 65536 } [] ∧
  ∀ (p : Params) (m : Memory), p.inRange = true → m.wf = true → m.below p.dmemSize = true →
    (State.resetWith p m).inv = true

/-- Every step keeps the invariant: the arrays keep their sizes, `BUFLEN = COUNT mod 64` in every context (R37), snapshots
and channels stay as R38 and R39 describe them, the parameters stay in range and memory keeps its canonical form. -/
def Obligations.EveryStepKeepsTheInvariant : Prop :=
  ∀ (s t : State), s.inv = true → step s = .next t → t.inv = true

/-- Hidden state stays hidden: two machines that differ only in `W` and in `BUF` beyond `BUFLEN` do the same for ever after,
so no host access tells them apart (R32, R36, R40, R44). -/
def Obligations.HiddenStateIsNeverObserved : Prop :=
  ∀ (s s' : State), s.inv = true → s'.inv = true → alike s s' →
    (∀ t, step s = .next t → ∃ t', step s' = .next t' ∧ alike t t') ∧
    (∀ r, step s = .refused r → step s' = .refused r) ∧ (∀ f, step s = .fault f → step s' = .fault f)
end

