-- ==== Sys2Proof/Laws/State.lean ====
section
/-! SUPPORT. One lemma per field per named update of the state. -/

namespace Sys2Proof.Machine

/-! ## `raise` -/

@[simp] theorem raise_cmd (e : Code) (s : State) : (raise e s).cmd = s.cmd := rfl
@[simp] theorem raise_addr (e : Code) (s : State) : (raise e s).addr = s.addr := rfl
@[simp] theorem raise_len (e : Code) (s : State) : (raise e s).len = s.len := rfl
@[simp] theorem raise_code (e : Code) (s : State) : (raise e s).code = e := rfl
@[simp] theorem raise_sticky (e : Code) (s : State) : (raise e s).sticky = true := rfl
@[simp] theorem raise_result (e : Code) (s : State) : (raise e s).result = s.result := rfl
@[simp] theorem raise_ctx (e : Code) (s : State) : (raise e s).ctx = s.ctx := rfl
@[simp] theorem raise_snap (e : Code) (s : State) : (raise e s).snap = s.snap := rfl
@[simp] theorem raise_hm (e : Code) (s : State) : (raise e s).hm = s.hm := rfl
@[simp] theorem raise_dmemSize (e : Code) (s : State) : (raise e s).dmemSize = s.dmemSize := rfl
@[simp] theorem raise_dmem (e : Code) (s : State) : (raise e s).dmem = s.dmem := rfl
@[simp] theorem raise_inputs (e : Code) (s : State) : (raise e s).inputs = s.inputs := rfl
@[simp] theorem raise_seen (e : Code) (s : State) : (raise e s).seen = s.seen := rfl

/-! ## `complete` -/

@[simp] theorem complete_cmd (s : State) : (complete s).cmd = s.cmd := rfl
@[simp] theorem complete_addr (s : State) : (complete s).addr = s.addr := rfl
@[simp] theorem complete_len (s : State) : (complete s).len = s.len := rfl
@[simp] theorem complete_code (s : State) : (complete s).code = .ok := rfl
@[simp] theorem complete_sticky (s : State) : (complete s).sticky = s.sticky := rfl
@[simp] theorem complete_result (s : State) : (complete s).result = s.result := rfl
@[simp] theorem complete_ctx (s : State) : (complete s).ctx = s.ctx := rfl
@[simp] theorem complete_snap (s : State) : (complete s).snap = s.snap := rfl
@[simp] theorem complete_hm (s : State) : (complete s).hm = s.hm := rfl
@[simp] theorem complete_dmemSize (s : State) : (complete s).dmemSize = s.dmemSize := rfl
@[simp] theorem complete_dmem (s : State) : (complete s).dmem = s.dmem := rfl
@[simp] theorem complete_inputs (s : State) : (complete s).inputs = s.inputs := rfl
@[simp] theorem complete_seen (s : State) : (complete s).seen = s.seen := rfl

/-! ## `setCtx` -/

@[simp] theorem setCtx_cmd (s : State) (c : Idx) (x : Context) : (setCtx s c x).cmd = s.cmd := rfl
@[simp] theorem setCtx_addr (s : State) (c : Idx) (x : Context) : (setCtx s c x).addr = s.addr := rfl
@[simp] theorem setCtx_len (s : State) (c : Idx) (x : Context) : (setCtx s c x).len = s.len := rfl
@[simp] theorem setCtx_code (s : State) (c : Idx) (x : Context) : (setCtx s c x).code = s.code := rfl
@[simp] theorem setCtx_sticky (s : State) (c : Idx) (x : Context) : (setCtx s c x).sticky = s.sticky := rfl
@[simp] theorem setCtx_result (s : State) (c : Idx) (x : Context) : (setCtx s c x).result = s.result := rfl
@[simp] theorem setCtx_ctx (s : State) (c : Idx) (x : Context) : (setCtx s c x).ctx = s.ctx.set c.toNat x := rfl
@[simp] theorem setCtx_snap (s : State) (c : Idx) (x : Context) : (setCtx s c x).snap = s.snap := rfl
@[simp] theorem setCtx_hm (s : State) (c : Idx) (x : Context) : (setCtx s c x).hm = s.hm := rfl
@[simp] theorem setCtx_dmemSize (s : State) (c : Idx) (x : Context) : (setCtx s c x).dmemSize = s.dmemSize := rfl
@[simp] theorem setCtx_dmem (s : State) (c : Idx) (x : Context) : (setCtx s c x).dmem = s.dmem := rfl
@[simp] theorem setCtx_inputs (s : State) (c : Idx) (x : Context) : (setCtx s c x).inputs = s.inputs := rfl
@[simp] theorem setCtx_seen (s : State) (c : Idx) (x : Context) : (setCtx s c x).seen = s.seen := rfl

/-! ## `setSnap` -/

@[simp] theorem setSnap_cmd (s : State) (k : Idx) (p : Snapshot) : (setSnap s k p).cmd = s.cmd := rfl
@[simp] theorem setSnap_addr (s : State) (k : Idx) (p : Snapshot) : (setSnap s k p).addr = s.addr := rfl
@[simp] theorem setSnap_len (s : State) (k : Idx) (p : Snapshot) : (setSnap s k p).len = s.len := rfl
@[simp] theorem setSnap_code (s : State) (k : Idx) (p : Snapshot) : (setSnap s k p).code = s.code := rfl
@[simp] theorem setSnap_sticky (s : State) (k : Idx) (p : Snapshot) : (setSnap s k p).sticky = s.sticky := rfl
@[simp] theorem setSnap_result (s : State) (k : Idx) (p : Snapshot) : (setSnap s k p).result = s.result := rfl
@[simp] theorem setSnap_ctx (s : State) (k : Idx) (p : Snapshot) : (setSnap s k p).ctx = s.ctx := rfl
@[simp] theorem setSnap_snap (s : State) (k : Idx) (p : Snapshot) : (setSnap s k p).snap = s.snap.set k.toNat p := rfl
@[simp] theorem setSnap_hm (s : State) (k : Idx) (p : Snapshot) : (setSnap s k p).hm = s.hm := rfl
@[simp] theorem setSnap_dmemSize (s : State) (k : Idx) (p : Snapshot) : (setSnap s k p).dmemSize = s.dmemSize := rfl
@[simp] theorem setSnap_dmem (s : State) (k : Idx) (p : Snapshot) : (setSnap s k p).dmem = s.dmem := rfl
@[simp] theorem setSnap_inputs (s : State) (k : Idx) (p : Snapshot) : (setSnap s k p).inputs = s.inputs := rfl
@[simp] theorem setSnap_seen (s : State) (k : Idx) (p : Snapshot) : (setSnap s k p).seen = s.seen := rfl

/-! ## `setChan` -/

@[simp] theorem setChan_cmd (s : State) (h : Idx) (ch : Channel) : (setChan s h ch).cmd = s.cmd := rfl
@[simp] theorem setChan_addr (s : State) (h : Idx) (ch : Channel) : (setChan s h ch).addr = s.addr := rfl
@[simp] theorem setChan_len (s : State) (h : Idx) (ch : Channel) : (setChan s h ch).len = s.len := rfl
@[simp] theorem setChan_code (s : State) (h : Idx) (ch : Channel) : (setChan s h ch).code = s.code := rfl
@[simp] theorem setChan_sticky (s : State) (h : Idx) (ch : Channel) : (setChan s h ch).sticky = s.sticky := rfl
@[simp] theorem setChan_result (s : State) (h : Idx) (ch : Channel) : (setChan s h ch).result = s.result := rfl
@[simp] theorem setChan_ctx (s : State) (h : Idx) (ch : Channel) : (setChan s h ch).ctx = s.ctx := rfl
@[simp] theorem setChan_snap (s : State) (h : Idx) (ch : Channel) : (setChan s h ch).snap = s.snap := rfl
@[simp] theorem setChan_hm (s : State) (h : Idx) (ch : Channel) : (setChan s h ch).hm = s.hm.set h.toNat ch := rfl
@[simp] theorem setChan_dmemSize (s : State) (h : Idx) (ch : Channel) : (setChan s h ch).dmemSize = s.dmemSize := rfl
@[simp] theorem setChan_dmem (s : State) (h : Idx) (ch : Channel) : (setChan s h ch).dmem = s.dmem := rfl
@[simp] theorem setChan_inputs (s : State) (h : Idx) (ch : Channel) : (setChan s h ch).inputs = s.inputs := rfl
@[simp] theorem setChan_seen (s : State) (h : Idx) (ch : Channel) : (setChan s h ch).seen = s.seen := rfl

/-! ## `putOutput` -/

@[simp] theorem putOutput_cmd (s : State) (d : List Byte) : (putOutput s d).cmd = s.cmd := rfl
@[simp] theorem putOutput_addr (s : State) (d : List Byte) : (putOutput s d).addr = s.addr := rfl
@[simp] theorem putOutput_len (s : State) (d : List Byte) : (putOutput s d).len = s.len := rfl
@[simp] theorem putOutput_code (s : State) (d : List Byte) : (putOutput s d).code = s.code := rfl
@[simp] theorem putOutput_sticky (s : State) (d : List Byte) : (putOutput s d).sticky = s.sticky := rfl
@[simp] theorem putOutput_result (s : State) (d : List Byte) : (putOutput s d).result = s.result := rfl
@[simp] theorem putOutput_ctx (s : State) (d : List Byte) : (putOutput s d).ctx = s.ctx := rfl
@[simp] theorem putOutput_snap (s : State) (d : List Byte) : (putOutput s d).snap = s.snap := rfl
@[simp] theorem putOutput_hm (s : State) (d : List Byte) : (putOutput s d).hm = s.hm := rfl
@[simp] theorem putOutput_dmemSize (s : State) (d : List Byte) : (putOutput s d).dmemSize = s.dmemSize := rfl
@[simp] theorem putOutput_dmem (s : State) (d : List Byte) : (putOutput s d).dmem = memWrite s.dmem s.addr.toNat d := rfl
@[simp] theorem putOutput_inputs (s : State) (d : List Byte) : (putOutput s d).inputs = s.inputs := rfl
@[simp] theorem putOutput_seen (s : State) (d : List Byte) : (putOutput s d).seen = s.seen := rfl

/-! ## The parameters -/

@[simp] theorem params_nctx (s : State) : s.params.nctx = s.ctx.length := rfl
@[simp] theorem params_nsnap (s : State) : s.params.nsnap = s.snap.length := rfl
@[simp] theorem params_nhmac (s : State) : s.params.nhmac = s.hm.length := rfl
@[simp] theorem params_dmemSize (s : State) : s.params.dmemSize = s.dmemSize := rfl

/-- The parameters of a reset machine are the ones it was reset with. -/
@[simp] theorem params_resetWith (p : Params) (m : Memory) : (State.resetWith p m).params = p := by
  cases p; simp [State.resetWith, State.params]

/-- Two states of one shape have the same parameters. -/
theorem params_eq (s t : State) (hc : t.ctx.length = s.ctx.length) (hs : t.snap.length = s.snap.length)
    (hh : t.hm.length = s.hm.length) (hd : t.dmemSize = s.dmemSize) : t.params = s.params := by
  simp [State.params, hc, hs, hh, hd]

@[simp] theorem raise_params (e : Code) (s : State) : (raise e s).params = s.params := by
  simp [State.params]
@[simp] theorem complete_params (s : State) : (complete s).params = s.params := by
  simp [State.params]
@[simp] theorem setCtx_params (s : State) (c : Idx) (x : Context) : (setCtx s c x).params = s.params := by
  simp [State.params]
@[simp] theorem setSnap_params (s : State) (k : Idx) (p : Snapshot) : (setSnap s k p).params = s.params := by
  simp [State.params]
@[simp] theorem setChan_params (s : State) (h : Idx) (ch : Channel) : (setChan s h ch).params = s.params := by
  simp [State.params]
@[simp] theorem putOutput_params (s : State) (d : List Byte) : (putOutput s d).params = s.params := by
  simp [State.params]

end Sys2Proof.Machine
end

