-- ==== Sys2Proof/Laws/Memory.lean ====
section
/-! SUPPORT. Memory: read after write, what a write leaves alone, and the canonical form. -/

namespace Sys2Proof.Machine

/-- Sorted memory lists nothing below its lower bound. -/
theorem readByte_below {lo a : Nat} {m : Memory} (h : Memory.sortedFrom lo m = true) (ha : a < lo) :
    readByte m a = unlistedByte := by
  induction m generalizing lo with
  | nil => rfl
  | cons cell m ih =>
    obtain ⟨k, b⟩ := cell
    simp only [Memory.sortedFrom, Bool.and_eq_true, decide_eq_true_eq] at h
    rw [readByte, if_neg (by omega), ih h.2 (by omega)]

/-- A weaker lower bound. -/
theorem sortedFrom_mono {lo lo' : Nat} {m : Memory} (h : Memory.sortedFrom lo m = true) (hl : lo' ≤ lo) :
    Memory.sortedFrom lo' m = true := by
  cases m with
  | nil => rfl
  | cons cell m =>
    obtain ⟨k, b⟩ := cell
    simp only [Memory.sortedFrom, Bool.and_eq_true, decide_eq_true_eq] at h ⊢
    exact ⟨⟨by omega, h.1.2⟩, h.2⟩

/-- A read of the byte just written, in sorted memory. -/
theorem readByte_writeByte_same {lo : Nat} {m : Memory} (h : Memory.sortedFrom lo m = true) (a : Nat) (b : Byte) :
    readByte (writeByte m a b) a = b := by
  induction m generalizing lo with
  | nil => by_cases hb : b = unlistedByte <;> simp [writeByte, readByte, hb]
  | cons cell m ih =>
    obtain ⟨k, c⟩ := cell
    have h' := h
    simp only [Memory.sortedFrom, Bool.and_eq_true, decide_eq_true_eq] at h'
    simp only [writeByte]
    split
    · split
      · rename_i hb
        rw [readByte, if_neg (by omega), readByte_below h'.2 (by omega), hb]
      · simp [readByte]
    · split
      · rename_i hak
        split
        · rename_i hb
          rw [readByte_below h'.2 (by omega), hb]
        · simp [readByte]
      · rename_i hne
        rw [readByte, if_neg hne, ih h'.2]

/-- A read of any other byte. -/
theorem readByte_writeByte_other {m : Memory} {a a' : Nat} (b : Byte) (hne : a' ≠ a) :
    readByte (writeByte m a b) a' = readByte m a' := by
  induction m with
  | nil => by_cases hb : b = unlistedByte <;> simp [writeByte, readByte, hb, hne]
  | cons cell m ih =>
    obtain ⟨k, c⟩ := cell
    simp only [writeByte]
    split
    · split
      · rfl
      · simp [readByte, hne]
    · split
      · rename_i hak
        subst hak
        split <;> simp [readByte, hne]
      · rename_i hk
        simp [readByte, ih]

/-- A write keeps memory sorted. -/
theorem sortedFrom_writeByte {lo a : Nat} {m : Memory} (b : Byte) (h : Memory.sortedFrom lo m = true) (ha : lo ≤ a) :
    Memory.sortedFrom lo (writeByte m a b) = true := by
  induction m generalizing lo with
  | nil => by_cases hb : b = unlistedByte <;> simp [writeByte, Memory.sortedFrom, hb, ha]
  | cons cell m ih =>
    obtain ⟨k, c⟩ := cell
    have h' := h
    simp only [Memory.sortedFrom, Bool.and_eq_true, decide_eq_true_eq] at h'
    simp only [writeByte]
    split
    · split
      · exact h
      · simp only [Memory.sortedFrom, Bool.and_eq_true, decide_eq_true_eq]
        refine ⟨⟨ha, ‹_›⟩, ⟨by omega, h'.1.2⟩, h'.2⟩
    · split
      · split
        · exact sortedFrom_mono h'.2 (by omega)
        · simp only [Memory.sortedFrom, Bool.and_eq_true, decide_eq_true_eq]
          exact ⟨⟨ha, ‹_›⟩, sortedFrom_mono h'.2 (by omega)⟩
      · simp only [Memory.sortedFrom, Bool.and_eq_true, decide_eq_true_eq]
        exact ⟨h'.1, ih h'.2 (by omega)⟩

/-- Every memory operation keeps the canonical form. -/
theorem wf_writeByte {m : Memory} (a : Nat) (b : Byte) (h : m.wf = true) : Memory.wf (writeByte m a b) = true :=
  sortedFrom_writeByte b h (Nat.zero_le a)

@[inherit_doc wf_writeByte]
theorem wf_memWrite {m : Memory} (a : Nat) (bs : List Byte) (h : m.wf = true) : Memory.wf (memWrite m a bs) = true := by
  induction bs generalizing m a with
  | nil => exact h
  | cons b bs ih => exact ih (a + 1) (wf_writeByte a b h)

/-- A write lists no address but its own beside those listed before. -/
theorem mem_writeByte {m : Memory} {a : Nat} {b : Byte} {cell : Host.Cell} (h : cell ∈ writeByte m a b) :
    cell ∈ m ∨ cell.1 = a := by
  induction m with
  | nil =>
    simp only [writeByte] at h
    split at h <;> simp_all
  | cons c m ih =>
    obtain ⟨k, c⟩ := c
    simp only [writeByte] at h
    split at h
    · split at h
      · exact .inl h
      · rcases List.mem_cons.mp h with rfl | h
        · exact .inr rfl
        · exact .inl h
    · split at h
      · split at h
        · exact .inl (List.mem_cons_of_mem _ h)
        · rcases List.mem_cons.mp h with rfl | h
          · exact .inr rfl
          · exact .inl (List.mem_cons_of_mem _ h)
      · rcases List.mem_cons.mp h with rfl | h
        · exact .inl List.mem_cons_self
        · exact (ih h).imp_left (List.mem_cons_of_mem _)

/-- A write below `n` lists nothing at or above `n`. -/
theorem below_writeByte {n a : Nat} {m : Memory} (b : Byte) (h : m.below n = true) (ha : a < n) :
    Memory.below n (writeByte m a b) = true := by
  simp only [Memory.below, List.all_eq_true, decide_eq_true_eq] at h ⊢
  intro cell hc
  rcases mem_writeByte hc with hc | rfl
  · exact h cell hc
  · exact ha

@[inherit_doc below_writeByte]
theorem below_memWrite {n a : Nat} {m : Memory} (bs : List Byte) (h : m.below n = true) (ha : a + bs.length ≤ n) :
    Memory.below n (memWrite m a bs) = true := by
  induction bs generalizing m a with
  | nil => exact h
  | cons b bs ih =>
    simp only [List.length_cons] at ha
    exact ih (below_writeByte b h (by omega)) (by omega)

/-- A write of a sequence leaves every byte outside it alone. -/
theorem readByte_memWrite_outside {m : Memory} {a a' : Nat} {bs : List Byte} (h : a' < a ∨ a + bs.length ≤ a') :
    readByte (memWrite m a bs) a' = readByte m a' := by
  induction bs generalizing m a with
  | nil => rfl
  | cons b bs ih =>
    simp only [List.length_cons] at h
    rw [memWrite, ih (by omega), readByte_writeByte_other b (by omega)]

/-- Byte `j` of a sequence just written. -/
theorem readByte_memWrite_inside {m : Memory} {a j : Nat} {bs : List Byte} (hm : m.wf = true) (hj : j < bs.length) :
    readByte (memWrite m a bs) (a + j) = bs[j] := by
  induction bs generalizing m a j with
  | nil => simp at hj
  | cons b bs ih =>
    rw [memWrite]
    cases j with
    | zero =>
      rw [readByte_memWrite_outside (by omega)]
      exact readByte_writeByte_same hm a b
    | succ j =>
      simp only [List.length_cons, Nat.add_lt_add_iff_right] at hj
      have := ih (a := a + 1) (wf_writeByte a b hm) hj
      rw [show a + (j + 1) = a + 1 + j by omega, this, List.getElem_cons_succ]

@[simp] theorem memRead_length (m : Memory) (a n : Nat) : (memRead m a n).length = n := by simp [memRead]

/-- `MemRead` after `MemWrite` of the same range gives the sequence written (spec/00_scope.md R13). -/
theorem memRead_memWrite {m : Memory} {a : Nat} {bs : List Byte} (hm : m.wf = true) :
    memRead (memWrite m a bs) a bs.length = bs := by
  refine List.ext_getElem (by simp) fun j h1 h2 => ?_
  simp only [memRead, List.getElem_map, List.getElem_range]
  exact readByte_memWrite_inside hm h2

/-- `MemRead` depends only on the bytes it reads. -/
theorem memRead_congr {m m' : Memory} {a n : Nat} (h : ∀ j, j < n → readByte m (a + j) = readByte m' (a + j)) :
    memRead m a n = memRead m' a n := by
  simp only [memRead]
  exact List.map_congr_left fun j hj => h j (List.mem_range.mp hj)

end Sys2Proof.Machine
end

