-- ==== Sys2Proof/Laws/Sha1.lean ====
section
/-! SUPPORT. The compression function: the schedule it writes, the rounds it runs, what it leaves alone, and the block loop. -/

namespace Sys2Proof.Machine

/-! ## The schedule -/

/-- The load loop after `n` words. -/
def loadTo (blk : List Byte) (w : List Word) (n : Nat) : List Word :=
  (List.range n).foldl (fun w j => w.set j (loadBE32 blk (4 * j))) w

theorem loadTo_succ (blk : List Byte) (w : List Word) (n : Nat) :
    loadTo blk w (n + 1) = (loadTo blk w n).set n (loadBE32 blk (4 * n)) := by
  simp [loadTo, List.range_succ]

@[simp] theorem loadTo_length (blk : List Byte) (w : List Word) (n : Nat) : (loadTo blk w n).length = w.length := by
  induction n with
  | zero => rfl
  | succ n ih => rw [loadTo_succ, List.length_set, ih]

theorem loadTo_getD {blk : List Byte} {w : List Word} {n j : Nat} (hn : n ≤ w.length) (hj : j < n) :
    (loadTo blk w n).getD j 0 = loadBE32 blk (4 * j) := by
  induction n with
  | zero => omega
  | succ n ih =>
    rw [loadTo_succ]
    by_cases h : j = n
    · subst h
      simp [List.getD_eq_getElem?_getD, show j < w.length by omega]
    · have := ih (by omega) (by omega)
      simpa [List.getD_eq_getElem?_getD, List.getElem?_set, Ne.symm h] using this

/-- The extend loop after `n` words. -/
def extendTo (w : List Word) (n : Nat) : List Word :=
  (List.range' 16 n).foldl (fun w i => w.set i (schedWord w i)) w

theorem extendTo_succ (w : List Word) (n : Nat) :
    extendTo w (n + 1) = (extendTo w n).set (16 + n) (schedWord (extendTo w n) (16 + n)) := by
  simp [extendTo, List.range'_concat]

@[simp] theorem extendTo_length (w : List Word) (n : Nat) : (extendTo w n).length = w.length := by
  induction n with
  | zero => rfl
  | succ n ih => rw [extendTo_succ, List.length_set, ih]

/-- Storing slot `k` does not change the word computed for a slot at or before it. -/
theorem schedWord_set {w : List Word} {i k : Nat} (v : Word) (h16 : 16 ≤ i) (hk : i ≤ k) :
    schedWord (w.set k v) i = schedWord w i := by
  have h : ∀ d, 0 < d → d ≤ 16 → (w.set k v).getD (i - d) 0 = w.getD (i - d) 0 := fun d h0 hd => by
    simp [List.getD_eq_getElem?_getD, show k ≠ i - d by omega]
  simp only [schedWord, h 3 (by omega) (by omega), h 8 (by omega) (by omega), h 14 (by omega) (by omega),
    h 16 (by omega) (by omega)]

theorem extendTo_getD_low {w : List Word} {n i : Nat} (hi : i < 16 ∨ 16 + n ≤ i) :
    (extendTo w n).getD i 0 = w.getD i 0 := by
  induction n with
  | zero => rfl
  | succ n ih =>
    rw [extendTo_succ]
    simpa [List.getD_eq_getElem?_getD, List.getElem?_set, show 16 + n ≠ i by omega] using ih (by omega)

theorem extendTo_getD {w : List Word} {n i : Nat} (hn : 16 + n ≤ w.length) (h16 : 16 ≤ i) (hi : i < 16 + n) :
    (extendTo w n).getD i 0 = schedWord (extendTo w n) i := by
  induction n with
  | zero => omega
  | succ n ih =>
    rw [extendTo_succ, schedWord_set _ h16 (by omega)]
    by_cases h : i = 16 + n
    · subst h
      simp [List.getD_eq_getElem?_getD, show 16 + n < w.length by omega]
    · have := ih (by omega) (by omega)
      simpa [List.getD_eq_getElem?_getD, List.getElem?_set, Ne.symm h] using this

/-- The schedule of a block, as `Compress` leaves it in an array that held `w`. -/
def schedule (blk : List Byte) (w : List Word) : List Word := extendSchedule (loadSchedule blk w)

theorem schedule_eq (blk : List Byte) (w : List Word) : schedule blk w = extendTo (loadTo blk w 16) 64 := by
  rw [schedule, extendSchedule, loadSchedule, extendTo, loadTo]

@[simp] theorem schedule_length (blk : List Byte) (w : List Word) : (schedule blk w).length = w.length := by
  rw [schedule_eq, extendTo_length, loadTo_length]

/-- Slots 0 to 15 are the block's big-endian words (spec/40_compression.md R101). -/
theorem schedule_load {blk : List Byte} {w : List Word} {j : Nat} (hw : w.length = 80) (hj : j < 16) :
    (schedule blk w).getD j 0 = loadBE32 blk (4 * j) := by
  rw [schedule_eq, extendTo_getD_low (.inl hj), loadTo_getD (by omega) hj]

/-- Slots 16 to 79 satisfy the recurrence (R102). -/
theorem schedule_extend {blk : List Byte} {w : List Word} {i : Nat} (hw : w.length = 80) (h16 : 16 ≤ i)
    (hi : i < 80) : (schedule blk w).getD i 0 = schedWord (schedule blk w) i := by
  rw [schedule_eq]
  exact extendTo_getD (by rw [loadTo_length, hw]) h16 hi

/-- The schedule depends on the block only: what the array held before does not matter (R36, R107). -/
theorem schedule_indep {blk : List Byte} {w w' : List Word} (hw : w.length = 80) (hw' : w'.length = 80) :
    schedule blk w = schedule blk w' := by
  have key : ∀ i, i < 80 → (schedule blk w).getD i 0 = (schedule blk w').getD i 0 := by
    intro i
    induction i using Nat.strong_induction_on with
    | _ i ih =>
      intro hi
      by_cases h : i < 16
      · rw [schedule_load hw h, schedule_load hw' h]
      · rw [schedule_extend hw (by omega) hi, schedule_extend hw' (by omega) hi]
        simp only [schedWord, ih (i - 3) (by omega) (by omega), ih (i - 8) (by omega) (by omega),
          ih (i - 14) (by omega) (by omega), ih (i - 16) (by omega) (by omega)]
  apply List.ext_getElem
  · rw [schedule_length, schedule_length, hw, hw']
  intro i h1 h2
  have hk := key i (by rw [schedule_length, hw] at h1; exact h1)
  rw [List.getD_eq_getElem _ _ h1, List.getD_eq_getElem _ _ h2] at hk
  exact hk

/-! ## The rounds -/

/-- The working variables after `n` rounds (R103, R105). -/
def workAfter (w : List Word) (h : HState) : Nat → Work
  | 0 => initWork h
  | n + 1 => round n (w.getD n 0) (workAfter w h n)

theorem roundsFrom_append (ws ws' : List Word) : ∀ (i : Nat) (v : Work),
    roundsFrom i (ws ++ ws') v = roundsFrom (i + ws.length) ws' (roundsFrom i ws v) := by
  induction ws with
  | nil => intro i v; simp [roundsFrom]
  | cons w ws ih => intro i v; simp [roundsFrom, ih, Nat.add_assoc, Nat.add_comm 1]

theorem rounds_take (w : List Word) (h : HState) {n : Nat} (hn : n ≤ w.length) :
    roundsFrom 0 (w.take n) (initWork h) = workAfter w h n := by
  induction n with
  | zero => simp [roundsFrom, workAfter]
  | succ n ih =>
    have hlt : n < w.length := by omega
    rw [List.take_succ_eq_append_getElem hlt, roundsFrom_append, ih (by omega), workAfter, List.length_take,
      Nat.min_eq_left (by omega)]
    simp [roundsFrom, List.getD_eq_getElem?_getD, hlt]

/-- The 80 rounds, as the sequence of their working variables (R105). -/
theorem rounds_eq {w : List Word} (hw : w.length = 80) (h : HState) :
    rounds w (initWork h) = workAfter w h 80 := by
  rw [rounds, ← rounds_take w h (by omega), List.take_of_length_le (by omega)]

/-! ## Compress -/

@[simp] theorem compress_buf (x : Context) (blk : List Byte) : (compress x blk).buf = x.buf := by
  unfold compress; split <;> rfl
@[simp] theorem compress_bufLen (x : Context) (blk : List Byte) : (compress x blk).bufLen = x.bufLen := by
  unfold compress; split <;> rfl
@[simp] theorem compress_count (x : Context) (blk : List Byte) : (compress x blk).count = x.count := by
  unfold compress; split <;> rfl
@[simp] theorem compress_fin (x : Context) (blk : List Byte) : (compress x blk).fin = x.fin := by
  unfold compress; split <;> rfl

/-- The schedule array after a block (R101, R102). -/
theorem compress_w (x : Context) {blk : List Byte} (hb : blk.length = 64) :
    (compress x blk).w = schedule blk x.w := by
  rw [compress, if_pos hb, schedule]

@[simp] theorem compress_w_length (x : Context) (blk : List Byte) : (compress x blk).w.length = x.w.length := by
  by_cases hb : blk.length = 64
  · rw [compress_w x hb, schedule_length]
  · rw [compress, if_neg hb]

/-- Steps 3 to 5: the working variables after 80 rounds, added to the state (R103 to R106). -/
theorem compress_h_rounds {x : Context} (hw : x.w.length = 80) {blk : List Byte} (hb : blk.length = 64) :
    (compress x blk).h = accumulate x.h (workAfter (schedule blk x.w) x.h 80) := by
  rw [← rounds_eq (by rw [schedule_length, hw]), compress, if_pos hb, schedule]

/-- `Compress` is a function of `H` and the block (R107). -/
theorem compress_h {x : Context} (hw : x.w.length = 80) (blk : List Byte) :
    (compress x blk).h = compressH x.h blk := by
  have h0 : ({ Context.initial with h := x.h } : Context).w.length = 80 := List.length_replicate ..
  by_cases hb : blk.length = 64
  · rw [compressH, compress_h_rounds hw hb, compress_h_rounds h0 hb, schedule_indep hw h0]
  · rw [compressH, compress, compress, if_neg hb, if_neg hb]

/-! ## The block loop -/

@[simp] theorem hashBlocks_nil (h : HState) : hashBlocks h [] = h := rfl
@[simp] theorem hashBlocks_cons (h : HState) (b : List Byte) (bs : List (List Byte)) :
    hashBlocks h (b :: bs) = hashBlocks (compressH h b) bs := by
  rw [hashBlocks, hashBlocks, List.foldl_cons]
theorem hashBlocks_append (h : HState) (bs bs' : List (List Byte)) :
    hashBlocks h (bs ++ bs') = hashBlocks (hashBlocks h bs) bs' := by
  simp [hashBlocks]

theorem blockAt_drop (m : List Byte) (j k : Nat) : blockAt (m.drop (64 * j)) k = blockAt m (j + k) := by
  simp [blockAt, List.drop_drop, Nat.mul_add]

/-- Blocks `0` to `k - 1` of a sequence. -/
def firstBlocks (m : List Byte) (k : Nat) : List (List Byte) := (List.range k).map (blockAt m)

theorem firstBlocks_succ (m : List Byte) (k : Nat) :
    firstBlocks m (k + 1) = blockAt m 0 :: firstBlocks (m.drop 64) k := by
  rw [firstBlocks, List.range_succ_eq_map, List.map_cons, List.map_map]
  refine congrArg (blockAt m 0 :: ·) (List.map_congr_left fun j _ => ?_)
  have := blockAt_drop m 1 j
  rw [Nat.mul_one] at this
  rw [this]
  exact congrArg (blockAt m) (Nat.add_comm j 1)

theorem wholeBlocks_eq (m : List Byte) : wholeBlocks m = firstBlocks m (m.length / 64) := rfl

/-- Everything the block loop does (R108). -/
theorem processLoop_spec (k : Nat) : ∀ (x : Context) (s : List Byte) (off : Nat), x.w.length = 80 →
    (processLoop k x s off).2 = off + 64 * k ∧
    (processLoop k x s off).1.h = hashBlocks x.h (firstBlocks (s.drop off) k) ∧
    (processLoop k x s off).1.w.length = 80 ∧
    (processLoop k x s off).1.buf = x.buf ∧ (processLoop k x s off).1.bufLen = x.bufLen ∧
    (processLoop k x s off).1.count = x.count ∧ (processLoop k x s off).1.fin = x.fin := by
  induction k with
  | zero => intro x s off hw; simp [processLoop, firstBlocks, hw]
  | succ k ih =>
    intro x s off hw
    have hw' : (compress x ((s.drop off).take 64)).w.length = 80 := by rw [compress_w_length, hw]
    have hb : blockAt (s.drop off) 0 = (s.drop off).take 64 := by simp [blockAt]
    have h := ih (compress x ((s.drop off).take 64)) s (off + 64) hw'
    rw [compress_h hw, compress_buf, compress_bufLen, compress_count, compress_fin] at h
    rw [processLoop, firstBlocks_succ, hashBlocks_cons, List.drop_drop, hb, Nat.mul_succ]
    rw [Nat.add_assoc, Nat.add_comm 64 (64 * k)] at h
    exact h

/-- Everything `ProcessBlocks` does (R108). -/
theorem processBlocks_spec {x : Context} (hw : x.w.length = 80) (s : List Byte) (off n : Nat) :
    (processBlocks x s off n).2 = off + 64 * (n / 64) ∧
    (processBlocks x s off n).1.h = hashBlocks x.h (firstBlocks (s.drop off) (n / 64)) ∧
    (processBlocks x s off n).1.w.length = 80 ∧
    (processBlocks x s off n).1.buf = x.buf ∧ (processBlocks x s off n).1.bufLen = x.bufLen ∧
    (processBlocks x s off n).1.count = x.count ∧ (processBlocks x s off n).1.fin = x.fin :=
  processLoop_spec (n / 64) x s off hw

/-- A length less than a block does nothing and returns the offset (R108). -/
theorem processBlocks_small (x : Context) (s : List Byte) (off : Nat) {n : Nat} (hn : n < 64) :
    processBlocks x s off n = (x, off) := by
  rw [processBlocks, Nat.div_eq_of_lt hn]
  rfl

/-! ## Whole blocks of a sequence -/

theorem wholeBlocks_small {m : List Byte} (h : m.length < 64) : wholeBlocks m = [] := by
  simp [wholeBlocks, Nat.div_eq_of_lt h]

theorem wholeBlocks_one {m : List Byte} (h : m.length = 64) : wholeBlocks m = [m] := by
  simp [wholeBlocks, blockAt, h, List.range_succ, List.take_of_length_le]

theorem blockAt_append_left {m m' : List Byte} {k : Nat} (h : 64 * (k + 1) ≤ m.length) :
    blockAt (m ++ m') k = blockAt m k := by
  have h1 : 64 * k ≤ m.length := by omega
  rw [blockAt, blockAt, List.drop_append_of_le_length h1, List.take_append_of_le_length]
  rw [List.length_drop]
  omega

/-- Whole blocks first, then the rest: blocks of the parts in order. -/
theorem wholeBlocks_append {m m' : List Byte} (h : m.length % 64 = 0) :
    wholeBlocks (m ++ m') = wholeBlocks m ++ wholeBlocks m' := by
  obtain ⟨q, hq⟩ : ∃ q, m.length = 64 * q := ⟨m.length / 64, by omega⟩
  have hlen : (m ++ m').length / 64 = q + m'.length / 64 := by
    rw [List.length_append, hq, Nat.mul_add_div (by decide)]
  have hq' : m.length / 64 = q := by rw [hq, Nat.mul_div_cancel_left _ (by decide)]
  rw [wholeBlocks, wholeBlocks, wholeBlocks, hlen, hq', List.range_add, List.map_append, List.map_map]
  congr 1
  · refine List.map_congr_left fun k hk => blockAt_append_left ?_
    rw [hq]
    exact Nat.mul_le_mul_left _ (List.mem_range.mp hk)
  · refine List.map_congr_left fun k _ => ?_
    rw [Function.comp_apply, ← blockAt_drop, ← hq, List.drop_left]

end Sys2Proof.Machine
end

