-- ==== Sys2Proof/Laws/Subroutines.lean ====
section
/-! SUPPORT. What each hasher subroutine does to a context (spec/41_hasher.md R131 to R137), once. -/

namespace Sys2Proof.Machine

/-! ## Storing bytes in a buffer -/

@[simp] theorem putBytes_length (s : List Byte) (i : Nat) (bs : List Byte) : (putBytes s i bs).length = s.length := by
  induction bs generalizing s i with
  | nil => rfl
  | cons b bs ih => rw [putBytes, ih, List.length_set]

/-- Two stores one after the other are one store. -/
theorem putBytes_append (s : List Byte) (i : Nat) (a b : List Byte) :
    putBytes (putBytes s i a) (i + a.length) b = putBytes s i (a ++ b) := by
  induction a generalizing s i with
  | nil => rfl
  | cons c a ih =>
    rw [putBytes, List.cons_append, putBytes, ← ih, List.length_cons, Nat.add_comm a.length 1, Nat.add_assoc]

/-- A store that fits, as three parts. -/
theorem putBytes_eq (s : List Byte) (i : Nat) (bs : List Byte) (h : i + bs.length ≤ s.length) :
    putBytes s i bs = s.take i ++ bs ++ s.drop (i + bs.length) := by
  induction bs generalizing s i with
  | nil => simp [putBytes]
  | cons b bs ih =>
    simp only [List.length_cons] at h
    rw [putBytes, ih _ _ (by rw [List.length_set]; omega), List.length_cons,
      List.set_eq_take_append_cons_drop, if_pos (by omega)]
    have h1 : (s.take i).length = i := by rw [List.length_take]; omega
    rw [List.take_append, List.drop_append, h1]
    rw [List.drop_eq_nil_of_le (as := s.take i) (by omega), show i + 1 + bs.length - i = bs.length + 1 by omega,
      List.drop_succ_cons, List.drop_drop, show i + 1 + bs.length = i + (bs.length + 1) by omega]
    simp [List.take_take]

/-! ## Buffering bytes -/

@[simp] theorem be32_length (w : Word) : (be32 w).length = 4 := rfl
@[simp] theorem hBytes_length (h : HState) : (hBytes h).length = 20 := rfl
@[simp] theorem ctxDigest_length (x : Context) : (ctxDigest x).length = 20 := rfl
@[simp] theorem lengthField_length (n : BitVec 64) : (lengthField n).length = 8 := rfl

@[simp] theorem pushByte_h (x : Context) (b : Byte) : (pushByte x b).h = x.h := rfl
@[simp] theorem pushByte_count (x : Context) (b : Byte) : (pushByte x b).count = x.count := rfl
@[simp] theorem pushByte_fin (x : Context) (b : Byte) : (pushByte x b).fin = x.fin := rfl
@[simp] theorem pushByte_w (x : Context) (b : Byte) : (pushByte x b).w = x.w := rfl
@[simp] theorem pushByte_buf_length (x : Context) (b : Byte) : (pushByte x b).buf.length = x.buf.length := by
  simp [pushByte]

theorem pushByte_bufLen {x : Context} (h : x.bufLen.toNat < 127) (b : Byte) :
    (pushByte x b).bufLen.toNat = x.bufLen.toNat + 1 := by
  rw [pushByte, BitVec.toNat_add, show (1 : BitVec 7).toNat = 1 from rfl]
  omega

theorem buffered_pushByte {x : Context} (hb : x.buf.length = 128) (h : x.bufLen.toNat < 127) (b : Byte) :
    buffered (pushByte x b) = buffered x ++ [b] := by
  rw [buffered, pushByte_bufLen h, buffered, pushByte]
  have hlt : x.bufLen.toNat < (x.buf.set x.bufLen.toNat b).length := by rw [List.length_set]; omega
  rw [List.take_succ_eq_append_getElem hlt, List.getElem_set_self, List.take_set_of_le (Nat.le_refl _)]

theorem buffered_length {x : Context} (hb : x.buf.length = 128) : (buffered x).length = x.bufLen.toNat := by
  rw [buffered, List.length_take]
  have := x.bufLen.isLt
  omega

/-- Buffering a row of bytes that fits. -/
theorem pushBytes_spec (bs : List Byte) : ∀ x : Context, x.buf.length = 128 → x.bufLen.toNat + bs.length < 128 →
    (bs.foldl pushByte x).bufLen.toNat = x.bufLen.toNat + bs.length ∧
    buffered (bs.foldl pushByte x) = buffered x ++ bs ∧ (bs.foldl pushByte x).buf.length = 128 ∧
    (bs.foldl pushByte x).h = x.h ∧ (bs.foldl pushByte x).w = x.w ∧ (bs.foldl pushByte x).count = x.count ∧
    (bs.foldl pushByte x).fin = x.fin := by
  induction bs with
  | nil => intro x hb _; simp [hb]
  | cons b bs ih =>
    intro x hb hl
    simp only [List.length_cons] at hl
    have h := ih (pushByte x b) (by rw [pushByte_buf_length, hb]) (by rw [pushByte_bufLen (by omega)]; omega)
    rw [pushByte_bufLen (by omega), buffered_pushByte hb (by omega), pushByte_h, pushByte_w, pushByte_count,
      pushByte_fin, List.append_assoc, List.singleton_append, Nat.add_assoc, Nat.add_comm 1] at h
    exact h

/-- The fill loop buffers as many bytes as fit in the block and leaves the rest (R132). -/
theorem fillLoop_eq (s : List Byte) : ∀ x : Context, x.bufLen.toNat ≤ 64 →
    fillLoop x s = ((s.take (64 - x.bufLen.toNat)).foldl pushByte x, s.drop (64 - x.bufLen.toNat)) := by
  induction s with
  | nil => intro x _; simp [fillLoop]
  | cons b s ih =>
    intro x hx
    rw [fillLoop]
    split
    · rename_i hlt
      rw [ih _ (by rw [pushByte_bufLen (by omega)]; omega), pushByte_bufLen (by omega)]
      obtain ⟨k, hk⟩ : ∃ k, 64 - x.bufLen.toNat = k + 1 := ⟨63 - x.bufLen.toNat, by omega⟩
      rw [hk, show 64 - (x.bufLen.toNat + 1) = k by omega, List.take_succ_cons, List.drop_succ_cons, List.foldl_cons]
    · rename_i hge
      rw [show 64 - x.bufLen.toNat = 0 by omega, List.take_zero, List.drop_zero, List.foldl_nil]

/-! ## The three steps of an update -/

/-- What a context and some unread input look like after a step of an update that began with `x` and `s`: either only
whole blocks have been taken and the buffer is empty, or everything has been taken and no block was completed. -/
def UpdateStep (x : Context) (s : List Byte) (y : Context) (rest : List Byte) : Prop :=
  y.buf.length = 128 ∧ y.w.length = 80 ∧ y.count = x.count ∧ y.fin = x.fin ∧
  ((y.bufLen.toNat = 0 ∧ ∃ pre, pre.length % 64 = 0 ∧ buffered x ++ s = pre ++ rest ∧
      y.h = hashBlocks x.h (wholeBlocks pre)) ∨
    (rest = [] ∧ y.bufLen.toNat = x.bufLen.toNat + s.length ∧ y.bufLen.toNat < 64 ∧ y.h = x.h ∧
      buffered y = buffered x ++ s))

theorem fillBuffer_spec {x : Context} (s : List Byte) (hb : x.buf.length = 128) (hw : x.w.length = 80)
    (hl : x.bufLen.toNat < 64) : UpdateStep x s (fillBuffer x s).1 (fillBuffer x s).2 := by
  unfold fillBuffer
  split
  · rw [fillLoop_eq s x (by omega)]
    dsimp only
    have hlen : (s.take (64 - x.bufLen.toNat)).length = min (64 - x.bufLen.toNat) s.length := List.length_take
    obtain ⟨h1, h2, h3, h4, h5, h6, h7⟩ := pushBytes_spec (s.take (64 - x.bufLen.toNat)) x hb (by omega)
    split
    · rename_i hfull
      have hpre : (buffered x ++ s.take (64 - x.bufLen.toNat)).length = 64 := by
        rw [← h2, buffered_length h3, hfull]
      refine ⟨(congrArg List.length (compress_buf ..)).trans h3, ?_, (compress_count ..).trans h6,
        (compress_fin ..).trans h7, .inl ⟨rfl, buffered x ++ s.take (64 - x.bufLen.toNat), by rw [hpre], ?_, ?_⟩⟩
      · show (compress _ _).w.length = 80
        rw [compress_w_length, h5, hw]
      · rw [List.append_assoc, List.take_append_drop]
      · show (compress _ _).h = _
        have hbuf : ((s.take (64 - x.bufLen.toNat)).foldl pushByte x).buf.take 64 =
            buffered x ++ s.take (64 - x.bufLen.toNat) := by rw [← h2, buffered, hfull]
        rw [compress_h (by rw [h5, hw]), h4, hbuf, wholeBlocks_one hpre, hashBlocks_cons, hashBlocks_nil]
    · rename_i hnot
      have hshort : s.length < 64 - x.bufLen.toNat := by omega
      have htake : s.take (64 - x.bufLen.toNat) = s := List.take_of_length_le (by omega)
      rw [htake] at h1 h2 h3 h4 h5 h6 h7 ⊢
      refine ⟨h3, by rw [h5, hw], h6, h7, .inr ⟨List.drop_eq_nil_of_le (by omega), h1, ?_, h4, h2⟩⟩
      show (s.foldl pushByte x).bufLen.toNat < 64
      omega
  · rename_i h0
    have h0' : x.bufLen.toNat = 0 := by omega
    exact ⟨hb, hw, rfl, rfl, .inl ⟨h0', [], rfl, by simp [buffered, h0'], rfl⟩⟩

theorem bypassBlocks_spec {x y : Context} {s rest : List Byte} (h : UpdateStep x s y rest) :
    UpdateStep x s (bypassBlocks y rest).1 (bypassBlocks y rest).2 ∧ (bypassBlocks y rest).2.length < 64 := by
  unfold bypassBlocks
  split
  · rename_i hlong
    obtain ⟨h1, h2, h3, h4, ⟨h5, pre, hp, hs, hh⟩ | ⟨h5, -⟩⟩ := h
    · obtain ⟨p1, p2, p3, p4, p5, p6, p7⟩ := processBlocks_spec h2 rest 0 rest.length
      dsimp only
      rw [Nat.zero_add] at p1
      rw [p1]
      refine ⟨⟨by rw [p4, h1], p3, by rw [p6, h3], by rw [p7, h4],
        .inl ⟨by rw [p5, h5], pre ++ rest.take (64 * (rest.length / 64)), ?_, ?_, ?_⟩⟩, ?_⟩
      · rw [List.length_append, List.length_take]
        omega
      · rw [hs, List.append_assoc, List.take_append_drop]
      · rw [p2, hh, wholeBlocks_append hp, hashBlocks_append, List.drop_zero]
        congr 1
        have hlen : (rest.take (64 * (rest.length / 64))).length = 64 * (rest.length / 64) := by
          rw [List.length_take]
          omega
        rw [wholeBlocks, hlen, Nat.mul_div_cancel_left _ (by decide), firstBlocks]
        refine List.map_congr_left fun k hk => ?_
        have hk' := List.mem_range.mp hk
        conv_lhs => rw [← List.take_append_drop (64 * (rest.length / 64)) rest]
        exact blockAt_append_left (by rw [hlen]; omega)
      · rw [List.length_drop]
        omega
    · rw [h5] at hlong
      simp at hlong
  · exact ⟨h, Nat.lt_of_not_le ‹_›⟩

/-! ## Update -/

/-- Everything `CtxUpdate` does to a context whose arrays have their sizes (R132). -/
theorem ctxUpdate_spec {x : Context} (s : List Byte) (hb : x.buf.length = 128) (hw : x.w.length = 80)
    (hl : x.bufLen.toNat < 64) :
    (ctxUpdate x s).h = hashBlocks x.h (wholeBlocks (buffered x ++ s)) ∧
    buffered (ctxUpdate x s) = (buffered x ++ s).drop (64 * ((buffered x ++ s).length / 64)) ∧
    (ctxUpdate x s).bufLen.toNat = (x.bufLen.toNat + s.length) % 64 ∧
    (ctxUpdate x s).count = x.count + BitVec.ofNat 64 s.length ∧ (ctxUpdate x s).fin = x.fin ∧
    (ctxUpdate x s).buf.length = 128 ∧ (ctxUpdate x s).w.length = 80 := by
  have hstep := fillBuffer_spec (x := { x with count := x.count + BitVec.ofNat 64 s.length }) s hb hw hl
  obtain ⟨⟨h1, h2, h3, h4, h5⟩, hshort⟩ := bypassBlocks_spec hstep
  rw [ctxUpdate]
  generalize hr : bypassBlocks _ _ = r at h1 h2 h3 h4 h5 hshort ⊢
  have hlen : (buffered x ++ s).length = x.bufLen.toNat + s.length := by
    rw [List.length_append, buffered_length hb]
  dsimp only at h3 h4 h5
  have hdata : buffered { x with count := x.count + BitVec.ofNat 64 s.length } = buffered x := rfl
  rw [hdata] at h5
  rcases h5 with ⟨h5, pre, hp, hs, hh⟩ | ⟨h5, h6, h7, h8, h9⟩
  · obtain ⟨q1, q2, q3, q4, q5, q6, q7⟩ := pushBytes_spec r.2 r.1 h1 (by omega)
    have hrest : pre.length + r.2.length = x.bufLen.toNat + s.length := by
      rw [← hlen, hs, List.length_append]
    have hpre : 64 * ((buffered x ++ s).length / 64) = pre.length := by rw [hlen]; omega
    have h0 : buffered r.1 = [] := by rw [buffered, h5, List.take_zero]
    refine ⟨?_, ?_, by rw [q1, h5]; omega, q6.trans h3, q7.trans h4, q3, by rw [q5, h2]⟩
    · rw [q4, hh, hs, wholeBlocks_append hp, wholeBlocks_small hshort, List.append_nil]
    · rw [q2, h0, List.nil_append, hpre, hs, List.drop_left]
  · rw [h5, List.foldl_nil]
    have hsmall : (buffered x ++ s).length < 64 := by rw [hlen]; omega
    refine ⟨?_, ?_, by rw [h6, Nat.mod_eq_of_lt (by omega)], h3, h4, h1, h2⟩
    · rw [h8, wholeBlocks_small hsmall, hashBlocks_nil]
    · rw [h9, Nat.div_eq_of_lt hsmall, Nat.mul_zero, List.drop_zero]

/-! ## Padding and finish -/

theorem padding_length {left : Nat} (hl : left < 64) (count : BitVec 64) :
    left + (padding left count).length = padLength left := by
  rw [padding, padLength, List.length_append, List.length_cons, List.length_replicate, lengthField_length]
  split <;> omega

/-- The padded buffer is the data, the padding, and what stood behind it (R133, R147). -/
theorem padBuffer_eq {buf : List Byte} {left : Nat} (hb : buf.length = 128) (hl : left < 64) (count : BitVec 64) :
    padBuffer buf left count = buf.take left ++ padding left count ++ buf.drop (padLength left) := by
  have hn : padLength left = 64 ∨ padLength left = 128 := by rw [padLength]; split <;> simp
  have hsplit : putBytes (putBytes (putBytes buf left [0x80]) (left + 1)
      (List.replicate (padLength left - 8 - (left + 1)) 0)) (padLength left - 8) (lengthField count) =
      putBytes buf left (padding left count) := by
    have h1 : padLength left - 8 = left + ([0x80] ++ List.replicate (padLength left - 8 - (left + 1)) (0 : Byte)).length := by
      rw [List.length_append, List.length_replicate, List.length_singleton]
      rw [padLength] at *
      split at hn <;> split <;> omega
    have h2 : putBytes (putBytes buf left [0x80]) (left + 1) (List.replicate (padLength left - 8 - (left + 1)) 0) =
        putBytes buf left ([0x80] ++ List.replicate (padLength left - 8 - (left + 1)) 0) :=
      putBytes_append buf left [0x80] _
    have h3 : padLength left - 8 - (left + 1) = if left % 64 < 56 then 55 - left % 64 else 119 - left % 64 := by
      rw [padLength]
      split <;> omega
    rw [h2]
    refine (congrArg (fun i => putBytes _ i (lengthField count)) h1).trans ?_
    rw [putBytes_append, padding, h3]
    rfl
  have hpad := padding_length hl count
  calc padBuffer buf left count
      = putBytes buf left (padding left count) := hsplit
    _ = _ := by rw [putBytes_eq _ _ _ (by rw [hpad, hb]; omega), hpad]

/-- Taking no more than the blocks that are looked at. -/
theorem firstBlocks_take (m : List Byte) (k : Nat) : firstBlocks (m.take (64 * k)) k = firstBlocks m k := by
  refine List.map_congr_left fun j hj => ?_
  have hj' := List.mem_range.mp hj
  rw [blockAt, blockAt, List.drop_take, List.take_take, Nat.min_eq_left (by omega)]

/-- Everything `CtxFinish` does to an Active context whose arrays have their sizes (R133). -/
theorem ctxFinish_spec {x : Context} (hf : x.fin = false) (hb : x.buf.length = 128) (hw : x.w.length = 80)
    (hl : x.bufLen.toNat < 64) :
    (ctxFinish x).h = hashBlocks x.h (wholeBlocks (buffered x ++ padding x.bufLen.toNat x.count)) ∧
    (ctxFinish x).buf = buffered x ++ padding x.bufLen.toNat x.count ++ x.buf.drop (padLength x.bufLen.toNat) ∧
    (ctxFinish x).bufLen = x.bufLen ∧ (ctxFinish x).count = x.count ∧ (ctxFinish x).fin = true ∧
    (ctxFinish x).buf.length = 128 ∧ (ctxFinish x).w.length = 80 := by
  have heq := padBuffer_eq hb hl x.count
  have hpad := padding_length hl x.count
  have hn : padLength x.bufLen.toNat = 64 ∨ padLength x.bufLen.toNat = 128 := by rw [padLength]; split <;> simp
  obtain ⟨-, p2, p3, p4, p5, p6, -⟩ :=
    processBlocks_spec (x := { x with buf := padBuffer x.buf x.bufLen.toNat x.count }) hw
      (padBuffer x.buf x.bufLen.toNat x.count) 0 (padLength x.bufLen.toNat)
  have hlen : (buffered x ++ padding x.bufLen.toNat x.count).length = padLength x.bufLen.toNat := by
    rw [List.length_append, buffered_length hb, hpad]
  rw [ctxFinish, if_neg (by rw [hf]; decide)]
  refine ⟨?_, p4.trans heq, p5, p6, rfl, ?_, p3⟩
  · refine p2.trans ?_
    rw [List.drop_zero, wholeBlocks, hlen]
    have hk : 64 * (padLength x.bufLen.toNat / 64) = padLength x.bufLen.toNat := by omega
    rw [← firstBlocks_take, hk, heq, ← firstBlocks]
    congr 2
    exact List.take_left' hlen
  · refine (congrArg List.length (p4.trans heq)).trans ?_
    rw [List.length_append, List.length_drop, hb]
    show (buffered x ++ padding x.bufLen.toNat x.count).length + _ = _
    rw [hlen]
    omega

/-- A finished context is left alone (R133, R146). -/
theorem ctxFinish_of_fin {x : Context} (hf : x.fin = true) : ctxFinish x = x := by
  rw [ctxFinish, if_pos hf]

/-! ## Reset, clean, save, restore -/

@[simp] theorem ctxReset_h (x : Context) : (ctxReset x).h = HState.iv := rfl
@[simp] theorem ctxReset_bufLen (x : Context) : (ctxReset x).bufLen = 0 := rfl
@[simp] theorem ctxReset_count (x : Context) : (ctxReset x).count = 0 := rfl
@[simp] theorem ctxReset_fin (x : Context) : (ctxReset x).fin = false := rfl
@[simp] theorem ctxReset_buf (x : Context) : (ctxReset x).buf = x.buf := rfl
@[simp] theorem ctxReset_w (x : Context) : (ctxReset x).w = x.w := rfl

/-- After a clean a context is as after power-on (R137). -/
@[simp] theorem ctxClean_eq (x : Context) : ctxClean x = Context.initial := rfl

@[simp] theorem ctxRestore_h (x : Context) (p : Snapshot) : (ctxRestore x p).h = p.h := rfl
@[simp] theorem ctxRestore_bufLen (x : Context) (p : Snapshot) : (ctxRestore x p).bufLen = p.bufLen := rfl
@[simp] theorem ctxRestore_count (x : Context) (p : Snapshot) : (ctxRestore x p).count = p.count := rfl
@[simp] theorem ctxRestore_fin (x : Context) (p : Snapshot) : (ctxRestore x p).fin = false := rfl
@[simp] theorem ctxRestore_w (x : Context) (p : Snapshot) : (ctxRestore x p).w = x.w := rfl

@[simp] theorem ctxSave_valid (x : Context) : (ctxSave x).valid = true := rfl
@[simp] theorem ctxSave_h (x : Context) : (ctxSave x).h = x.h := rfl
@[simp] theorem ctxSave_bufLen (x : Context) : (ctxSave x).bufLen = x.bufLen := rfl
@[simp] theorem ctxSave_count (x : Context) : (ctxSave x).count = x.count := rfl

/-! ## Well-formedness -/

theorem ctxWf_iff (x : Context) :
    ctxWf x = true ↔ x.buf.length = 128 ∧ x.w.length = 80 ∧ x.bufLen.toNat = x.count.toNat % 64 := by
  simp [ctxWf, and_assoc]

theorem ctxWf.lt {x : Context} (h : ctxWf x = true) : x.bufLen.toNat < 64 := by
  have := ((ctxWf_iff x).mp h).2.2
  omega

theorem ctxWf_initial : ctxWf Context.initial = true :=
  (ctxWf_iff _).mpr ⟨List.length_replicate .., List.length_replicate .., rfl⟩

theorem ctxWf_ctxReset {x : Context} (h : ctxWf x = true) : ctxWf (ctxReset x) = true := by
  obtain ⟨h1, h2, -⟩ := (ctxWf_iff x).mp h
  exact (ctxWf_iff _).mpr ⟨h1, h2, rfl⟩

theorem ctxWf_compress {x : Context} (h : ctxWf x = true) (blk : List Byte) : ctxWf (compress x blk) = true := by
  rw [ctxWf_iff] at h ⊢
  simpa using h

theorem ctxWf_processBlocks {x : Context} (h : ctxWf x = true) (s : List Byte) (off n : Nat) :
    ctxWf (processBlocks x s off n).1 = true := by
  obtain ⟨h1, h2, h3⟩ := (ctxWf_iff x).mp h
  obtain ⟨-, -, p3, p4, p5, p6, -⟩ := processBlocks_spec h2 s off n
  rw [ctxWf_iff, p4, p5, p6]
  exact ⟨h1, p3, h3⟩

/-- An update keeps `BUFLEN = COUNT mod 64` (spec/10_state.md R37). -/
theorem ctxWf_ctxUpdate {x : Context} (h : ctxWf x = true) (s : List Byte) : ctxWf (ctxUpdate x s) = true := by
  obtain ⟨h1, h2, h3⟩ := (ctxWf_iff x).mp h
  obtain ⟨-, -, q3, q4, -, q6, q7⟩ := ctxUpdate_spec s h1 h2 (ctxWf.lt h)
  rw [ctxWf_iff, q3, q4]
  refine ⟨q6, q7, ?_⟩
  rw [BitVec.toNat_add, BitVec.toNat_ofNat]
  omega

theorem ctxUpdate_fin {x : Context} (h : ctxWf x = true) (s : List Byte) : (ctxUpdate x s).fin = x.fin := by
  obtain ⟨h1, h2, h3⟩ := (ctxWf_iff x).mp h
  exact (ctxUpdate_spec s h1 h2 (ctxWf.lt h)).2.2.2.2.1

theorem ctxWf_ctxFinish {x : Context} (h : ctxWf x = true) : ctxWf (ctxFinish x) = true := by
  by_cases hf : x.fin = true
  · rw [ctxFinish_of_fin hf, h]
  · obtain ⟨h1, h2, h3⟩ := (ctxWf_iff x).mp h
    obtain ⟨-, -, p3, p4, -, p6, p7⟩ := ctxFinish_spec (by simpa using hf) h1 h2 (ctxWf.lt h)
    rw [ctxWf_iff, p3, p4]
    exact ⟨p6, p7, h3⟩

theorem ctxFinish_fin (x : Context) : (ctxFinish x).fin = true := by
  unfold ctxFinish
  split
  · assumption
  · rfl

theorem snapWf_iff (p : Snapshot) :
    snapWf p = true ↔ p.buf.length = 128 ∧ p.bufLen.toNat = p.count.toNat % 64 ∧
      p.bufValid = decide (p.bufLen.toNat > 0) ∧ (p.valid = true ∨ p = Snapshot.empty) := by
  simp [snapWf, and_assoc]

theorem snapWf_empty : snapWf Snapshot.empty = true :=
  (snapWf_iff _).mpr ⟨List.length_replicate .., rfl, rfl, .inr rfl⟩

theorem snapWf_ctxSave {x : Context} (h : ctxWf x = true) : snapWf (ctxSave x) = true := by
  obtain ⟨h1, -, h3⟩ := (ctxWf_iff x).mp h
  refine (snapWf_iff _).mpr ⟨?_, h3, rfl, .inl rfl⟩
  rw [ctxSave]
  dsimp only
  split
  · exact h1
  · exact List.length_replicate ..

theorem ctxWf_ctxRestore {x : Context} {p : Snapshot} (h : ctxWf x = true) (hp : snapWf p = true) :
    ctxWf (ctxRestore x p) = true := by
  obtain ⟨h1, h2, -⟩ := (ctxWf_iff x).mp h
  obtain ⟨p1, p2, -⟩ := (snapWf_iff p).mp hp
  refine (ctxWf_iff _).mpr ⟨?_, h2, p2⟩
  rw [ctxRestore]
  dsimp only
  split
  · exact p1
  · exact h1

/-- A restored context holds the bytes that were buffered when it was saved (R135, R136). -/
theorem buffered_ctxRestore_ctxSave (x y : Context) : buffered (ctxRestore y (ctxSave x)) = buffered x := by
  by_cases h : x.bufLen.toNat > 0
  · simp [buffered, ctxRestore, ctxSave, h]
  · have h0 : x.bufLen.toNat = 0 := by omega
    simp [buffered, h0]

end Sys2Proof.Machine
end

