-- ==== Sys2Proof/Laws/Commands.lean ====
section
/-! SUPPORT. What a command can do, said once: it raises, or it has the effect its rule gives it. Later proofs take a command
apart with `exec_cases` and never unfold a meaning. -/

namespace Sys2Proof.Machine

@[simp] theorem ok_bind {α β : Type} (a : α) (f : α → Except Code β) : (Except.ok a >>= f) = f a := rfl
@[simp] theorem error_bind {α β : Type} (e : Code) (f : α → Except Code β) : (Except.error e >>= f) = .error e := rfl
@[simp] theorem settle_ok (s t : State) : settle s (.ok t) = .next (complete t) := rfl
@[simp] theorem settle_error (s : State) (e : Code) : settle s (.error e) = .next (raise e s) := rfl
@[simp] theorem settle_pure (s t : State) : settle s (pure t) = .next (complete t) := rfl

theorem getCtx_eq (s : State) (c : Idx) :
    (∃ x, s.ctx[c.toNat]? = some x ∧ getCtx s c = .ok x) ∨ (s.ctx[c.toNat]? = none ∧ getCtx s c = .error .illegal) := by
  unfold getCtx
  cases h : s.ctx[c.toNat]? with
  | none => exact .inr ⟨rfl, rfl⟩
  | some x => exact .inl ⟨x, rfl, rfl⟩

theorem getSnap_eq (s : State) (k : Idx) :
    (∃ p, s.snap[k.toNat]? = some p ∧ getSnap s k = .ok p) ∨
    (s.snap[k.toNat]? = none ∧ getSnap s k = .error .illegal) := by
  unfold getSnap
  cases h : s.snap[k.toNat]? with
  | none => exact .inr ⟨rfl, rfl⟩
  | some x => exact .inl ⟨x, rfl, rfl⟩

theorem getChan_eq (s : State) (h : Idx) :
    (∃ ch, s.hm[h.toNat]? = some ch ∧ getChan s h = .ok ch) ∨
    (s.hm[h.toNat]? = none ∧ getChan s h = .error .illegal) := by
  unfold getChan
  cases hh : s.hm[h.toNat]? with
  | none => exact .inr ⟨rfl, rfl⟩
  | some x => exact .inl ⟨x, rfl, rfl⟩

@[simp] theorem require_true (e : Code) : require true e = .ok () := rfl
@[simp] theorem require_false (e : Code) : require false e = .error e := rfl

theorem inputBytes_eq (s : State) :
    (inBounds s s.len.toNat = true ∧ inputBytes s = .ok (memRead s.dmem s.addr.toNat s.len.toNat)) ∨
    (inBounds s s.len.toNat = false ∧ inputBytes s = .error .bounds) := by
  unfold inputBytes
  cases h : inBounds s s.len.toNat <;> simp

theorem checkOutput_eq (s : State) :
    (20 ≤ s.len.toNat ∧ inBounds s 20 = true ∧ checkOutput s = .ok ()) ∨
    (s.len.toNat < 20 ∧ checkOutput s = .error .outbuf) ∨
    (20 ≤ s.len.toNat ∧ inBounds s 20 = false ∧ checkOutput s = .error .bounds) := by
  unfold checkOutput
  by_cases h : s.len.toNat < 20
  · exact .inr (.inl ⟨h, by rw [if_pos h]⟩)
  · rw [if_neg h]
    cases hb : inBounds s 20
    · exact .inr (.inr ⟨by omega, rfl, by simp⟩)
    · exact .inl ⟨by omega, rfl, by simp⟩

/-- The input bytes of a command (R62). -/
def inputOf (s : State) : List Byte := memRead s.dmem s.addr.toNat s.len.toNat

@[simp] theorem inputOf_length (s : State) : (inputOf s).length = s.len.toNat := memRead_length ..

/-- Reading the digest just written (R62, R134). -/
theorem memRead_digest {m : Memory} (hm : m.wf = true) (a : Nat) (x : Context) :
    memRead (memWrite m a (ctxDigest x)) a 20 = ctxDigest x := by
  have h := memRead_memWrite (a := a) (bs := ctxDigest x) hm
  rwa [ctxDigest_length] at h

/-- Writing a digest leaves every byte outside its 20 alone (R62). -/
theorem readByte_digest_outside {m : Memory} {a b : Nat} {x : Context} (h : b < a ∨ a + 20 ≤ b) :
    readByte (memWrite m a (ctxDigest x)) b = readByte m b :=
  readByte_memWrite_outside (by rw [ctxDigest_length]; exact h)

/-- The effect of each command from `s`, before `CODE <- OK` (R83). -/
inductive Effect (s : State) : Instr → State → Prop
  | nop : Effect s .nop s
  | reset {c : Idx} {x : Context} (hx : s.ctx[c.toNat]? = some x) : Effect s (.reset c) (setCtx s c (ctxReset x))
  | update {c : Idx} {x : Context} (hx : s.ctx[c.toNat]? = some x) (hf : x.fin = false)
      (hb : inBounds s s.len.toNat = true) : Effect s (.update c) (setCtx s c (ctxUpdate x (inputOf s)))
  | finish {c : Idx} {x : Context} (hx : s.ctx[c.toNat]? = some x) (hl : 20 ≤ s.len.toNat)
      (hb : inBounds s 20 = true) :
      Effect s (.finish c) (putOutput (setCtx s c (ctxFinish x)) (ctxDigest (ctxFinish x)))
  | save {c k : Idx} {x : Context} {p : Snapshot} (hx : s.ctx[c.toNat]? = some x) (hp : s.snap[k.toNat]? = some p)
      (hf : x.fin = false) : Effect s (.save c k) (setSnap s k (ctxSave x))
  | restore {c k : Idx} {x : Context} {p : Snapshot} (hx : s.ctx[c.toNat]? = some x) (hp : s.snap[k.toNat]? = some p)
      (hv : p.valid = true) : Effect s (.restore c k) (setCtx s c (ctxRestore x p))
  | clean {c : Idx} {x : Context} (hx : s.ctx[c.toNat]? = some x) : Effect s (.clean c) (setCtx s c (ctxClean x))
  | sclr {k : Idx} {p : Snapshot} (hp : s.snap[k.toNat]? = some p) : Effect s (.sclr k) (setSnap s k Snapshot.empty)
  | pblk {c : Idx} {x : Context} (hx : s.ctx[c.toNat]? = some x) (hf : x.fin = false)
      (hb : inBounds s s.len.toNat = true) :
      Effect s (.pblk c) { setCtx s c (processBlocks x (inputOf s) 0 (inputOf s).length).1 with
        result := s.addr + BitVec.ofNat 32 (processBlocks x (inputOf s) 0 (inputOf s).length).2 }
  | sread {c : Idx} {x : Context} (hx : s.ctx[c.toNat]? = some x) (hl : 20 ≤ s.len.toNat)
      (hb : inBounds s 20 = true) : Effect s (.sread c) (putOutput s (ctxDigest x))
  | hkey {h : Idx} {ch : Channel} (hc : s.hm[h.toNat]? = some ch) (hb : inBounds s s.len.toNat = true) :
      Effect s (.hkey h) (setChan s h (keyChannel ch (inputOf s)))
  | hupd {h : Idx} {ch : Channel} (hc : s.hm[h.toNat]? = some ch) (hk : ch.keyed = true) (hf : ch.inn.fin = false)
      (hb : inBounds s s.len.toNat = true) :
      Effect s (.hupd h) (setChan s h (updateChannel ch (inputOf s)))
  | hfin {h : Idx} {ch : Channel} (hc : s.hm[h.toNat]? = some ch) (hk : ch.keyed = true) (hl : 20 ≤ s.len.toNat)
      (hb : inBounds s 20 = true) :
      Effect s (.hfin h) (putOutput (setChan s h (finishChannel ch)) (ctxDigest (finishChannel ch).out))
  | hrst {h : Idx} {ch : Channel} (hc : s.hm[h.toNat]? = some ch) (hk : ch.keyed = true) :
      Effect s (.hrst h) (setChan s h (restoreChannel ch))
  | hcln {h : Idx} {ch : Channel} (hc : s.hm[h.toNat]? = some ch) : Effect s (.hcln h) (setChan s h (cleanChannel ch))
  | srst : Effect s .srst { s with
      ctx := s.ctx.map ctxClean, snap := s.snap.map fun _ => Snapshot.empty, hm := s.hm.map cleanChannel,
      result := 0, sticky := false }

/-- Every command raises a code, or has its effect (R210). -/
theorem exec_cases (i : Instr) (s : State) :
    (∃ e, e ≠ .ok ∧ exec i s = .next (raise e s)) ∨ (∃ t, exec i s = .next (complete t) ∧ Effect s i t) := by
  cases i with
  | nop => exact .inr ⟨_, rfl, .nop⟩
  | reset c =>
    rcases getCtx_eq s c with ⟨x, hx, h⟩ | ⟨-, h⟩ <;> simp only [exec, execReset, h, ok_bind, error_bind, settle_error]
    exacts [.inr ⟨_, rfl, .reset hx⟩, .inl ⟨_, by decide, rfl⟩]
  | update c =>
    rcases getCtx_eq s c with ⟨x, hx, h⟩ | ⟨-, h⟩ <;> simp only [exec, execUpdate, h, ok_bind, error_bind, settle_error]
    · cases hf : x.fin
      · rcases inputBytes_eq s with ⟨hb, hi⟩ | ⟨-, hi⟩
        · exact .inr ⟨_, by rw [hi]; rfl, .update hx hf hb⟩
        · exact .inl ⟨.bounds, by decide, by rw [hi]; rfl⟩
      · exact .inl ⟨_, by decide, rfl⟩
    · exact .inl ⟨_, by decide, rfl⟩
  | finish c =>
    rcases getCtx_eq s c with ⟨x, hx, h⟩ | ⟨-, h⟩ <;> simp only [exec, execFinish, h, ok_bind, error_bind, settle_error]
    · rcases checkOutput_eq s with ⟨hl, hb, ho⟩ | ⟨-, ho⟩ | ⟨-, -, ho⟩
      · exact .inr ⟨_, by rw [ho]; rfl, .finish hx hl hb⟩
      · exact .inl ⟨.outbuf, by decide, by rw [ho]; rfl⟩
      · exact .inl ⟨.bounds, by decide, by rw [ho]; rfl⟩
    · exact .inl ⟨_, by decide, rfl⟩
  | save c k =>
    rcases getCtx_eq s c with ⟨x, hx, h⟩ | ⟨-, h⟩ <;> simp only [exec, execSave, h, ok_bind, error_bind, settle_error]
    · rcases getSnap_eq s k with ⟨p, hp, h'⟩ | ⟨-, h'⟩ <;> simp only [h', ok_bind, error_bind, settle_error]
      · cases hf : x.fin
        · exact .inr ⟨_, rfl, .save hx hp hf⟩
        · exact .inl ⟨_, by decide, rfl⟩
      · exact .inl ⟨_, by decide, rfl⟩
    · exact .inl ⟨_, by decide, rfl⟩
  | restore c k =>
    rcases getCtx_eq s c with ⟨x, hx, h⟩ | ⟨-, h⟩ <;> simp only [exec, execRestore, h, ok_bind, error_bind, settle_error]
    · rcases getSnap_eq s k with ⟨p, hp, h'⟩ | ⟨-, h'⟩ <;> simp only [h', ok_bind, error_bind, settle_error]
      · cases hv : p.valid
        · exact .inl ⟨_, by decide, rfl⟩
        · exact .inr ⟨_, rfl, .restore hx hp hv⟩
      · exact .inl ⟨_, by decide, rfl⟩
    · exact .inl ⟨_, by decide, rfl⟩
  | clean c =>
    rcases getCtx_eq s c with ⟨x, hx, h⟩ | ⟨-, h⟩ <;> simp only [exec, execClean, h, ok_bind, error_bind, settle_error]
    exacts [.inr ⟨_, rfl, .clean hx⟩, .inl ⟨_, by decide, rfl⟩]
  | sclr k =>
    rcases getSnap_eq s k with ⟨p, hp, h⟩ | ⟨-, h⟩ <;> simp only [exec, execSclr, h, ok_bind, error_bind, settle_error]
    exacts [.inr ⟨_, rfl, .sclr hp⟩, .inl ⟨_, by decide, rfl⟩]
  | pblk c =>
    rcases getCtx_eq s c with ⟨x, hx, h⟩ | ⟨-, h⟩ <;> simp only [exec, execPblk, h, ok_bind, error_bind, settle_error]
    · cases hf : x.fin
      · rcases inputBytes_eq s with ⟨hb, hi⟩ | ⟨-, hi⟩
        · exact .inr ⟨_, by rw [hi]; rfl, .pblk hx hf hb⟩
        · exact .inl ⟨.bounds, by decide, by rw [hi]; rfl⟩
      · exact .inl ⟨_, by decide, rfl⟩
    · exact .inl ⟨_, by decide, rfl⟩
  | sread c =>
    rcases getCtx_eq s c with ⟨x, hx, h⟩ | ⟨-, h⟩ <;> simp only [exec, execSread, h, ok_bind, error_bind, settle_error]
    · rcases checkOutput_eq s with ⟨hl, hb, ho⟩ | ⟨-, ho⟩ | ⟨-, -, ho⟩
      · exact .inr ⟨_, by rw [ho]; rfl, .sread hx hl hb⟩
      · exact .inl ⟨.outbuf, by decide, by rw [ho]; rfl⟩
      · exact .inl ⟨.bounds, by decide, by rw [ho]; rfl⟩
    · exact .inl ⟨_, by decide, rfl⟩
  | hkey k =>
    rcases getChan_eq s k with ⟨ch, hc, h⟩ | ⟨-, h⟩ <;> simp only [exec, execHkey, h, ok_bind, error_bind, settle_error]
    · rcases inputBytes_eq s with ⟨hb, hi⟩ | ⟨-, hi⟩
      · exact .inr ⟨_, by rw [hi]; rfl, .hkey hc hb⟩
      · exact .inl ⟨.bounds, by decide, by rw [hi]; rfl⟩
    · exact .inl ⟨_, by decide, rfl⟩
  | hupd k =>
    rcases getChan_eq s k with ⟨ch, hc, h⟩ | ⟨-, h⟩ <;> simp only [exec, execHupd, h, ok_bind, error_bind, settle_error]
    · cases hk : ch.keyed
      · exact .inl ⟨_, by decide, rfl⟩
      · cases hf : ch.inn.fin
        · rcases inputBytes_eq s with ⟨hb, hi⟩ | ⟨-, hi⟩
          · exact .inr ⟨_, by rw [hi]; rfl, .hupd hc hk hf hb⟩
          · exact .inl ⟨.bounds, by decide, by rw [hi]; rfl⟩
        · exact .inl ⟨_, by decide, rfl⟩
    · exact .inl ⟨_, by decide, rfl⟩
  | hfin k =>
    rcases getChan_eq s k with ⟨ch, hc, h⟩ | ⟨-, h⟩ <;> simp only [exec, execHfin, h, ok_bind, error_bind, settle_error]
    · cases hk : ch.keyed
      · exact .inl ⟨_, by decide, rfl⟩
      · rcases checkOutput_eq s with ⟨hl, hb, ho⟩ | ⟨-, ho⟩ | ⟨-, -, ho⟩
        · exact .inr ⟨_, by rw [ho]; rfl, .hfin hc hk hl hb⟩
        · exact .inl ⟨.outbuf, by decide, by rw [ho]; rfl⟩
        · exact .inl ⟨.bounds, by decide, by rw [ho]; rfl⟩
    · exact .inl ⟨_, by decide, rfl⟩
  | hrst k =>
    rcases getChan_eq s k with ⟨ch, hc, h⟩ | ⟨-, h⟩ <;> simp only [exec, execHrst, h, ok_bind, error_bind, settle_error]
    · cases hk : ch.keyed
      · exact .inl ⟨_, by decide, rfl⟩
      · exact .inr ⟨_, rfl, .hrst hc hk⟩
    · exact .inl ⟨_, by decide, rfl⟩
  | hcln k =>
    rcases getChan_eq s k with ⟨ch, hc, h⟩ | ⟨-, h⟩ <;> simp only [exec, execHcln, h, ok_bind, error_bind, settle_error]
    exacts [.inr ⟨_, rfl, .hcln hc⟩, .inl ⟨_, by decide, rfl⟩]
  | srst => exact .inr ⟨_, rfl, .srst⟩

/-- A command has its effect whenever the conditions of the effect hold. -/
theorem exec_of_effect {s t : State} {i : Instr} (h : Effect s i t) : exec i s = .next (complete t) := by
  have hc : ∀ {c : Idx} {x : Context}, s.ctx[c.toNat]? = some x → getCtx s c = .ok x := fun hx => by
    rw [getCtx, hx]
  have hs : ∀ {k : Idx} {p : Snapshot}, s.snap[k.toNat]? = some p → getSnap s k = .ok p := fun hp => by
    rw [getSnap, hp]
  have hh : ∀ {k : Idx} {ch : Channel}, s.hm[k.toNat]? = some ch → getChan s k = .ok ch := fun hp => by
    rw [getChan, hp]
  have hin : inBounds s s.len.toNat = true → inputBytes s = .ok (inputOf s) := fun hb => by
    rw [inputBytes, if_pos hb, inputOf]
  have hout : 20 ≤ s.len.toNat → inBounds s 20 = true → checkOutput s = .ok () := fun hl hb => by
    rw [checkOutput, if_neg (by omega), if_pos hb]
  cases h with
  | nop => rfl
  | reset hx => simp only [exec, execReset, hc hx, ok_bind]; rfl
  | update hx hf hb => simp only [exec, execUpdate, hc hx, ok_bind, hf, hin hb]; rfl
  | finish hx hl hb => simp only [exec, execFinish, hc hx, ok_bind, hout hl hb]; rfl
  | save hx hp hf => simp only [exec, execSave, hc hx, hs hp, ok_bind, hf]; rfl
  | restore hx hp hv => simp only [exec, execRestore, hc hx, hs hp, ok_bind, hv]; rfl
  | clean hx => simp only [exec, execClean, hc hx, ok_bind]; rfl
  | sclr hp => simp only [exec, execSclr, hs hp, ok_bind]; rfl
  | pblk hx hf hb => simp only [exec, execPblk, hc hx, ok_bind, hf, hin hb]; rfl
  | sread hx hl hb => simp only [exec, execSread, hc hx, ok_bind, hout hl hb]; rfl
  | hkey hx hb => simp only [exec, execHkey, hh hx, ok_bind, hin hb]; rfl
  | hupd hx hk hf hb => simp only [exec, execHupd, hh hx, ok_bind, hk, hf, hin hb]; rfl
  | hfin hx hk hl hb => simp only [exec, execHfin, hh hx, ok_bind, hk, hout hl hb]; rfl
  | hrst hx hk => simp only [exec, execHrst, hh hx, ok_bind, hk]; rfl
  | hcln hx => simp only [exec, execHcln, hh hx, ok_bind]; rfl
  | srst => rfl

end Sys2Proof.Machine
end

