-- ==== Sys2Proof/Laws/Decode.lean ====
section
/-! SUPPORT. The fields of a command word: reading back what `commandWord` puts together, and putting together what the
fields read (spec/30_encoding.md R81). -/

namespace Sys2Proof

/-- A command word as a number. -/
theorem commandWord_toNat (op : BitVec 8) (x y : Idx) :
    (commandWord op x y).toNat = op.toNat * 2 ^ 24 + x.toNat * 2 ^ 20 + y.toNat * 2 ^ 16 := by
  have h1 := op.isLt
  have h2 := x.isLt
  have h3 := y.isLt
  rw [commandWord, BitVec.toNat_append, BitVec.toNat_append, BitVec.toNat_append,
    ← Nat.shiftLeft_add_eq_or_of_lt (BitVec.isLt _), ← Nat.shiftLeft_add_eq_or_of_lt h3,
    ← Nat.shiftLeft_add_eq_or_of_lt h2]
  simp only [Nat.shiftLeft_eq, show (0 : BitVec 16).toNat = 0 from rfl]
  omega

/-- The fields of a word as numbers. -/
theorem fields_toNat (v : Word) :
    (opField v).toNat = v.toNat / 2 ^ 24 ∧ (xField v).toNat = v.toNat / 2 ^ 20 % 16 ∧
    (yField v).toNat = v.toNat / 2 ^ 16 % 16 ∧ (rsvField v).toNat = v.toNat % 2 ^ 16 := by
  have h := v.isLt
  simp [opField, xField, yField, rsvField, Nat.shiftRight_eq_div_pow]
  omega

@[simp] theorem opField_commandWord (op : BitVec 8) (x y : Idx) : opField (commandWord op x y) = op := by
  have h1 := op.isLt
  have h2 := x.isLt
  have h3 := y.isLt
  refine BitVec.eq_of_toNat_eq ?_
  rw [(fields_toNat _).1, commandWord_toNat]
  omega

@[simp] theorem xField_commandWord (op : BitVec 8) (x y : Idx) : xField (commandWord op x y) = x := by
  have h2 := x.isLt
  have h3 := y.isLt
  refine BitVec.eq_of_toNat_eq ?_
  rw [(fields_toNat _).2.1, commandWord_toNat]
  omega

@[simp] theorem yField_commandWord (op : BitVec 8) (x y : Idx) : yField (commandWord op x y) = y := by
  have h3 := y.isLt
  refine BitVec.eq_of_toNat_eq ?_
  rw [(fields_toNat _).2.2.1, commandWord_toNat]
  omega

@[simp] theorem rsvField_commandWord (op : BitVec 8) (x y : Idx) : rsvField (commandWord op x y) = 0 := by
  refine BitVec.eq_of_toNat_eq ?_
  rw [(fields_toNat _).2.2.2, commandWord_toNat, show (0 : BitVec 16).toNat = 0 from rfl]
  omega

/-- A word with `RSV` zero is put together from its fields. -/
theorem commandWord_fields {v : Word} (h : rsvField v = 0) : commandWord (opField v) (xField v) (yField v) = v := by
  obtain ⟨h1, h2, h3, h4⟩ := fields_toNat v
  have hv := v.isLt
  rw [h, show (0 : BitVec 16).toNat = 0 from rfl] at h4
  refine BitVec.eq_of_toNat_eq ?_
  rw [commandWord_toNat, h1, h2, h3]
  omega

end Sys2Proof
end

