-- ==== Sys2Proof/Laws/Hmac.lean ====
section
/-! SUPPORT. The channel operations: the pads, the keyed states, and the channel's well-formedness (spec/42_hmac.md). -/

namespace Sys2Proof.Machine

theorem xorPad_length (pad : List Byte) (b : Byte) : (xorPad pad b).length = pad.length := by simp [xorPad]

theorem keyPad_length (x : Context) (key : List Byte) : (keyPad x key).length = 64 := by
  unfold keyPad
  split <;> rw [putBytes_length, List.length_replicate]

/-- Bytes stored at the start of 64 zeros are those bytes, padded with zeros. -/
theorem putBytes_zeros {k : List Byte} (h : k.length ≤ 64) :
    putBytes (List.replicate 64 0) 0 k = k ++ List.replicate (64 - k.length) 0 := by
  rw [putBytes_eq _ _ _ (by rw [List.length_replicate]; omega), List.take_zero, List.nil_append, Nat.zero_add,
    List.drop_replicate]

/-- A context that has absorbed one whole block from an empty buffer. -/
theorem ctxUpdate_block {x : Context} (hb : x.buf.length = 128) (hw : x.w.length = 80) (h0 : x.bufLen = 0)
    {blk : List Byte} (hl : blk.length = 64) :
    (ctxUpdate x blk).h = compressH x.h blk ∧ (ctxUpdate x blk).bufLen = 0 ∧
    (ctxUpdate x blk).count = x.count + 64 ∧ (ctxUpdate x blk).fin = x.fin := by
  obtain ⟨q1, -, q3, q4, q5, -, -⟩ := ctxUpdate_spec blk hb hw (by rw [h0]; decide)
  have hbuf : buffered x = [] := by rw [buffered, h0]; rfl
  rw [hbuf, List.nil_append, wholeBlocks_one hl, hashBlocks_cons, hashBlocks_nil] at q1
  refine ⟨q1, BitVec.eq_of_toNat_eq ?_, by rw [q4, hl]; rfl, q5⟩
  rw [q3, hl, h0]
  rfl

/-- The pads HKEY absorbs (R171, R173): `K0` XORed with the pad byte. -/
def keyBlock (key : List Byte) (b : Byte) : List Byte := xorPad (keyPad Context.initial key) b

theorem keyBlock_length (key : List Byte) (b : Byte) : (keyBlock key b).length = 64 := by
  rw [keyBlock, xorPad_length, keyPad_length]

/-- Everything HKEY leaves in a channel: a function of the key alone (R173). -/
theorem keyChannel_eq (ch : Channel) (key : List Byte) :
    keyChannel ch key =
      { inn := ctxUpdate Context.initial (keyBlock key innerPad), out := ctxUpdate Context.initial (keyBlock key outerPad),
        ikey := ctxSave (ctxUpdate Context.initial (keyBlock key innerPad)),
        okey := ctxSave (ctxUpdate Context.initial (keyBlock key outerPad)), keyed := true, done := false } := by
  simp only [keyChannel, ctxClean_eq, ite_self, keyBlock]

theorem initial_buf_length : Context.initial.buf.length = 128 := List.length_replicate ..
theorem initial_w_length : Context.initial.w.length = 80 := List.length_replicate ..

/-- A context just keyed: one block absorbed from the initial state (R173). -/
theorem keyed_context (key : List Byte) (b : Byte) :
    (ctxUpdate Context.initial (keyBlock key b)).h = compressH HState.iv (keyBlock key b) ∧
    (ctxUpdate Context.initial (keyBlock key b)).bufLen = 0 ∧
    (ctxUpdate Context.initial (keyBlock key b)).count = 64 ∧
    (ctxUpdate Context.initial (keyBlock key b)).fin = false :=
  ctxUpdate_block initial_buf_length initial_w_length rfl (keyBlock_length key b)

/-! ## Well-formedness -/

theorem chanWf_iff (ch : Channel) : chanWf ch = true ↔
    ctxWf ch.inn = true ∧ ctxWf ch.out = true ∧ snapWf ch.ikey = true ∧ snapWf ch.okey = true ∧
    ch.inn.fin = ch.done ∧ ch.out.fin = ch.done ∧
    ((ch.keyed = true ∧ ch.ikey.valid = true ∧ ch.okey.valid = true ∧ ch.ikey.count = 64 ∧ ch.okey.count = 64 ∧
        (ch.done = true ∨ (ch.out.h = ch.okey.h ∧ ch.out.count = 64))) ∨
      (ch.keyed = false ∧ ch = Channel.initial)) := by
  unfold chanWf
  cases hk : ch.keyed
  · simp [and_assoc]
  · simp [and_assoc]

theorem chanWf_initial : chanWf Channel.initial = true :=
  (chanWf_iff _).mpr ⟨ctxWf_initial, ctxWf_initial, snapWf_empty, snapWf_empty, rfl, rfl, .inr ⟨rfl, rfl⟩⟩

theorem chanWf_keyChannel (ch : Channel) (key : List Byte) : chanWf (keyChannel ch key) = true := by
  rw [keyChannel_eq, chanWf_iff]
  obtain ⟨-, -, i3, i4⟩ := keyed_context key innerPad
  obtain ⟨-, -, o3, o4⟩ := keyed_context key outerPad
  have hi := ctxWf_ctxUpdate ctxWf_initial (keyBlock key innerPad)
  have ho := ctxWf_ctxUpdate ctxWf_initial (keyBlock key outerPad)
  exact ⟨hi, ho, snapWf_ctxSave hi, snapWf_ctxSave ho, i4, o4, .inl ⟨rfl, rfl, rfl, i3, o3, .inr ⟨rfl, o3⟩⟩⟩

theorem chanWf_updateChannel {ch : Channel} (h : chanWf ch = true) (hk : ch.keyed = true) (bs : List Byte) :
    chanWf (updateChannel ch bs) = true := by
  rw [chanWf_iff] at h ⊢
  obtain ⟨h1, h2, h3, h4, h5, h6, h7 | ⟨h7, -⟩⟩ := h
  · exact ⟨ctxWf_ctxUpdate h1 bs, h2, h3, h4, (ctxUpdate_fin h1 bs).trans h5, h6, .inl h7⟩
  · rw [hk] at h7
    cases h7

theorem chanWf_finishChannel {ch : Channel} (h : chanWf ch = true) (hk : ch.keyed = true) :
    chanWf (finishChannel ch) = true := by
  cases hd : ch.done
  · rw [finishChannel, if_neg (by rw [hd]; decide), chanWf_iff]
    rw [chanWf_iff] at h
    obtain ⟨h1, h2, h3, h4, -, -, ⟨-, h8, h9, h10, h11, -⟩ | ⟨h7, -⟩⟩ := h
    · exact ⟨ctxWf_ctxFinish h1, ctxWf_ctxFinish (ctxWf_ctxUpdate h2 _), h3, h4, ctxFinish_fin _, ctxFinish_fin _,
        .inl ⟨hk, h8, h9, h10, h11, .inl rfl⟩⟩
    · rw [hk] at h7
      cases h7
  · rw [finishChannel, if_pos hd]
    exact h

theorem chanWf_restoreChannel {ch : Channel} (h : chanWf ch = true) (hk : ch.keyed = true) :
    chanWf (restoreChannel ch) = true := by
  rw [chanWf_iff] at h ⊢
  obtain ⟨h1, h2, h3, h4, -, -, ⟨-, h8, h9, h10, h11, -⟩ | ⟨h7, -⟩⟩ := h
  · exact ⟨ctxWf_ctxRestore h1 h3, ctxWf_ctxRestore h2 h4, h3, h4, rfl, rfl,
      .inl ⟨hk, h8, h9, h10, h11, .inr ⟨rfl, h11⟩⟩⟩
  · rw [hk] at h7
    cases h7

@[simp] theorem cleanChannel_eq (ch : Channel) : cleanChannel ch = Channel.initial := rfl

end Sys2Proof.Machine
end

