-- ==== Sys2Proof/Laws/PerInstr.lean ====
section
/-! SUPPORT. What holds of every command, one lemma per constructor: its word carries its opcode and its indices in the
fields of R81, zeros in the fields its usage class does not use, and the opcode map makes the command of it (R83). -/

namespace Sys2Proof.Laws.EncodedFields

open Sys2Proof

/-- The word of the command selects a row of the opcode map, leaves no field the row does not use set, and the row makes
the command from the word's fields. -/
def Statement (i : Instr) : Prop :=
  ∃ r, rowOf (opField (encode i)) = some r ∧ rsvField (encode i) = 0 ∧
    (r.usesX = false → xField (encode i) = 0) ∧ (r.usesY = false → yField (encode i) = 0) ∧
    r.make (xField (encode i)) (yField (encode i)) = i

theorem nop : Statement .nop := ⟨_, by simp only [encode, opField_commandWord]; rfl, by simp [encode]⟩
theorem reset (c : Idx) : Statement (.reset c) := ⟨_, by simp only [encode, opField_commandWord]; rfl, by simp [encode]⟩
theorem update (c : Idx) : Statement (.update c) := ⟨_, by simp only [encode, opField_commandWord]; rfl, by simp [encode]⟩
theorem finish (c : Idx) : Statement (.finish c) := ⟨_, by simp only [encode, opField_commandWord]; rfl, by simp [encode]⟩
theorem save (c s : Idx) : Statement (.save c s) := ⟨_, by simp only [encode, opField_commandWord]; rfl, by simp [encode]⟩
theorem restore (c s : Idx) : Statement (.restore c s) := ⟨_, by simp only [encode, opField_commandWord]; rfl, by simp [encode]⟩
theorem clean (c : Idx) : Statement (.clean c) := ⟨_, by simp only [encode, opField_commandWord]; rfl, by simp [encode]⟩
theorem sclr (s : Idx) : Statement (.sclr s) := ⟨_, by simp only [encode, opField_commandWord]; rfl, by simp [encode]⟩
theorem pblk (c : Idx) : Statement (.pblk c) := ⟨_, by simp only [encode, opField_commandWord]; rfl, by simp [encode]⟩
theorem sread (c : Idx) : Statement (.sread c) := ⟨_, by simp only [encode, opField_commandWord]; rfl, by simp [encode]⟩
theorem hkey (h : Idx) : Statement (.hkey h) := ⟨_, by simp only [encode, opField_commandWord]; rfl, by simp [encode]⟩
theorem hupd (h : Idx) : Statement (.hupd h) := ⟨_, by simp only [encode, opField_commandWord]; rfl, by simp [encode]⟩
theorem hfin (h : Idx) : Statement (.hfin h) := ⟨_, by simp only [encode, opField_commandWord]; rfl, by simp [encode]⟩
theorem hrst (h : Idx) : Statement (.hrst h) := ⟨_, by simp only [encode, opField_commandWord]; rfl, by simp [encode]⟩
theorem hcln (h : Idx) : Statement (.hcln h) := ⟨_, by simp only [encode, opField_commandWord]; rfl, by simp [encode]⟩
theorem srst : Statement .srst := ⟨_, by simp only [encode, opField_commandWord]; rfl, by simp [encode]⟩

end Sys2Proof.Laws.EncodedFields
end

