-- ==== Sys2Proof/Laws/Step.lean ====
section
/-! SUPPORT. What one step can do, said once: it waits, it carries out the next input, or it stops. -/

namespace Sys2Proof.Machine

/-- The next state of a step, input by input (spec/43_control.md R202 to R204, spec/20_memory.md R74). `s` is the state with
the input taken off. -/
inductive InputEffect (s : State) : Input → State → Prop
  | command {v : Word} {i : Instr} {t : State} (hd : decode s.params v = .ok i)
      (he : exec i { s with cmd := v } = .next t) : InputEffect s (.regWrite .word 0x00 v) t
  | illegal {v : Word} {e : DecodeError} (hd : decode s.params v = .error e) :
      InputEffect s (.regWrite .word 0x00 v) (raise .illegal { s with cmd := v })
  | addr {v : Word} : InputEffect s (.regWrite .word 0x04 v) { s with addr := v }
  | len {v : Word} : InputEffect s (.regWrite .word 0x08 v) { s with len := v }
  | status {v : Word} : InputEffect s (.regWrite .word 0x0C v) (writeStatus v s)
  | ignored {off : BitVec 8} {v : Word} (ha : off.toNat % 4 = 0) (h : 0x10 ≤ off.toNat) :
      InputEffect s (.regWrite .word off v) s
  | read {off : BitVec 8} (ha : off.toNat % 4 = 0) :
      InputEffect s (.regRead .word off) { s with seen := .reg off (readOffset s off) :: s.seen }
  | memWrite {a : Nat} {b : Byte} (ha : a < s.dmemSize) :
      InputEffect s (.memWrite a b) { s with dmem := writeByte s.dmem a b }
  | memRead {a : Nat} (ha : a < s.dmemSize) :
      InputEffect s (.memRead a) { s with seen := .mem a (readByte s.dmem a) :: s.seen }
  | powerOn : InputEffect s .powerOn (powerOn s)

/-- The register at each offset (spec/10_state.md R21). -/
theorem regAt_cases (off : BitVec 8) :
    (off = 0x00 ∧ regAt off = some .cmd) ∨ (off = 0x04 ∧ regAt off = some .addr) ∨ (off = 0x08 ∧ regAt off = some .len) ∨
    (off = 0x0C ∧ regAt off = some .status) ∨ (off = 0x10 ∧ regAt off = some .result) ∨
    (off = 0x14 ∧ regAt off = some .id) ∨ (off = 0x18 ∧ regAt off = some .cfg) ∨
    (off = 0x1C ∧ regAt off = some .dmsz) ∨
    (regAt off = none ∧ off ≠ 0x00 ∧ off ≠ 0x04 ∧ off ≠ 0x08 ∧ off ≠ 0x0C ∧ off ≠ 0x10 ∧ off ≠ 0x14 ∧ off ≠ 0x18 ∧
      off ≠ 0x1C) := by
  revert off
  decide

theorem regAccessOk_iff (width : BusWidth) (off : BitVec 8) :
    regAccessOk width off = true ↔ width = .word ∧ off.toNat % 4 = 0 := by
  simp [regAccessOk]

/-- One input, taken apart. -/
theorem perform_cases {i : Input} {s t : State} (h : perform i s = .next t) : InputEffect s i t := by
  cases i with
  | regWrite width off v =>
    simp only [perform] at h
    split at h
    · rename_i hok
      obtain ⟨rfl, ha⟩ := (regAccessOk_iff width off).mp hok
      rcases regAt_cases off with ⟨rfl, hr⟩ | ⟨rfl, hr⟩ | ⟨rfl, hr⟩ | ⟨rfl, hr⟩ | ⟨rfl, hr⟩ | ⟨rfl, hr⟩ | ⟨rfl, hr⟩ |
        ⟨rfl, hr⟩ | ⟨hr, h0, h1, h2, h3, -⟩ <;> simp only [writeOffset, hr] at h
      · unfold runCommand at h
        split at h
        · rename_i hd
          exact .command hd h
        · rename_i hd
          cases h
          exact .illegal hd
      · cases h; exact .addr
      · cases h; exact .len
      · cases h; exact .status
      · cases h; exact .ignored ha (by decide)
      · cases h; exact .ignored ha (by decide)
      · cases h; exact .ignored ha (by decide)
      · cases h; exact .ignored ha (by decide)
      · cases h
        refine .ignored ha ?_
        have hn : ∀ n : Nat, n < 256 → off ≠ BitVec.ofNat 8 n → off.toNat ≠ n := fun n hn hne he =>
          hne (BitVec.eq_of_toNat_eq (by rw [he, BitVec.toNat_ofNat, Nat.mod_eq_of_lt hn]))
        have := hn 0 (by omega) h0
        have := hn 4 (by omega) h1
        have := hn 8 (by omega) h2
        have := hn 12 (by omega) h3
        omega
    · cases h
  | regRead width off =>
    simp only [perform] at h
    split at h
    · rename_i hok
      obtain ⟨rfl, ha⟩ := (regAccessOk_iff width off).mp hok
      cases h
      exact .read ha
    · cases h
  | memWrite a b =>
    simp only [perform] at h
    split at h
    · cases h; exact .memWrite ‹_›
    · cases h
  | memRead a =>
    simp only [perform] at h
    split at h
    · cases h; exact .memRead ‹_›
    · cases h
  | powerOn =>
    cases h
    exact .powerOn

/-- One step, taken apart: with no input it waits; otherwise it carries out the first one. -/
theorem step_cases {s t : State} (h : step s = .next t) :
    (s.inputs = [] ∧ t = s) ∨ ∃ i rest, s.inputs = i :: rest ∧ InputEffect { s with inputs := rest } i t := by
  unfold step takeInput at h
  split at h
  · rename_i hi
    cases h
    exact .inl ⟨hi, rfl⟩
  · rename_i i rest hi
    exact .inr ⟨i, rest, hi, perform_cases h⟩

/-- A step with an input pending is that input carried out. -/
theorem step_of_inputs {s : State} {i : Input} {rest : List Input} (h : s.inputs = i :: rest) :
    step s = perform i { s with inputs := rest } := by
  rw [step, takeInput, h]

end Sys2Proof.Machine
end

