-- ==== Sys2Proof/Laws/Streaming.lean ====
section
/-! SUPPORT. What a context that has absorbed a message looks like, however the message was cut, and the digest it then
finishes with (spec/41_hasher.md R145, R147; spec/42_hmac.md R171). -/

namespace Sys2Proof.Machine

/-- The whole-block part of a message and what is left of it. -/
def wholePart (m : List Byte) : List Byte := m.take (64 * (m.length / 64))

@[inherit_doc wholePart]
def restPart (m : List Byte) : List Byte := m.drop (64 * (m.length / 64))

theorem wholePart_append_restPart (m : List Byte) : wholePart m ++ restPart m = m := List.take_append_drop ..

theorem wholePart_length (m : List Byte) : (wholePart m).length = 64 * (m.length / 64) := by
  rw [wholePart, List.length_take]
  omega

theorem restPart_length (m : List Byte) : (restPart m).length = m.length % 64 := by
  rw [restPart, List.length_drop]
  omega

/-- Only the whole-block part of a message matters to its blocks. -/
theorem wholeBlocks_append_rest (m s : List Byte) :
    wholeBlocks (m ++ s) = wholeBlocks m ++ wholeBlocks (restPart m ++ s) := by
  have h0 : (wholePart m).length % 64 = 0 := by
    rw [wholePart_length]
    omega
  have hw : wholeBlocks m = wholeBlocks (wholePart m) := by
    conv_lhs => rw [← wholePart_append_restPart m]
    rw [wholeBlocks_append h0, wholeBlocks_small (m := restPart m) (by rw [restPart_length]; omega), List.append_nil]
  rw [hw, ← wholeBlocks_append h0, ← List.append_assoc, wholePart_append_restPart]

theorem restPart_append_rest (m s : List Byte) : restPart (restPart m ++ s) = restPart (m ++ s) := by
  have hm : m ++ s = wholePart m ++ (restPart m ++ s) := by rw [← List.append_assoc, wholePart_append_restPart]
  have hlen : (m ++ s).length = 64 * (m.length / 64) + (restPart m ++ s).length := by
    rw [hm, List.length_append, wholePart_length]
  have hdiv : (m ++ s).length / 64 = m.length / 64 + (restPart m ++ s).length / 64 := by
    rw [hlen, Nat.mul_add_div (by decide)]
  have hk : 64 * ((m ++ s).length / 64) = (wholePart m).length + 64 * ((restPart m ++ s).length / 64) := by
    rw [hdiv, wholePart_length, Nat.mul_add]
  conv_rhs => rw [restPart, hk, hm]
  rw [← List.drop_drop, List.drop_left, restPart]

/-- Context `x` has absorbed the message `m` since a reset: it is Active, its chaining state is that of the whole blocks,
and it buffers the rest (R145). -/
structure Absorbed (x : Context) (m : List Byte) : Prop where
  buf_length : x.buf.length = 128
  w_length : x.w.length = 80
  h : x.h = hashBlocks HState.iv (wholeBlocks m)
  buffered : buffered x = restPart m
  bufLen : x.bufLen.toNat = m.length % 64
  count : x.count = BitVec.ofNat 64 m.length
  fin : x.fin = false

theorem Absorbed.lt {x : Context} {m : List Byte} (h : Absorbed x m) : x.bufLen.toNat < 64 := by
  rw [h.bufLen]
  omega

theorem absorbed_ctxReset {x : Context} (h : ctxWf x = true) : Absorbed (ctxReset x) [] := by
  obtain ⟨h1, h2, -⟩ := (ctxWf_iff x).mp h
  exact ⟨h1, h2, rfl, rfl, rfl, rfl, rfl⟩

theorem absorbed_initial : Absorbed Context.initial [] :=
  ⟨initial_buf_length, initial_w_length, rfl, rfl, rfl, rfl, rfl⟩

/-- An update extends the message absorbed (R132, R145). -/
theorem Absorbed.update {x : Context} {m : List Byte} (h : Absorbed x m) (s : List Byte) :
    Absorbed (ctxUpdate x s) (m ++ s) := by
  obtain ⟨q1, q2, q3, q4, q5, q6, q7⟩ := ctxUpdate_spec s h.buf_length h.w_length h.lt
  refine ⟨q6, q7, ?_, ?_, ?_, ?_, q5.trans h.fin⟩
  · rw [q1, h.h, h.buffered, wholeBlocks_append_rest m s, hashBlocks_append]
  · rw [q2, h.buffered]
    exact restPart_append_rest m s
  · rw [q3, h.bufLen, List.length_append]
    omega
  · rw [q4, h.count, List.length_append, BitVec.ofNat_add]

/-- A context that has absorbed `m` finishes with the SHA-1 of `m` (R133, R145, R147). -/
theorem Absorbed.digest {x : Context} {m : List Byte} (h : Absorbed x m) : ctxDigest (ctxFinish x) = sha1Of m := by
  obtain ⟨p1, -⟩ := ctxFinish_spec h.fin h.buf_length h.w_length h.lt
  rw [ctxDigest, sha1Of, p1, h.h, h.buffered, h.bufLen, h.count, wholeBlocks_append_rest m (padding _ _), hashBlocks_append]

@[simp] theorem sha1Of_length (m : List Byte) : (sha1Of m).length = 20 := rfl

/-- The pad HKEY makes of a key is the block key of R171. -/
theorem keyPad_initial (key : List Byte) : keyPad Context.initial key = blockKey key := by
  have hd : ctxDigest (ctxFinish (ctxUpdate Context.initial key)) = sha1Of key := (absorbed_initial.update key).digest
  rw [keyPad, blockKey]
  split
  · rw [hd, putBytes_zeros (by rw [sha1Of_length]; decide)]
  · rw [putBytes_zeros (by omega)]

theorem keyBlock_eq (key : List Byte) (b : Byte) : keyBlock key b = (blockKey key).map (· ^^^ b) := by
  rw [keyBlock, keyPad_initial, xorPad]

theorem blockKey_length (key : List Byte) : (blockKey key).length = 64 := by
  rw [← keyPad_initial, keyPad_length]

/-- A just-keyed context has absorbed its pad (R173). -/
theorem absorbed_keyed (key : List Byte) (b : Byte) :
    Absorbed (ctxUpdate Context.initial (keyBlock key b)) (keyBlock key b) := by
  simpa using absorbed_initial.update (keyBlock key b)

end Sys2Proof.Machine
end

