-- ==== Sys2Proof/Tests/Slice0.lean ====
section
/-! SUPPORT. Tests: words written out from spec/30_encoding.md, results from spec/95_test_vectors.md and the rules' own
examples, one step each; then a witness for the hypotheses of every statement. -/

namespace Sys2Proof.Tests

open Sys2Proof Sys2Proof.Machine

set_option maxRecDepth 100000

/-! ## Helpers -/

/-- The state after an outcome, for projecting; the machine never stops where this is used. -/
def after : Host.Outcome State Fault Refusal → State
  | .next t => t
  | .fault _ => State.resetWith Params.default []
  | .refused _ => State.resetWith Params.default []

/-- Whether an outcome is a next state. -/
def goesOn : Host.Outcome State Fault Refusal → Bool
  | .next _ => true
  | .fault _ => false
  | .refused _ => false

/-- The state a command leaves. -/
def run (i : Instr) (s : State) : State := after (exec i s)

/-- Every command leaves a state. -/
theorem exec_run (i : Instr) (s : State) : exec i s = .next (run i s) := by
  rcases exec_cases i s with ⟨e, -, h⟩ | ⟨t, h, -⟩ <;> simp [run, after, h]

/-- The default machine with memory `m` and operands `a`, `n`. -/
def at' (m : Memory) (a n : Word) : State := { State.resetWith Params.default m with addr := a, len := n }

/-- A small machine: two contexts, two slots, one channel, 256 bytes. -/
def tiny (a n : Word) : State := { State.resetWith ⟨2, 2, 1, 256⟩ [] with addr := a, len := n }

/-- A finished context. -/
def finished : Context := { Context.initial with fin := true }

/-- A context with `n` bytes buffered and counted. -/
def holding (n : Nat) : Context := { Context.initial with bufLen := BitVec.ofNat 7 n, count := BitVec.ofNat 64 n }

/-- A saved state with one block counted. -/
def savedKey : Snapshot :=
  { valid := true, h := HState.iv, bufValid := false, buf := List.replicate 128 0, bufLen := 0, count := 64 }

/-- A channel in state Open. -/
def openChan : Channel :=
  { inn := { Context.initial with count := 64 }, out := { Context.initial with count := 64 }, ikey := savedKey,
    okey := savedKey, keyed := true, done := false }

/-- A channel in state Done. -/
def doneChan : Channel :=
  { openChan with inn := { openChan.inn with fin := true }, out := { openChan.out with fin := true }, done := true }

/-- `s` with context 0 replaced. -/
def withCtx (x : Context) (s : State) : State := { s with ctx := s.ctx.set 0 x }

/-- `s` with slot 1 replaced. -/
def withSnap (p : Snapshot) (s : State) : State := { s with snap := s.snap.set 1 p }

/-- `s` with channel 0 replaced. -/
def withChan (ch : Channel) (s : State) : State := { s with hm := s.hm.set 0 ch }

/-- `s` with one input pending. -/
def given (i : Input) (s : State) : State := { s with inputs := [i] }

/-! ## Decoding, from the fields of R81 bit by bit -/

theorem test_decode_nop : decode .default 0b00000000_0000_0000_0000000000000000#32 = .ok .nop := by decide
theorem test_decode_reset : decode .default 0b00000001_0011_0000_0000000000000000#32 = .ok (.reset 3) := by decide
theorem test_decode_update : decode .default 0b00000010_0001_0000_0000000000000000#32 = .ok (.update 1) := by decide
theorem test_decode_finish : decode .default 0b00000011_0011_0000_0000000000000000#32 = .ok (.finish 3) := by decide
theorem test_decode_save : decode .default 0b00000100_0010_0011_0000000000000000#32 = .ok (.save 2 3) := by decide
theorem test_decode_restore : decode .default 0b00000101_0000_0001_0000000000000000#32 = .ok (.restore 0 1) := by decide
theorem test_decode_clean : decode .default 0b00000110_0001_0000_0000000000000000#32 = .ok (.clean 1) := by decide
theorem test_decode_sclr : decode .default 0b00000111_0000_0010_0000000000000000#32 = .ok (.sclr 2) := by decide
theorem test_decode_pblk : decode .default 0b00010000_0010_0000_0000000000000000#32 = .ok (.pblk 2) := by decide
theorem test_decode_sread : decode .default 0b00010001_0010_0000_0000000000000000#32 = .ok (.sread 2) := by decide
theorem test_decode_hkey : decode .default 0b00100000_0001_0000_0000000000000000#32 = .ok (.hkey 1) := by decide
theorem test_decode_hupd : decode .default 0b00100001_0001_0000_0000000000000000#32 = .ok (.hupd 1) := by decide
theorem test_decode_hfin : decode .default 0b00100010_0001_0000_0000000000000000#32 = .ok (.hfin 1) := by decide
theorem test_decode_hrst : decode .default 0b00100011_0001_0000_0000000000000000#32 = .ok (.hrst 1) := by decide
theorem test_decode_hcln : decode .default 0b00100100_0001_0000_0000000000000000#32 = .ok (.hcln 1) := by decide
theorem test_decode_srst : decode .default 0b00110000_0000_0000_0000000000000000#32 = .ok .srst := by decide

/-- R88: the same word, with two parameter sets. -/
theorem test_decode_depends_on_parameters :
    decode .default 0x01400000 = .error .contextRange ∧ decode ⟨16, 4, 2, 65536⟩ 0x01400000 = .ok (.reset 4) := by decide

/-- A word for each reason to refuse, in the order of R85. -/
theorem test_decode_refuses :
    decode .default 0x08000000 = .error .reservedOpcode ∧ decode .default 0x31F00001 = .error .reservedOpcode ∧
    decode .default 0x01F00001 = .error .nonzeroRsv ∧ decode .default 0x00100000 = .error .nonzeroX ∧
    decode .default 0x01010000 = .error .nonzeroY ∧ decode .default 0x04440000 = .error .contextRange ∧
    decode .default 0x20200000 = .error .channelRange ∧ decode .default 0x07040000 = .error .slotRange := by decide

/-- The table's numbering: the word, low bits first. -/
theorem test_decodeTableWord : decodeTableWord 32 0x04230000 = some (.save 2 3) ∧ decodeTableWord 32 0x04230001 = none ∧
    decodeTableWord 33 0 = none := by decide

/-! ## Well-formedness: an ill-formed command for each check -/

theorem test_wf_refuses_context : (Instr.update 4).ctxOk .default = false ∧ (Instr.update 3).ctxOk .default = true ∧
    (Instr.update 4).wf .default = false := by decide
theorem test_wf_refuses_channel : (Instr.hupd 2).chanOk .default = false ∧ (Instr.hupd 1).chanOk .default = true ∧
    (Instr.hupd 2).wf .default = false := by decide
theorem test_wf_refuses_slot : (Instr.save 0 4).slotOk .default = false ∧ (Instr.save 0 3).slotOk .default = true ∧
    (Instr.save 0 4).wf .default = false := by decide

/-! ## Operations -/

/-- V-R1 to V-R4. -/
theorem test_rotl : rotl 0x80000001 1 = 0x00000003 ∧ rotl 0x12345678 5 = 0x468ACF02 ∧ rotl 1 30 = 0x40000000 ∧
    rotl 0xFFFFFFFF 30 = 0xFFFFFFFF := by decide

/-- V-R6 to V-R8. -/
theorem test_roundF :
    roundF 19 0xFFFFFFFF 0x12345678 0x9ABCDEF0 = 0x12345678 ∧ roundF 20 0 0x12345678 0x9ABCDEF0 = 0x88888888 ∧
    roundF 40 0 0x12345678 0x9ABCDEF0 = 0x12345670 ∧ roundF 59 0xF0F0F0F0 0xFF00FF00 0x0F0F0F0F = 0xFF00FF00 ∧
    roundF 60 0xF0F0F0F0 0xFF00FF00 0x0F0F0F0F = 0x00FF00FF ∧ roundF 0 0xF0F0F0F0 0xFF00FF00 0x0F0F0F0F = 0xFF0FFF0F := by
  decide

/-- The order of bytes in a word (R65). -/
theorem test_byte_order : be32 0x12345678 = [0x12, 0x34, 0x56, 0x78] ∧ loadBE32 [0, 0x12, 0x34, 0x56, 0x78] 1 = 0x12345678 := by
  decide

/-- The canonical form: zero bytes are not listed, the rest stands in order. -/
theorem test_memory_canonical :
    writeByte (writeByte (writeByte [] 7 1) 3 2) 7 0 = [(3, 2)] ∧ writeByte (writeByte [] 7 1) 3 2 = [(3, 2), (7, 1)] ∧
    Memory.wf [(3, 2), (7, 1)] = true ∧ Memory.wf [(7, 1), (3, 2)] = false ∧ Memory.wf [(3, 0)] = false ∧
    State.reset.dmem.wf = true := by decide

/-- V-B5: length fields of long messages (R148). -/
theorem test_lengthField : lengthField 0x100000000 = [0, 0, 0, 8, 0, 0, 0, 0] ∧
    lengthField 0x2000000000000003 = [0, 0, 0, 0, 0, 0, 0, 0x18] ∧
    lengthField 0xFFFFFFFFFFFFFFFF = [0xFF, 0xFF, 0xFF, 0xFF, 0xFF, 0xFF, 0xFF, 0xF8] := by decide

/-- V-C3: every final addition wraps. -/
theorem test_compress_wraps :
    compressH ⟨0xFFFFFFFF, 0xFFFFFFFF, 0xFFFFFFFF, 0xFFFFFFFF, 0xFFFFFFFF⟩ (List.replicate 64 0xFF) =
      ⟨0x3F48159B, 0x2DCE51FA, 0x8A1E930A, 0x02083B68, 0xEF70D6E8⟩ := by decide

/-! ## Commands, one step each -/

/-- R200: NOP after a raise gives `STATUS = 0x100`. -/
theorem test_nop : statusWord (run .nop (raise .misuse (tiny 0 0))) = 0x00000100 := by decide

/-- R138: a finished context is Active again. -/
theorem test_reset : (run (.reset 0) (withCtx finished (tiny 0 0))).ctx[0]? = some Context.initial := by decide

/-- V-B3 step 1 in small: three bytes of `DMEM[i] = i` from address 1. -/
theorem test_update :
    ((run (.update 1) (at' [(1, 1), (2, 2), (3, 3), (4, 4)] 1 3)).ctx[1]?).map (fun x =>
      (x.buf.take 4, x.bufLen, x.count)) = some ([1, 2, 3, 0], 3, 3) := by decide

/-- V-B4d, V-B4e: no wrap in the bounds check; `MISUSE` before `BOUNDS`. -/
theorem test_update_raises : (run (.update 0) (at' [] 0xFFFFFFFF 2)).code = .bounds ∧
    (run (.update 0) (withCtx finished (at' [] 0x10000 5))).code = .misuse := by decide

/-- V-K1: SHA-1 of the empty message. -/
theorem test_finish_empty : memRead (run (.finish 0) (at' [] 0x100 20)).dmem 0x100 20 =
    [0xda, 0x39, 0xa3, 0xee, 0x5e, 0x6b, 0x4b, 0x0d, 0x32, 0x55, 0xbf, 0xef, 0x95, 0x60, 0x18, 0x90, 0xaf, 0xd8, 0x07,
      0x09] := by decide

/-- V-B4g, V-B4h: `OUTBUF` before `BOUNDS`. -/
theorem test_finish_raises : (run (.finish 1) (at' [] 0x10000 4)).code = .outbuf ∧
    (run (.finish 1) (at' [] 0xFFED 20)).code = .bounds := by decide

/-- R135: nothing buffered, no buffer carried. -/
theorem test_save : (run (.save 0 1) (withCtx { holding 0 with buf := List.replicate 128 9 } (tiny 0 0))).snap[1]? =
    some { savedKey with count := 0 } := by decide

/-- R141: a finished context is not saved. -/
theorem test_save_raises : (run (.save 0 1) (withCtx finished (tiny 0 0))).code = .misuse ∧
    (run (.save 0 1) (withCtx finished (tiny 0 0))).snap[1]? = some Snapshot.empty := by decide

/-- R136: a finished context becomes Active with the slot's counters. -/
theorem test_restore :
    ((run (.restore 0 1) (withSnap savedKey (withCtx finished (tiny 0 0)))).ctx[0]?).map (fun x => (x.count, x.fin)) =
      some (64, false) := by decide

/-- R142: an empty slot. -/
theorem test_restore_raises : (run (.restore 0 1) (tiny 0 0)).code = .snapempty := by decide

/-- R137: everything is wiped. -/
theorem test_clean : (run (.clean 0) (withCtx { finished with buf := List.replicate 128 7, w := List.replicate 80 7 }
    (tiny 0 0))).ctx[0]? = some Context.initial := by decide

/-- R143: the slot is wiped. -/
theorem test_sclr : (run (.sclr 1) (withSnap savedKey (tiny 0 0))).snap[1]? = some Snapshot.empty := by decide

/-- V-X1 in small: one whole block of V-C2, a remainder of 6 bytes not read, `RESULT` one past the block. -/
theorem test_pblk : (fun s : State => (s.ctx[1]?.map fun x => (x.h, x.count), s.result))
    (run (.pblk 1) (at' [(0x240, 0xFF)] 0x200 70)) =
    (some (⟨0x92B404E5, 0x56588CED, 0x6C1ACD4E, 0xBF053F68, 0x09F73A93⟩, 0), 0x240) := by decide

/-- V-X4, V-X5: fewer than 64 bytes; a finished context. -/
theorem test_pblk_small : (run (.pblk 1) (at' [] 0x1234 63)).result = 0x1234 ∧
    (run (.pblk 0) (withCtx finished (at' [] 0 64))).code = .misuse := by decide

/-- V-X8: the last 20 bytes of memory; the chaining state is IV. -/
theorem test_sread : memRead (run (.sread 1) (at' [] 0xFFEC 20)).dmem 0xFFEC 20 =
    [0x67, 0x45, 0x23, 0x01, 0xEF, 0xCD, 0xAB, 0x89, 0x98, 0xBA, 0xDC, 0xFE, 0x10, 0x32, 0x54, 0x76, 0xC3, 0xD2, 0xE1,
      0xF0] := by decide

/-- V-X6, V-X7. -/
theorem test_sread_raises : (run (.sread 1) (at' [] 0 19)).code = .outbuf ∧
    (run (.sread 1) (at' [] 0xFFED 20)).code = .bounds := by decide

/-- R173: a 3-byte key; both contexts have compressed one block and are saved. -/
theorem test_hkey : ((run (.hkey 1) (at' [(0, 0x6B), (1, 0x65), (2, 0x79)] 0 3)).hm[1]?).map (fun ch =>
    (ch.keyed, ch.done, ch.inn.count, ch.out.bufLen, ch.ikey.valid, ch.okey.count)) =
    some (true, false, 64, 0, true, 64) := by decide

/-- R174's example: ten bytes after keying. -/
theorem test_hupd : ((run (.hupd 0) (withChan openChan (at' [] 0x10 10))).hm[0]?).map (fun ch =>
    (ch.inn.count, ch.inn.bufLen)) = some (74, 10) := by decide

/-- R212: an unkeyed channel, and a finished one. -/
theorem test_hupd_raises : (run (.hupd 0) (at' [] 0 0)).code = .nokey ∧
    (run (.hupd 0) (withChan doneChan (at' [] 0 0))).code = .misuse := by decide

/-- R175: a repeated HFIN writes `OUT.H` again. -/
theorem test_hfin_again : memRead (run (.hfin 0) (withChan doneChan (at' [] 8 20))).dmem 8 4 = [0x67, 0x45, 0x23, 0x01] := by
  decide

/-- R213: HFIN on an unkeyed channel with `LEN = 0` raises `NOKEY`. -/
theorem test_hfin_raises : (run (.hfin 0) (at' [] 0 0)).code = .nokey := by decide

/-- R176: a finished channel is open again, with one block counted. -/
theorem test_hrst : ((run (.hrst 0) (withChan doneChan (tiny 0 0))).hm[0]?).map (fun ch =>
    (ch.done, ch.inn.fin, ch.inn.count)) = some (false, false, 64) := by decide

/-- R177's example: after HCLN, HUPD raises `NOKEY`. -/
theorem test_hcln : (run (.hupd 0) (run (.hcln 0) (withChan openChan (tiny 0 0)))).code = .nokey := by decide

/-- R201: SRST wipes contexts and channels, clears `STICKY` and `RESULT`, keeps `ADDR`. -/
theorem test_srst : (fun s : State => (s.ctx[0]?, s.hm[0]?, s.sticky, s.result, s.addr))
    (run .srst (withChan doneChan (withCtx finished { raise .nokey (tiny 5 6) with result := 9 }))) =
    (some Context.initial, some Channel.initial, false, 0, 5) := by decide

/-! ## The host's side -/

/-- R28, R29: the identity registers of the default machine. -/
theorem test_identity_registers : readOffset State.reset 0x14 = 0x53484131 ∧ readOffset State.reset 0x18 = 0x00020404 ∧
    readOffset State.reset 0x1C = 0x00010000 ∧ readOffset State.reset 0xFC = 0 := by decide

/-- R202: a write of `STATUS` with bit 8 clear changes nothing, with bit 8 set clears `STICKY` and keeps `CODE`. -/
theorem test_status_write :
    statusWord (after (step (given (.regWrite .word 0x0C 0xFFFFFEFF) (raise .nokey (tiny 0 0))))) = 0x00000106 ∧
    statusWord (after (step (given (.regWrite .word 0x0C 0x100) (raise .nokey (tiny 0 0))))) = 0x00000006 := by decide

/-- The command placed by `withFetchWord` runs as the next step. -/
theorem test_withFetchWord : (after (step (State.reset.withFetchWord 32 0x05010000))).code = .snapempty ∧
    (after (step (State.reset.withFetchWord 32 0x05010000))).cmd = 0x05010000 ∧
    (after (step (State.reset.withFetchWord 32 0x05010000))).inputs = [] := by decide

/-- R69: no other access of the register block. -/
theorem test_register_access_refused : goesOn (step (given (.regRead .half 0) (tiny 0 0))) = false ∧
    goesOn (step (given (.regWrite .word 0x02 0) (tiny 0 0))) = false := by decide

/-- Text of the assembler: R94's example, a long form, a comment (R89 to R92). -/
theorem test_assemble :
    assembleLine ['S', 'A', 'V', 'E', ' ', 'c', '2', ',', ' ', 's', '3'] = some [.regWrite .word 0x00 0x04230000] ∧
    assembleLine ['H', 'F', 'I', 'N', ' ', 'h', '1', ',', '0', 'x', '4', '0', ',', '2', '0', ' ', '#', 'x'] =
      some [.regWrite .word 0x04 0x40, .regWrite .word 0x08 20, .regWrite .word 0x00 0x22100000] ∧
    assembleLine ['M', 'E', 'M', 'W', ' ', '1', '6', ',', ' ', '"', 'a', '#', '"'] = some [.memWrite 16 0x61, .memWrite 17 0x23] ∧
    assembleLine ['#'] = some [] ∧ assembleLine ['R', 'E', 'S', 'E', 'T', ' ', 'c', '1', '6'] = none := by decide

/-! ## Witnesses: for each statement, states and operands that meet its hypotheses, clause by clause -/

/-- The invariant holds of the small machine with a context, a slot and a channel in every state used below. -/
theorem witness_inv :
    (tiny 0 20).inv = true ∧ (withCtx finished (tiny 0 20)).inv = true ∧ (withSnap savedKey (tiny 0 20)).inv = true ∧
    (withChan openChan (tiny 0 20)).inv = true ∧ (withChan doneChan (tiny 0 20)).inv = true := by decide

theorem witness_DecodeReadsEncodedCommand :
    (Instr.save 15 15).wf ⟨16, 16, 16, 1⟩ = true ∧ (Instr.hcln 1).wf .default = true ∧ Instr.srst.wf .default = true := by
  decide

theorem witness_DecodedWordIsTheEncoding : decode .default 0x04330000 = .ok (.save 3 3) := by decide

theorem witness_DecodeFollowsMaskAndMatch : ∃ r ∈ opcodeMap, (0x05330000 : Word) &&& r.mask = r.matchValue := by decide

/-- Words at the edges of each clause, on the default machine: bad ones, then legal ones. -/
theorem witness_IllegalWordRaisesIllegalOnly :
    (∀ v ∈ ([0x08000000, 0x0F000000, 0x12000000, 0x1F000000, 0x25000000, 0x2F000000, 0x31000000, 0xFF000000, 0x00000001,
      0x01008000, 0x00100000, 0x07100000, 0x30100000, 0x01010000, 0x24010000, 0x01400000, 0x06400000, 0x10400000,
      0x11400000, 0x20200000, 0x24200000, 0x04040000, 0x05040000, 0x07040000] : List Word),
      step (given (.regWrite .word 0x00 v) State.reset) =
        .next { State.reset with cmd := v, code := .illegal, sticky := true }) ∧
    (∀ v ∈ ([0x01300000, 0x06300000, 0x11300000, 0x24100000, 0x04330000, 0x07030000, 0x30000000] : List Word),
      ∃ i, decode State.reset.params v = .ok i) := by
  refine ⟨?_, ?_⟩
  · simp only [List.forall_mem_cons, List.not_mem_nil, false_implies, implies_true, and_true]
    exact ⟨rfl, rfl, rfl, rfl, rfl, rfl, rfl, rfl, rfl, rfl, rfl, rfl, rfl, rfl, rfl, rfl, rfl, rfl, rfl, rfl, rfl, rfl,
      rfl, rfl⟩
  · simp only [List.forall_mem_cons, List.not_mem_nil, false_implies, implies_true, and_true]
    exact ⟨⟨_, rfl⟩, ⟨_, rfl⟩, ⟨_, rfl⟩, ⟨_, rfl⟩, ⟨_, rfl⟩, ⟨_, rfl⟩, ⟨_, rfl⟩⟩

theorem witness_StepRunsTheCommandWritten :
    (given (.regWrite .word 0x00 0x01100000) (tiny 0 0)).inputs = .regWrite .word 0x00 0x01100000 :: [] ∧
    decode (tiny 0 0).params 0x01100000 = .ok (.reset 1) ∧ (0x01100000 : Nat) < 2 ^ 32 ∧
    decode (tiny 0 0).params (BitVec.ofNat 32 0x01100000) = .ok (.reset 1) := by decide

/-- One input for each clause. -/
theorem witness_HostWritesEachRegister :
    ∀ off ∈ ([0x00, 0x04, 0x08, 0x0C, 0x10, 0x14, 0x18, 0x1C] : List (BitVec 8)),
      (given (.regWrite .word off 5) (tiny 0 0)).inputs = .regWrite .word off 5 :: [] := by decide

/-- The first and the last offset of each clause. -/
theorem witness_HostReadsEachRegister : (tiny 0 0).params.inRange = true ∧
    (∀ off ∈ ([0x00, 0x1C, 0x20, 0xFC] : List (BitVec 8)),
      (given (.regRead .word off) (tiny 0 0)).inputs = .regRead .word off :: [] ∧ off.toNat % 4 = 0) ∧
    (∀ off ∈ ([0x20, 0xFC] : List (BitVec 8)), (given (.regWrite .word off 7) (tiny 0 0)).inputs =
      .regWrite .word off 7 :: [] ∧ off.toNat % 4 = 0 ∧ 0x20 ≤ off.toNat) := by decide

theorem witness_IdentityRegistersAreConstant : step (given (.regWrite .word 0x04 5) (tiny 0 0)) = .next (tiny 5 0) := rfl

/-- Each stop occurs. -/
theorem witness_OnlyBadHostAccessesStop :
    step (given (.regRead .byte 0) (tiny 0 0)) = .refused .registerAccess ∧
    step (given (.regWrite .word 0x05 0) (tiny 0 0)) = .refused .registerAccess ∧
    step (given (.memRead 256) (tiny 0 0)) = .fault .noSuchAddress ∧
    step (given (.memWrite 256 1) (tiny 0 0)) = .fault .noSuchAddress := ⟨rfl, rfl, rfl, rfl⟩

/-- The last address of the small machine's memory. -/
theorem witness_HostReadsAndWritesMemory : (tiny 0 0).dmem.wf = true ∧ 255 < (tiny 0 0).dmemSize ∧
    (given (.memWrite 255 1) (tiny 0 0)).inputs = .memWrite 255 1 :: [] ∧
    (given (.memRead 255) (tiny 0 0)).inputs = .memRead 255 :: [] := by decide

theorem witness_EngineWaitsForTheHost : (tiny 0 0).inputs = [] := rfl

theorem witness_ResetLeavesTheSpecValues : Params.inRange ⟨1, 1, 1, 1⟩ = true ∧ Params.inRange ⟨16, 16, 16, 2 ^ 32⟩ = true := by
  decide

theorem witness_PowerOnIsResetButForMemory : (given .powerOn (tiny 0 0)).inputs = .powerOn :: [] := rfl

/-- Every code of the table, and a command with no condition. -/
theorem witness_ErrorsFollowTheTable :
    firstError (tiny 0 0) (.reset 2) = some .illegal ∧ firstError (tiny 0 0) (.hfin 0) = some .nokey ∧
    firstError (tiny 0 0) (.restore 0 0) = some .snapempty ∧
    firstError (withCtx finished (tiny 0 257)) (.update 0) = some .misuse ∧
    firstError (withChan doneChan (tiny 0 257)) (.hupd 0) = some .misuse ∧
    firstError (tiny 256 19) (.finish 0) = some .outbuf ∧ firstError (tiny 237 20) (.sread 0) = some .bounds ∧
    firstError (tiny 0xFFFFFFFF 2) (.hkey 0) = some .bounds ∧ firstError (tiny 236 20) (.finish 0) = none ∧
    firstError (tiny 256 0) (.pblk 0) = none ∧ firstError (tiny 0 0) .srst = none := by decide

/-- A step that raises, three that clear, and one that does neither. -/
theorem witness_StickyIsSetAndClearedAsSaid :
    (∃ t, step (given (.regWrite .word 0x00 0x01200000) (tiny 0 0)) = .next t ∧ t.code ≠ .ok) ∧
    (∃ t, step (given (.regWrite .word 0x0C 0x100) (raise .nokey (tiny 0 0))) = .next t) ∧
    (∃ t, step (given (.regWrite .word 0x00 0x30000000) (raise .nokey (tiny 0 0))) = .next t) ∧
    (∃ t, step (given .powerOn (raise .nokey (tiny 0 0))) = .next t) ∧
    (∃ t, step (given (.regWrite .word 0x00 0) (raise .nokey (tiny 0 0))) = .next t ∧ t.code = .ok ∧ t.sticky = true) :=
  ⟨⟨_, rfl, by decide⟩, ⟨_, rfl⟩, ⟨_, rfl⟩, ⟨_, rfl⟩, ⟨_, rfl, rfl, rfl⟩⟩

/-- A PBLK that completes, one that raises, SRST, and another command. -/
theorem witness_ResultIsWrittenByPblkAndSrst :
    (∃ t, exec (.pblk 0) (tiny 0 10) = .next t ∧ t.code = .ok) ∧
    (∃ t, exec (.pblk 0) (tiny 0 257) = .next t ∧ t.code ≠ .ok) ∧
    (∃ t, exec .srst (tiny 0 0) = .next t) ∧ (∃ t, exec (.reset 0) (tiny 0 0) = .next t) :=
  ⟨⟨_, exec_run _ _, by decide⟩, ⟨_, exec_run _ _, by decide⟩, ⟨_, exec_run _ _⟩, ⟨_, exec_run _ _⟩⟩

/-- SREAD changes the byte at `ADDR`. -/
theorem witness_MemoryIsWrittenByDigestsOnly : ∃ t, exec (.sread 0) (tiny 7 20) = .next t ∧
    readByte t.dmem 7 ≠ readByte (tiny 7 20).dmem 7 := ⟨_, exec_run _ _, by decide⟩

/-- Two memories that differ only outside the input. -/
theorem witness_CommandsReadTheirInputOnly :
    (∀ a, (tiny 3 4).addr.toNat ≤ a → a < (tiny 3 4).addr.toNat + (tiny 3 4).len.toNat →
      readByte [(2, 1), (7, 1)] a = readByte (tiny 3 4).dmem a) ∧ ∃ t, exec (.update 0) (tiny 3 4) = .next t := by
  refine ⟨fun a h1 h2 => ?_, _, exec_run _ _⟩
  have h3 : 3 ≤ a := h1
  have h4 : a < 7 := h2
  have h : a = 3 ∨ a = 4 ∨ a = 5 ∨ a = 6 := by omega
  rcases h with rfl | rfl | rfl | rfl <;> decide

theorem witness_CommandsTouchOnlyWhatTheyName : (∃ t, exec (.save 0 1) (tiny 0 0) = .next t) ∧ Instr.save 0 1 ≠ .srst ∧
    (∃ t, exec (.restore 1 0) (tiny 0 0) = .next t) ∧ (∃ t, exec (.hkey 0) (tiny 0 0) = .next t) :=
  ⟨⟨_, exec_run _ _⟩, by decide, ⟨_, exec_run _ _⟩, ⟨_, exec_run _ _⟩⟩

theorem witness_ScheduleLoadsAndExtends : Context.initial.w.length = 80 ∧ (List.replicate 64 (0 : Byte)).length = 64 := by
  decide

theorem witness_RoundsFollowTheRule : finished.w.length = 80 ∧ (List.replicate 64 (1 : Byte)).length = 64 := by decide

/-- Two contexts with the same `H` and everything else different. -/
theorem witness_CompressDependsOnStateAndBlockOnly :
    Context.initial.w.length = 80 ∧ ({ holding 5 with fin := true, w := List.replicate 80 3 } : Context).w.length = 80 ∧
    (List.replicate 64 (2 : Byte)).length = 64 ∧
    Context.initial.h = ({ holding 5 with fin := true, w := List.replicate 80 3 } : Context).h := by decide

/-- An offset, a remainder, a length below a block, and a sequence that differs in the remainder. -/
theorem witness_ProcessBlocksTakesWholeBlocks : 1 + 127 ≤ (List.replicate 128 (0 : Byte)).length ∧
    128 + 0 ≤ (List.replicate 128 (0 : Byte)).length ∧ 63 < 64 ∧
    (List.replicate 65 (0 : Byte) ++ [1]).take (1 + 64 * (127 / 64)) =
      (List.replicate 128 (0 : Byte)).take (1 + 64 * (127 / 64)) := by decide

/-- Up to the end of memory, and with fewer than 64 bytes. -/
theorem witness_PblkCompressesWholeBlocks :
    (tiny 0 256).ctx[(1 : Idx).toNat]? = some Context.initial ∧ ctxWf Context.initial = true ∧
    Context.initial.fin = false ∧ (tiny 0 256).addr.toNat + (tiny 0 256).len.toNat ≤ (tiny 0 256).dmemSize ∧
    (tiny 193 63).addr.toNat + (tiny 193 63).len.toNat ≤ (tiny 193 63).dmemSize ∧ (tiny 193 63).len.toNat < 64 := by decide

theorem witness_SreadWritesChainingState : (tiny 236 20).dmem.wf = true ∧
    (withCtx finished (tiny 236 20)).ctx[(0 : Idx).toNat]? = some finished ∧ 20 ≤ (tiny 236 20).len.toNat ∧
    (tiny 236 20).addr.toNat + 20 ≤ (tiny 236 20).dmemSize := by decide

theorem witness_ResetReinitialisesContext :
    (withCtx finished (tiny 0 0)).ctx[(0 : Idx).toNat]? = some finished := by decide

theorem witness_CleanWipesContext : (withCtx finished (tiny 0 0)).ctx[(0 : Idx).toNat]? = some finished := by decide

/-- A context with 63 bytes buffered, and input up to the end of memory. -/
theorem witness_UpdateAbsorbsInput :
    (withCtx (holding 63) (tiny 0 256)).ctx[(0 : Idx).toNat]? = some (holding 63) ∧ ctxWf (holding 63) = true ∧
    (holding 63).fin = false ∧ (tiny 0 256).addr.toNat + (tiny 0 256).len.toNat ≤ (tiny 0 256).dmemSize := by decide

/-- An Active and a Finished context. -/
theorem witness_FinishPadsAndWritesDigest : (tiny 236 20).dmem.wf = true ∧
    (withCtx (holding 56) (tiny 236 20)).ctx[(0 : Idx).toNat]? = some (holding 56) ∧ ctxWf (holding 56) = true ∧
    (holding 56).fin = false ∧ (withCtx finished (tiny 236 20)).ctx[(0 : Idx).toNat]? = some finished ∧
    ctxWf finished = true ∧ finished.fin = true ∧ 20 ≤ (tiny 236 20).len.toNat ∧
    (tiny 236 20).addr.toNat + 20 ≤ (tiny 236 20).dmemSize := by decide

/-- Both sides of the 55/56 boundary, and the ends of the range. -/
theorem witness_PaddingLayoutByBufferedBytes :
    ∀ n ∈ [0, 55, 56, 63], ctxWf (holding n) = true ∧ (holding n).fin = false ∧ (holding n).bufLen.toNat = n := by decide

/-- With bytes buffered, and with none. -/
theorem witness_SaveCopiesContextToSlot : (withCtx (holding 1) (tiny 0 0)).ctx[(0 : Idx).toNat]? = some (holding 1) ∧
    (withCtx (holding 1) (tiny 0 0)).snap[(1 : Idx).toNat]? = some Snapshot.empty ∧ (holding 1).fin = false ∧
    (holding 1).bufLen.toNat > 0 ∧ (tiny 0 0).ctx[(0 : Idx).toNat]? = some Context.initial ∧
    Context.initial.fin = false ∧ Context.initial.bufLen.toNat = 0 := by decide

/-- A slot that carries a buffer, and one that does not. -/
theorem witness_RestoreLoadsContextFromSlot : (withSnap savedKey (withCtx finished (tiny 0 0))).ctx[(0 : Idx).toNat]? =
      some finished ∧ (withSnap savedKey (withCtx finished (tiny 0 0))).snap[(1 : Idx).toNat]? = some savedKey ∧
    savedKey.valid = true ∧ savedKey.bufValid = false ∧
    (withSnap (ctxSave (holding 9)) (tiny 0 0)).snap[(1 : Idx).toNat]? = some (ctxSave (holding 9)) ∧
    (ctxSave (holding 9)).valid = true ∧ (ctxSave (holding 9)).bufValid = true := by decide

theorem witness_SclrWipesSlot : (withSnap savedKey (tiny 0 0)).snap[(1 : Idx).toNat]? = some savedKey ∧
    (1 : Idx).toNat < (tiny 0 0).params.nctx := by decide

/-- Each command on an Active context, and on a Finished one. -/
theorem witness_HasherStateMachine :
    (withSnap savedKey (tiny 0 20)).inv = true ∧ (withSnap savedKey (tiny 0 20)).ctx[(0 : Idx).toNat]? = some Context.initial ∧
    (1 : Idx).toNat < (withSnap savedKey (tiny 0 20)).params.nsnap ∧
    (∀ i ∈ [Instr.reset 0, .clean 0, .update 0, .save 0 1, .restore 0 1, .pblk 0, .sread 0],
      (run i (withSnap savedKey (tiny 0 20))).code = .ok) ∧
    (withCtx finished (withSnap savedKey (tiny 0 20))).inv = true ∧
    (∀ i ∈ [Instr.reset 0, .clean 0, .finish 0, .restore 0 1, .sread 0],
      (run i (withCtx finished (withSnap savedKey (tiny 0 20)))).code = .ok) ∧
    (∀ i ∈ [Instr.update 0, .save 0 1, .pblk 0],
      (run i (withCtx finished (withSnap savedKey (tiny 0 20)))).code = .misuse) := by decide

theorem witness_SaveThenRestoreClonesTheHash : (withCtx (holding 63) (tiny 0 0)).inv = true ∧
    (withCtx (holding 63) (tiny 0 0)).ctx[(0 : Idx).toNat]? = some (holding 63) ∧ (holding 63).fin = false ∧
    (1 : Idx).toNat < (withCtx (holding 63) (tiny 0 0)).params.nctx ∧
    (1 : Idx).toNat < (withCtx (holding 63) (tiny 0 0)).params.nsnap := by decide

theorem witness_StreamingDoesNotDependOnChunks : ctxWf finished = true ∧ ctxWf (holding 5) = true ∧
    [[1], [], [2, (3 : Byte)]].flatten = [[1, 2], [(3 : Byte)]].flatten := by decide

/-- A FINISH and an HFIN that completed, repeated on the state they left. -/
theorem witness_RepeatedFinishWritesTheSameDigest :
    (let s := withCtx finished (tiny 236 20)
     s.dmem.wf = true ∧ (run (.finish 0) s).dmem.wf = true ∧ (run (.finish 0) s).code = .ok ∧
     20 ≤ (run (.finish 0) s).len.toNat ∧ (run (.finish 0) s).addr.toNat + 20 ≤ (run (.finish 0) s).dmemSize ∧
     (run (.finish 0) s).ctx[(0 : Idx).toNat]? = (run (.finish 0) s).ctx[(0 : Idx).toNat]?) ∧
    (let s := withChan doneChan (tiny 236 20)
     s.dmem.wf = true ∧ (run (.hfin 0) s).dmem.wf = true ∧ (run (.hfin 0) s).code = .ok ∧
     20 ≤ (run (.hfin 0) s).len.toNat ∧ (run (.hfin 0) s).addr.toNat + 20 ≤ (run (.hfin 0) s).dmemSize ∧
     (run (.hfin 0) s).hm[(0 : Idx).toNat]? = (run (.hfin 0) s).hm[(0 : Idx).toNat]?) := by decide

theorem witness_HkeyKeysChannel : (tiny 0 256).hm[(0 : Idx).toNat]? = some Channel.initial ∧
    (tiny 0 256).addr.toNat + (tiny 0 256).len.toNat ≤ (tiny 0 256).dmemSize := by decide

theorem witness_HupdAbsorbsMessage : (withChan openChan (tiny 0 256)).hm[(0 : Idx).toNat]? = some openChan ∧
    chanWf openChan = true ∧ openChan.keyed = true ∧ openChan.inn.fin = false ∧
    (tiny 0 256).addr.toNat + (tiny 0 256).len.toNat ≤ (tiny 0 256).dmemSize := by decide

/-- An Open and a Done channel. -/
theorem witness_HfinWritesMac : (tiny 236 20).dmem.wf = true ∧
    (withChan openChan (tiny 236 20)).hm[(0 : Idx).toNat]? = some openChan ∧ chanWf openChan = true ∧
    openChan.keyed = true ∧ openChan.done = false ∧
    (withChan doneChan (tiny 236 20)).hm[(0 : Idx).toNat]? = some doneChan ∧ chanWf doneChan = true ∧
    doneChan.keyed = true ∧ doneChan.done = true ∧ 20 ≤ (tiny 236 20).len.toNat ∧
    (tiny 236 20).addr.toNat + 20 ≤ (tiny 236 20).dmemSize := by decide

theorem witness_HrstReturnsToKeyedState : (withChan doneChan (tiny 0 0)).hm[(0 : Idx).toNat]? = some doneChan ∧
    chanWf doneChan = true ∧ doneChan.keyed = true := by decide

theorem witness_HclnWipesChannel : (withChan doneChan (tiny 0 0)).hm[(0 : Idx).toNat]? = some doneChan := by decide

/-- Each command in each state of the channel, with the code the rule names; HKEY and the first HFIN below. -/
theorem witness_ChannelStateMachine :
    (tiny 0 20).inv = true ∧ (tiny 0 20).hm[(0 : Idx).toNat]? = some Channel.initial ∧
    (∀ i ∈ [Instr.hupd 0, .hfin 0, .hrst 0], i.chanIdx = some 0 ∧ (run i (tiny 0 20)).code = .nokey) ∧
    (run (.hcln 0) (tiny 0 20)).code = .ok ∧
    (withChan openChan (tiny 0 20)).inv = true ∧ (withChan openChan (tiny 0 20)).hm[(0 : Idx).toNat]? = some openChan ∧
    (∀ i ∈ [Instr.hupd 0, .hrst 0, .hcln 0], (run i (withChan openChan (tiny 0 20))).code = .ok) ∧
    (withChan doneChan (tiny 0 20)).inv = true ∧ (withChan doneChan (tiny 0 20)).hm[(0 : Idx).toNat]? = some doneChan ∧
    (∀ i ∈ [Instr.hfin 0, .hrst 0, .hcln 0], (run i (withChan doneChan (tiny 0 20))).code = .ok) ∧
    (run (.hupd 0) (withChan doneChan (tiny 0 20))).code = .misuse := by decide

@[inherit_doc witness_ChannelStateMachine]
theorem witness_ChannelStateMachine_hkey : (run (.hkey 0) (tiny 0 20)).code = .ok ∧
    (run (.hfin 0) (withChan openChan (tiny 0 20))).code = .ok := ⟨rfl, rfl⟩

theorem witness_LongKeyActsAsItsHash : 64 < (List.replicate 65 (0 : Byte)).length := by decide

/-- Context 0 of the small machine after CLEAN, an UPDATE of 3 bytes, and a change of `LEN`. -/
theorem witness_FinishWritesSha1OfTheMessage :
    ∃ m s t, HashSession 0 m s ∧ m.length = 3 ∧ s.dmem.wf = true ∧ exec (.finish 0) s = .next t ∧ t.code = .ok := by
  have h1 : HashSession 0 [] (run (.clean 0) (tiny 0 3)) := .clean (exec_run _ _) rfl
  have h2 := HashSession.update h1 (exec_run (.update 0) _) (by decide)
  have h3 := HashSession.other (t := { run (.update 0) (run (.clean 0) (tiny 0 3)) with len := 20 }) h2 rfl
  exact ⟨_, _, _, h3, by decide, by decide, exec_run _ _, rfl⟩

/-- RESET starts a session in the invariant. -/
theorem witness_HashSession_reset : HashSession 0 [] (run (.reset 0) (tiny 0 0)) := .reset (s := tiny 0 0) (by decide) (exec_run _ _) rfl

/-- A channel just keyed with 20 bytes. -/
theorem witness_HfinWritesHmacOfTheMessage :
    ∃ key m s t, HmacSession 0 key (some m) s ∧ s.dmem.wf = true ∧ exec (.hfin 0) s = .next t ∧ t.code = .ok := by
  have h1 := HmacSession.key (exec_run (.hkey 0) (tiny 0 20)) rfl
  exact ⟨_, _, _, _, h1, rfl, exec_run _ _, rfl⟩

/-- The last 20 bytes of memory as output, all of memory as message. -/
theorem witness_Sha1StatementHashesMemory :
    ({ tiny 0 0 with inputs := expand (.sha1 1 0 256 236) ++ [] } : State).inv = true ∧
    (1 : Idx).toNat < (tiny 0 0).params.nctx ∧ (0 : Word).toNat + (256 : Word).toNat ≤ (tiny 0 0).dmemSize ∧
    (236 : Word).toNat + 20 ≤ (tiny 0 0).dmemSize := by decide

theorem witness_HmacStatementAuthenticatesMemory :
    ({ tiny 0 0 with inputs := expand (.hmac 0 0 65 65 191 236) ++ [] } : State).inv = true ∧
    (0 : Idx).toNat < (tiny 0 0).params.nhmac ∧ (0 : Word).toNat + (65 : Word).toNat ≤ (tiny 0 0).dmemSize ∧
    (65 : Word).toNat + (191 : Word).toNat ≤ (tiny 0 0).dmemSize ∧ (236 : Word).toNat + 20 ≤ (tiny 0 0).dmemSize := by
  decide

/-- The smallest and the largest parameters, and a memory with its last byte listed. -/
theorem witness_ResetMeetsTheInvariant :
    Params.inRange ⟨1, 1, 1, 1⟩ = true ∧ Params.inRange ⟨16, 16, 16, 2 ^ 32⟩ = true ∧
    Memory.wf [(0, 1), (2 ^ 32 - 1, 255)] = true ∧ Memory.below (2 ^ 32) [(0, 1), (2 ^ 32 - 1, 255)] = true := by decide

theorem witness_EveryStepKeepsTheInvariant : (given (.memWrite 255 9) (withChan openChan (tiny 0 20))).inv = true ∧
    ∃ t, step (given (.memWrite 255 9) (withChan openChan (tiny 0 20))) = .next t := ⟨by decide, _, rfl⟩

/-- Two states that differ in `W` and in `BUF` at `BUFLEN`. -/
theorem witness_HiddenStateIsNeverObserved :
    let x : Context := { holding 5 with w := List.replicate 80 1, buf := List.replicate 5 0 ++ List.replicate 123 7 }
    (withCtx (holding 5) (tiny 0 0)).inv = true ∧ (withCtx x (tiny 0 0)).inv = true ∧
    alike (withCtx (holding 5) (tiny 0 0)) (withCtx x (tiny 0 0)) := by
  have hs : snapAlike Snapshot.empty Snapshot.empty := ⟨rfl, rfl, rfl, rfl, rfl, rfl⟩
  have hc : ctxAlike Context.initial Context.initial := ⟨rfl, rfl, rfl, rfl, rfl⟩
  refine ⟨by decide, by decide, rfl, rfl, rfl, rfl, rfl, rfl, rfl, rfl, rfl, rfl, ?_, ?_, ?_⟩
  · exact .cons ⟨rfl, rfl, rfl, rfl, by decide⟩ (.cons hc .nil)
  · exact .cons hs (.cons hs .nil)
  · exact .cons ⟨hc, hc, hs, hs, rfl, rfl⟩ .nil

end Sys2Proof.Tests
end

section
/-! SUPPORT. The invariant of `State.inv`: it holds after power-on reset, and every update a step makes keeps it. -/

namespace Sys2Proof.Machine

/-! ## The invariant, taken apart -/

theorem inRange_iff (p : Params) : p.inRange = true ↔
    (1 ≤ p.nctx ∧ p.nctx ≤ 16) ∧ (1 ≤ p.nsnap ∧ p.nsnap ≤ 16) ∧ (1 ≤ p.nhmac ∧ p.nhmac ≤ 16) ∧
    1 ≤ p.dmemSize ∧ p.dmemSize ≤ 2 ^ 32 := by
  simp [Params.inRange, and_assoc]

theorem inv_iff (s : State) : s.inv = true ↔
    s.params.inRange = true ∧ (∀ x ∈ s.ctx, ctxWf x = true) ∧ (∀ p ∈ s.snap, snapWf p = true) ∧
    (∀ ch ∈ s.hm, chanWf ch = true) ∧ s.dmem.wf = true ∧ s.dmem.below s.dmemSize = true := by
  simp [State.inv, List.all_eq_true, and_assoc]

theorem ctxWf_of_inv {s : State} {i : Nat} {x : Context} (h : s.inv = true) (hx : s.ctx[i]? = some x) :
    ctxWf x = true := by
  obtain ⟨-, hctx, -⟩ := (inv_iff s).mp h
  exact hctx x (List.mem_of_getElem? hx)

theorem snapWf_of_inv {s : State} {i : Nat} {p : Snapshot} (h : s.inv = true) (hp : s.snap[i]? = some p) :
    snapWf p = true := by
  obtain ⟨-, -, hsnap, -⟩ := (inv_iff s).mp h
  exact hsnap p (List.mem_of_getElem? hp)

theorem chanWf_of_inv {s : State} {i : Nat} {ch : Channel} (h : s.inv = true) (hc : s.hm[i]? = some ch) :
    chanWf ch = true := by
  obtain ⟨-, -, -, hhm, -⟩ := (inv_iff s).mp h
  exact hhm ch (List.mem_of_getElem? hc)

/-- Replacing one element of a file by one that satisfies the file's predicate. -/
theorem forall_mem_set {α : Type} {P : α → Prop} {l : List α} (h : ∀ x ∈ l, P x) (i : Nat) {y : α} (hy : P y) :
    ∀ x ∈ l.set i y, P x := fun x hx =>
  (List.mem_or_eq_of_mem_set hx).elim (h x) fun he => he ▸ hy

/-- The invariant speaks of the three files, the memory and its size only. -/
theorem inv_of_same_files {s t : State} (h : s.inv = true) (hctx : t.ctx = s.ctx) (hsnap : t.snap = s.snap)
    (hhm : t.hm = s.hm) (hsize : t.dmemSize = s.dmemSize) (hmem : t.dmem = s.dmem) : t.inv = true := by
  have hp : t.params = s.params := params_eq s t (by rw [hctx]) (by rw [hsnap]) (by rw [hhm]) hsize
  rw [inv_iff] at h ⊢
  rwa [hp, hctx, hsnap, hhm, hmem, hsize]

/-! ## Power-on reset -/

theorem inv_resetWith {p : Params} {m : Memory} (hp : p.inRange = true) (hm : m.wf = true)
    (hb : m.below p.dmemSize = true) : (State.resetWith p m).inv = true := by
  refine (inv_iff _).mpr ⟨by rwa [params_resetWith], fun x hx => ?_, fun q hq => ?_, fun ch hch => ?_, hm, hb⟩
  · rw [List.eq_of_mem_replicate hx, ctxWf_initial]
  · rw [List.eq_of_mem_replicate hq, snapWf_empty]
  · rw [List.eq_of_mem_replicate hch, chanWf_initial]

theorem inv_powerOn {s : State} (h : s.inv = true) : (powerOn s).inv = true := by
  obtain ⟨hp, -, -, -, hwf, hbelow⟩ := (inv_iff s).mp h
  exact inv_of_same_files (inv_resetWith hp hwf hbelow) rfl rfl rfl rfl rfl

/-! ## The updates of a state -/

theorem inv_raise {s : State} (h : s.inv = true) (e : Code) : (raise e s).inv = true :=
  inv_of_same_files h rfl rfl rfl rfl rfl

theorem inv_complete {s : State} (h : s.inv = true) : (complete s).inv = true :=
  inv_of_same_files h rfl rfl rfl rfl rfl

theorem inv_writeStatus {s : State} (h : s.inv = true) (v : Word) : (writeStatus v s).inv = true := by
  unfold writeStatus
  split
  · exact inv_of_same_files h rfl rfl rfl rfl rfl
  · exact h

theorem inv_setCtx {s : State} (h : s.inv = true) (c : Idx) {x : Context} (hx : ctxWf x = true) :
    (setCtx s c x).inv = true := by
  obtain ⟨hp, hctx, hrest⟩ := (inv_iff s).mp h
  exact (inv_iff _).mpr ⟨by rwa [setCtx_params], forall_mem_set hctx _ hx, hrest⟩

theorem inv_setSnap {s : State} (h : s.inv = true) (k : Idx) {p : Snapshot} (hs : snapWf p = true) :
    (setSnap s k p).inv = true := by
  obtain ⟨hp, hctx, hsnap, hrest⟩ := (inv_iff s).mp h
  exact (inv_iff _).mpr ⟨by rwa [setSnap_params], hctx, forall_mem_set hsnap _ hs, hrest⟩

theorem inv_setChan {s : State} (h : s.inv = true) (k : Idx) {ch : Channel} (hc : chanWf ch = true) :
    (setChan s k ch).inv = true := by
  obtain ⟨hp, hctx, hsnap, hhm, hrest⟩ := (inv_iff s).mp h
  exact (inv_iff _).mpr ⟨by rwa [setChan_params], hctx, hsnap, forall_mem_set hhm _ hc, hrest⟩

/-- Bytes written in bounds keep memory canonical and within its size (R62, R64). -/
theorem inv_putOutput {s : State} (h : s.inv = true) {bs : List Byte} (hb : inBounds s bs.length = true) :
    (putOutput s bs).inv = true := by
  obtain ⟨hp, hctx, hsnap, hhm, hwf, hbelow⟩ := (inv_iff s).mp h
  have hfit : s.addr.toNat + bs.length ≤ s.dmemSize := by simpa [inBounds] using hb
  rw [inv_iff, putOutput_params, putOutput_dmem]
  exact ⟨hp, hctx, hsnap, hhm, wf_memWrite _ _ hwf, below_memWrite _ hbelow hfit⟩

/-- A digest has 20 bytes, so the test of the output form is enough (R62, R134). -/
theorem inv_putDigest {s : State} (h : s.inv = true) (x : Context) (hb : inBounds s 20 = true) :
    (putOutput s (ctxDigest x)).inv = true :=
  inv_putOutput h (by rwa [ctxDigest_length])

theorem inv_writeByte {s : State} (h : s.inv = true) {a : Nat} (b : Byte) (ha : a < s.dmemSize) :
    ({ s with dmem := writeByte s.dmem a b } : State).inv = true := by
  obtain ⟨hp, hctx, hsnap, hhm, hwf, hbelow⟩ := (inv_iff s).mp h
  exact (inv_iff _).mpr ⟨hp, hctx, hsnap, hhm, wf_writeByte _ _ hwf, below_writeByte _ hbelow ha⟩

/-- SRST leaves every context, slot and channel as power-on does (R201). -/
theorem inv_srst {s : State} (h : s.inv = true) :
    ({ s with ctx := s.ctx.map ctxClean, snap := s.snap.map fun _ => Snapshot.empty, hm := s.hm.map cleanChannel,
              result := 0, sticky := false } : State).inv = true := by
  obtain ⟨hp, -, -, -, hmem⟩ := (inv_iff s).mp h
  refine (inv_iff _).mpr ⟨?_, ?_, ?_, ?_, hmem⟩
  · simpa [State.params] using hp
  · simp [ctxWf_initial]
  · simp [snapWf_empty]
  · simp [chanWf_initial]

/-! ## Commands and inputs -/

/-- The effect of a command keeps the invariant. -/
theorem Effect.inv {s t : State} {i : Instr} (he : Effect s i t) (h : s.inv = true) : t.inv = true := by
  cases he with
  | nop => exact h
  | reset hx => exact inv_setCtx h _ (ctxWf_ctxReset (ctxWf_of_inv h hx))
  | update hx _ _ => exact inv_setCtx h _ (ctxWf_ctxUpdate (ctxWf_of_inv h hx) _)
  | finish hx _ hb => exact inv_putDigest (inv_setCtx h _ (ctxWf_ctxFinish (ctxWf_of_inv h hx))) _ hb
  | save hx _ _ => exact inv_setSnap h _ (snapWf_ctxSave (ctxWf_of_inv h hx))
  | restore hx hp _ => exact inv_setCtx h _ (ctxWf_ctxRestore (ctxWf_of_inv h hx) (snapWf_of_inv h hp))
  | clean _ => exact inv_setCtx h _ ctxWf_initial
  | sclr _ => exact inv_setSnap h _ snapWf_empty
  | pblk hx _ _ =>
    exact inv_of_same_files (inv_setCtx h _ (ctxWf_processBlocks (ctxWf_of_inv h hx) _ _ _)) rfl rfl rfl rfl rfl
  | sread _ _ hb => exact inv_putDigest h _ hb
  | hkey _ _ => exact inv_setChan h _ (chanWf_keyChannel _ _)
  | hupd hc hk _ _ => exact inv_setChan h _ (chanWf_updateChannel (chanWf_of_inv h hc) hk _)
  | hfin hc hk _ hb => exact inv_putDigest (inv_setChan h _ (chanWf_finishChannel (chanWf_of_inv h hc) hk)) _ hb
  | hrst hc hk => exact inv_setChan h _ (chanWf_restoreChannel (chanWf_of_inv h hc) hk)
  | hcln _ => exact inv_setChan h _ chanWf_initial
  | srst => exact inv_srst h

/-- Every command keeps the invariant, whether it raises or completes. -/
theorem exec_inv {s t : State} {i : Instr} (h : s.inv = true) (hx : exec i s = .next t) : t.inv = true := by
  rcases exec_cases i s with ⟨e, -, hr⟩ | ⟨u, hr, he⟩ <;> cases hr.symm.trans hx
  · exact inv_raise h e
  · exact inv_complete (he.inv h)

/-- Every input keeps the invariant. -/
theorem InputEffect.inv {s t : State} {i : Input} (he : InputEffect s i t) (h : s.inv = true) : t.inv = true := by
  cases he with
  | @command v _ _ _ hx => exact exec_inv (s := { s with cmd := v }) (inv_of_same_files h rfl rfl rfl rfl rfl) hx
  | @illegal v _ _ => exact inv_raise (s := { s with cmd := v }) (inv_of_same_files h rfl rfl rfl rfl rfl) .illegal
  | addr => exact inv_of_same_files h rfl rfl rfl rfl rfl
  | len => exact inv_of_same_files h rfl rfl rfl rfl rfl
  | status => exact inv_writeStatus h _
  | ignored _ _ => exact h
  | read _ => exact inv_of_same_files h rfl rfl rfl rfl rfl
  | memWrite ha => exact inv_writeByte h _ ha
  | memRead _ => exact inv_of_same_files h rfl rfl rfl rfl rfl
  | powerOn => exact inv_powerOn h

/-! ## The obligations -/

/-- Settles O55: a step waits, or carries out one input, and each input keeps the invariant. -/
theorem everyStepKeepsTheInvariant : Obligations.EveryStepKeepsTheInvariant := by
  intro s t h hstep
  rcases step_cases hstep with ⟨-, rfl⟩ | ⟨i, rest, -, he⟩
  · exact h
  · exact he.inv (inv_of_same_files h rfl rfl rfl rfl rfl)

/-- Settles O54: every context, slot and channel of a reset machine is well formed. -/
theorem resetMeetsTheInvariant : Obligations.ResetMeetsTheInvariant :=
  ⟨inv_resetWith (by decide) rfl rfl, rfl, fun _ _ => inv_resetWith⟩

end Sys2Proof.Machine
end

section
/-! SUPPORT. Hidden state: alike contexts, slots and channels stay alike under every subroutine, alike states raise the
same code or reach alike states, and so no access tells them apart (spec/10_state.md R32, R36, R44). -/

namespace Sys2Proof.Machine

/-! ## Contexts -/

theorem ctxAlike_refl (x : Context) : ctxAlike x x := ⟨rfl, rfl, rfl, rfl, rfl⟩

theorem snapAlike_refl (p : Snapshot) : snapAlike p p := ⟨rfl, rfl, rfl, rfl, rfl, rfl⟩

theorem chanAlike_refl (ch : Channel) : chanAlike ch ch :=
  ⟨ctxAlike_refl _, ctxAlike_refl _, snapAlike_refl _, snapAlike_refl _, rfl, rfl⟩

theorem ctxAlike.fin_eq {x y : Context} (h : ctxAlike x y) : x.fin = y.fin := by
  obtain ⟨-, -, -, hf, -⟩ := h
  exact hf

theorem chanAlike.keyed_eq {a b : Channel} (h : chanAlike a b) : a.keyed = b.keyed := by
  obtain ⟨-, -, -, -, hk, -⟩ := h
  exact hk

theorem chanAlike.out_alike {a b : Channel} (h : chanAlike a b) : ctxAlike a.out b.out := by
  obtain ⟨-, hout, -⟩ := h
  exact hout

/-- The digest is the chaining state's. -/
theorem ctxDigest_alike {x y : Context} (h : ctxAlike x y) : ctxDigest x = ctxDigest y := by
  rw [ctxDigest, ctxDigest, h.1]

theorem ctxReset_alike (x y : Context) : ctxAlike (ctxReset x) (ctxReset y) := ⟨rfl, rfl, rfl, rfl, rfl⟩

/-- An update is a function of `H`, the buffered bytes, `BUFLEN`, `COUNT` and `FIN` (R132). -/
theorem ctxUpdate_alike {x y : Context} (hx : ctxWf x = true) (hy : ctxWf y = true) (h : ctxAlike x y)
    (bs : List Byte) : ctxAlike (ctxUpdate x bs) (ctxUpdate y bs) := by
  obtain ⟨xb, xw, -⟩ := (ctxWf_iff x).mp hx
  obtain ⟨yb, yw, -⟩ := (ctxWf_iff y).mp hy
  obtain ⟨x1, x2, x3, x4, x5, -⟩ := ctxUpdate_spec bs xb xw (ctxWf.lt hx)
  obtain ⟨y1, y2, y3, y4, y5, -⟩ := ctxUpdate_spec bs yb yw (ctxWf.lt hy)
  obtain ⟨hh, hl, hc, hf, hd⟩ := h
  refine ⟨?_, BitVec.eq_of_toNat_eq ?_, ?_, ?_, ?_⟩
  · rw [x1, y1, hh, hd]
  · rw [x3, y3, hl]
  · rw [x4, y4, hc]
  · rw [x5, y5, hf]
  · rw [x2, y2, hd]

/-- The padding goes behind the buffered bytes, which stay (R133). -/
theorem buffered_ctxFinish {x : Context} (hx : ctxWf x = true) : buffered (ctxFinish x) = buffered x := by
  cases hf : x.fin
  · obtain ⟨xb, xw, -⟩ := (ctxWf_iff x).mp hx
    obtain ⟨-, hbuf, hlen, -⟩ := ctxFinish_spec hf xb xw (ctxWf.lt hx)
    rw [buffered, hlen, hbuf, List.append_assoc, List.take_left' (buffered_length xb)]
  · rw [ctxFinish_of_fin hf]

/-- Finishing is a function of `H`, the buffered bytes, `BUFLEN`, `COUNT` and `FIN` (R133). -/
theorem ctxFinish_alike {x y : Context} (hx : ctxWf x = true) (hy : ctxWf y = true) (h : ctxAlike x y) :
    ctxAlike (ctxFinish x) (ctxFinish y) := by
  have hfin := h.fin_eq
  cases hf : x.fin
  · obtain ⟨xb, xw, -⟩ := (ctxWf_iff x).mp hx
    obtain ⟨yb, yw, -⟩ := (ctxWf_iff y).mp hy
    obtain ⟨x1, -, x3, x4, x5, -⟩ := ctxFinish_spec hf xb xw (ctxWf.lt hx)
    obtain ⟨y1, -, y3, y4, y5, -⟩ := ctxFinish_spec (hfin ▸ hf) yb yw (ctxWf.lt hy)
    obtain ⟨hh, hl, hc, -, hd⟩ := h
    refine ⟨?_, ?_, ?_, ?_, ?_⟩
    · rw [x1, y1, hh, hl, hc, hd]
    · rw [x3, y3, hl]
    · rw [x4, y4, hc]
    · rw [x5, y5]
    · rw [buffered_ctxFinish hx, buffered_ctxFinish hy, hd]
  · rwa [ctxFinish_of_fin hf, ctxFinish_of_fin (hfin ▸ hf)]

/-- Whole blocks are compressed into `H` without a look at `BUF` or at what `W` held (R36, R108). -/
theorem processBlocks_alike {x y : Context} (hx : ctxWf x = true) (hy : ctxWf y = true) (h : ctxAlike x y)
    (bs : List Byte) (off n : Nat) :
    ctxAlike (processBlocks x bs off n).1 (processBlocks y bs off n).1 ∧
    (processBlocks x bs off n).2 = (processBlocks y bs off n).2 := by
  obtain ⟨-, xw, -⟩ := (ctxWf_iff x).mp hx
  obtain ⟨-, yw, -⟩ := (ctxWf_iff y).mp hy
  obtain ⟨x1, x2, -, x4, x5, x6, x7⟩ := processBlocks_spec xw bs off n
  obtain ⟨y1, y2, -, y4, y5, y6, y7⟩ := processBlocks_spec yw bs off n
  obtain ⟨hh, hl, hc, hf, hd⟩ := h
  refine ⟨⟨?_, ?_, ?_, ?_, ?_⟩, ?_⟩
  · rw [x2, y2, hh]
  · rw [x5, y5, hl]
  · rw [x6, y6, hc]
  · rw [x7, y7, hf]
  · rw [buffered, buffered, x4, x5, y4, y5]
    exact hd
  · rw [x1, y1]

/-! ## Snapshots -/

/-- The bytes a snapshot carries are the ones the context had buffered (R135). -/
theorem ctxSave_take (x : Context) : (ctxSave x).buf.take (ctxSave x).bufLen.toNat = buffered x := by
  by_cases h : x.bufLen.toNat > 0
  · simp [ctxSave, buffered, h]
  · simp [ctxSave, buffered, show x.bufLen.toNat = 0 by omega]

theorem ctxSave_alike {x y : Context} (h : ctxAlike x y) : snapAlike (ctxSave x) (ctxSave y) := by
  obtain ⟨hh, hl, hc, -, hd⟩ := h
  refine ⟨rfl, hh, ?_, hl, hc, ?_⟩
  · rw [ctxSave, ctxSave, hl]
  · rw [ctxSave_take, ctxSave_take, hd]

/-- A restored context has the snapshot's bytes buffered, whatever the context's own buffer holds (R136). -/
theorem buffered_ctxRestore {p : Snapshot} (hp : snapWf p = true) (x : Context) :
    buffered (ctxRestore x p) = p.buf.take p.bufLen.toNat := by
  obtain ⟨-, -, hv, -⟩ := (snapWf_iff p).mp hp
  by_cases h : p.bufLen.toNat > 0
  · simp [buffered, ctxRestore, hv, h]
  · simp [buffered, show p.bufLen.toNat = 0 by omega]

theorem ctxRestore_alike {p q : Snapshot} (hp : snapWf p = true) (hq : snapWf q = true) (h : snapAlike p q)
    (x y : Context) : ctxAlike (ctxRestore x p) (ctxRestore y q) := by
  obtain ⟨-, hh, -, hl, hc, hd⟩ := h
  exact ⟨hh, hl, hc, rfl, by rw [buffered_ctxRestore hp, buffered_ctxRestore hq, hd]⟩

/-! ## Channels -/

theorem keyChannel_alike (a b : Channel) (key : List Byte) : chanAlike (keyChannel a key) (keyChannel b key) := by
  rw [keyChannel_eq, keyChannel_eq]
  exact chanAlike_refl _

theorem updateChannel_alike {a b : Channel} (ha : chanWf a = true) (hb : chanWf b = true) (h : chanAlike a b)
    (bs : List Byte) : chanAlike (updateChannel a bs) (updateChannel b bs) := by
  obtain ⟨ai, -⟩ := (chanWf_iff a).mp ha
  obtain ⟨bi, -⟩ := (chanWf_iff b).mp hb
  obtain ⟨hin, hrest⟩ := h
  exact ⟨ctxUpdate_alike ai bi hin bs, hrest⟩

theorem finishChannel_alike {a b : Channel} (ha : chanWf a = true) (hb : chanWf b = true) (h : chanAlike a b) :
    chanAlike (finishChannel a) (finishChannel b) := by
  obtain ⟨ai, ao, -⟩ := (chanWf_iff a).mp ha
  obtain ⟨bi, bo, -⟩ := (chanWf_iff b).mp hb
  obtain ⟨hin, hout, hik, hok, hk, hd⟩ := h
  rw [finishChannel, finishChannel, ← hd]
  cases a.done
  · have hi := ctxFinish_alike ai bi hin
    have ho : ctxAlike (ctxUpdate a.out (ctxDigest (ctxFinish a.inn)))
        (ctxUpdate b.out (ctxDigest (ctxFinish b.inn))) := by
      rw [ctxDigest_alike hi]
      exact ctxUpdate_alike ao bo hout _
    exact ⟨hi, ctxFinish_alike (ctxWf_ctxUpdate ao _) (ctxWf_ctxUpdate bo _) ho, hik, hok, hk, rfl⟩
  · exact ⟨hin, hout, hik, hok, hk, hd⟩

theorem restoreChannel_alike {a b : Channel} (ha : chanWf a = true) (hb : chanWf b = true) (h : chanAlike a b) :
    chanAlike (restoreChannel a) (restoreChannel b) := by
  obtain ⟨-, -, ai, ao, -⟩ := (chanWf_iff a).mp ha
  obtain ⟨-, -, bi, bo, -⟩ := (chanWf_iff b).mp hb
  obtain ⟨-, -, hik, hok, hk, -⟩ := h
  exact ⟨ctxRestore_alike ai bi hik _ _, ctxRestore_alike ao bo hok _ _, hik, hok, hk, rfl⟩

end Sys2Proof.Machine
end

section
/-! SUPPORT. What alike states have in common, and the updates that keep them alike. -/

namespace Sys2Proof.Machine

/-! ## Files related element by element -/

theorem forall₂_getElem? {α : Type} {R : α → α → Prop} {l l' : List α} (h : List.Forall₂ R l l') (i : Nat) :
    (l[i]? = none ∧ l'[i]? = none) ∨ ∃ a b, l[i]? = some a ∧ l'[i]? = some b ∧ R a b := by
  induction h generalizing i with
  | nil => exact .inl ⟨rfl, rfl⟩
  | cons hab _ ih =>
    cases i with
    | zero => exact .inr ⟨_, _, rfl, rfl, hab⟩
    | succ i => simpa using ih i

theorem forall₂_set {α : Type} {R : α → α → Prop} {l l' : List α} (h : List.Forall₂ R l l') (i : Nat) {a b : α}
    (hab : R a b) : List.Forall₂ R (l.set i a) (l'.set i b) := by
  induction h generalizing i with
  | nil => exact .nil
  | cons hcd ht ih =>
    cases i with
    | zero => exact .cons hab ht
    | succ i => exact .cons hcd (ih i)

theorem forall₂_map_of_all {α : Type} {R : α → α → Prop} {l l' : List α} (h : List.Forall₂ R l l') {f : α → α}
    (hf : ∀ a b, R (f a) (f b)) : List.Forall₂ R (l.map f) (l'.map f) := by
  induction h with
  | nil => exact .nil
  | cons _ _ ih => exact .cons (hf _ _) ih

theorem forall₂_replicate {α : Type} {R : α → α → Prop} (n : Nat) {a : α} (ha : R a a) :
    List.Forall₂ R (List.replicate n a) (List.replicate n a) :=
  List.forall₂_same.mpr fun b hb => by rwa [List.eq_of_mem_replicate hb]

/-! ## The visible part of a state -/

/-- A state without its three files, where all hidden state lies (R44). Alike states agree on the rest. -/
def visible (s : State) : State := { s with ctx := [], snap := [], hm := [] }

theorem alike_iff {s s' : State} : alike s s' ↔ visible s = visible s' ∧ List.Forall₂ ctxAlike s.ctx s'.ctx ∧
    List.Forall₂ snapAlike s.snap s'.snap ∧ List.Forall₂ chanAlike s.hm s'.hm := by
  simp [alike, visible, and_assoc]

theorem alike.visible_eq {s s' : State} (h : alike s s') : visible s = visible s' := (alike_iff.mp h).1

theorem alike.params_eq {s s' : State} (h : alike s s') : s.params = s'.params := by
  obtain ⟨hv, hctx, hsnap, hhm⟩ := alike_iff.mp h
  exact Sys2Proof.Machine.params_eq s' s hctx.length_eq hsnap.length_eq hhm.length_eq (congrArg State.dmemSize hv :)

theorem alike.inputBytes_eq {s s' : State} (h : alike s s') : inputBytes s = inputBytes s' :=
  (congrArg inputBytes h.visible_eq :)

theorem alike.checkOutput_eq {s s' : State} (h : alike s s') : checkOutput s = checkOutput s' :=
  (congrArg checkOutput h.visible_eq :)

theorem alike.dmem_eq {s s' : State} (h : alike s s') : s.dmem = s'.dmem :=
  (congrArg State.dmem h.visible_eq :)

/-- A host reads the same at every offset (R203). -/
theorem alike.readOffset_eq {s s' : State} (h : alike s s') (off : BitVec 8) : readOffset s off = readOffset s' off := by
  have hreg : ∀ r, regValue s r = regValue s' r := fun r => by
    cases r with
    | cmd => exact (congrArg State.cmd h.visible_eq :)
    | addr => exact (congrArg State.addr h.visible_eq :)
    | len => exact (congrArg State.len h.visible_eq :)
    | status => exact (congrArg statusWord h.visible_eq :)
    | result => exact (congrArg State.result h.visible_eq :)
    | id => rfl
    | cfg => exact congrArg cfgWord h.params_eq
    | dmsz => exact congrArg dmszWord h.params_eq
  unfold readOffset
  cases regAt off with
  | none => rfl
  | some r => exact hreg r

/-! ## Updates that keep states alike -/

/-- An update that neither reads nor writes the three files keeps states alike. -/
theorem alike.update {s s' : State} (h : alike s s') (f : State → State)
    (hf : ∀ u, visible (f u) = f (visible u) ∧ (f u).ctx = u.ctx ∧ (f u).snap = u.snap ∧ (f u).hm = u.hm) :
    alike (f s) (f s') := by
  obtain ⟨hv, hfiles⟩ := alike_iff.mp h
  obtain ⟨v, hctx, hsnap, hhm⟩ := hf s
  obtain ⟨v', hctx', hsnap', hhm'⟩ := hf s'
  rw [alike_iff, v, v', hctx, hctx', hsnap, hsnap', hhm, hhm']
  exact ⟨congrArg f hv, hfiles⟩

theorem alike.raise {s s' : State} (h : alike s s') (e : Code) : alike (raise e s) (raise e s') :=
  h.update (Machine.raise e) fun _ => ⟨rfl, rfl, rfl, rfl⟩

theorem alike.complete {s s' : State} (h : alike s s') : alike (complete s) (complete s') :=
  h.update Machine.complete fun _ => ⟨rfl, rfl, rfl, rfl⟩

theorem alike.putOutput {s s' : State} (h : alike s s') (d : List Byte) : alike (putOutput s d) (putOutput s' d) :=
  h.update (Machine.putOutput · d) fun _ => ⟨rfl, rfl, rfl, rfl⟩

theorem alike.putDigest {s s' : State} (h : alike s s') {x y : Context} (hxy : ctxAlike x y) :
    alike (Machine.putOutput s (ctxDigest x)) (Machine.putOutput s' (ctxDigest y)) := by
  rw [ctxDigest_alike hxy]
  exact h.putOutput _

theorem alike.setCmd {s s' : State} (h : alike s s') (v : Word) : alike { s with cmd := v } { s' with cmd := v } :=
  h.update (fun u => { u with cmd := v }) fun _ => ⟨rfl, rfl, rfl, rfl⟩

theorem alike.writeStatus {s s' : State} (h : alike s s') (v : Word) : alike (writeStatus v s) (writeStatus v s') := by
  unfold Machine.writeStatus
  split
  · exact h.update (fun u => { u with sticky := false }) fun _ => ⟨rfl, rfl, rfl, rfl⟩
  · exact h

theorem alike.setCtx {s s' : State} (h : alike s s') (c : Idx) {x y : Context} (hxy : ctxAlike x y) :
    alike (setCtx s c x) (setCtx s' c y) := by
  obtain ⟨hv, hctx, hrest⟩ := alike_iff.mp h
  exact alike_iff.mpr ⟨hv, forall₂_set hctx _ hxy, hrest⟩

theorem alike.setSnap {s s' : State} (h : alike s s') (k : Idx) {p q : Snapshot} (hpq : snapAlike p q) :
    alike (setSnap s k p) (setSnap s' k q) := by
  obtain ⟨hv, hctx, hsnap, hhm⟩ := alike_iff.mp h
  exact alike_iff.mpr ⟨hv, hctx, forall₂_set hsnap _ hpq, hhm⟩

theorem alike.setChan {s s' : State} (h : alike s s') (k : Idx) {a b : Channel} (hab : chanAlike a b) :
    alike (setChan s k a) (setChan s' k b) := by
  obtain ⟨hv, hctx, hsnap, hhm⟩ := alike_iff.mp h
  exact alike_iff.mpr ⟨hv, hctx, hsnap, forall₂_set hhm _ hab⟩

/-- PBLK writes a context and `RESULT` (R109). -/
theorem alike.setPblk {s s' : State} (h : alike s s') (c : Idx) {x y : Context} (hxy : ctxAlike x y) {n n' : Nat}
    (hn : n = n') :
    alike { Machine.setCtx s c x with result := s.addr + BitVec.ofNat 32 n }
      { Machine.setCtx s' c y with result := s'.addr + BitVec.ofNat 32 n' } := by
  subst hn
  exact (h.setCtx c hxy).update (fun u => { u with result := u.addr + BitVec.ofNat 32 n }) fun _ => ⟨rfl, rfl, rfl, rfl⟩

theorem alike.addSeen {s s' : State} (h : alike s s') {o o' : Observed} (ho : o = o') :
    alike { s with seen := o :: s.seen } { s' with seen := o' :: s'.seen } := by
  subst ho
  exact h.update (fun u => { u with seen := o :: u.seen }) fun _ => ⟨rfl, rfl, rfl, rfl⟩

theorem alike.srst {s s' : State} (h : alike s s') :
    alike
      { s with ctx := s.ctx.map ctxClean, snap := s.snap.map fun _ => Snapshot.empty, hm := s.hm.map cleanChannel,
               result := 0, sticky := false }
      { s' with ctx := s'.ctx.map ctxClean, snap := s'.snap.map fun _ => Snapshot.empty, hm := s'.hm.map cleanChannel,
                result := 0, sticky := false } := by
  obtain ⟨hv, hctx, hsnap, hhm⟩ := alike_iff.mp h
  exact alike_iff.mpr ⟨congrArg (fun u : State => { u with result := 0, sticky := false }) hv,
    forall₂_map_of_all hctx fun _ _ => ctxAlike_refl _, forall₂_map_of_all hsnap fun _ _ => snapAlike_refl _,
    forall₂_map_of_all hhm fun _ _ => chanAlike_refl _⟩

theorem alike.powerOn {s s' : State} (h : alike s s') : alike (powerOn s) (powerOn s') := by
  refine alike_iff.mpr ⟨congrArg Machine.powerOn h.visible_eq, ?_⟩
  rw [Machine.powerOn, Machine.powerOn, h.params_eq]
  exact ⟨forall₂_replicate _ (ctxAlike_refl _), forall₂_replicate _ (snapAlike_refl _),
    forall₂_replicate _ (chanAlike_refl _)⟩

end Sys2Proof.Machine
end

section
/-! SUPPORT. Commands and inputs on alike states, and the obligation on hidden state. -/

namespace Sys2Proof.Machine

/-! ## Two runs of a command side by side -/

/-- Two results of a command's pseudocode: the same code raised, or values related by `R`. -/
inductive Matched {α : Type} (R : α → α → Prop) : Except Code α → Except Code α → Prop
  | ok {a b : α} (h : R a b) : Matched R (.ok a) (.ok b)
  | error (e : Code) : Matched R (.error e) (.error e)

theorem Matched.bind {α β : Type} {R : α → α → Prop} {S : β → β → Prop} {r r' : Except Code α}
    {f g : α → Except Code β} (h : Matched R r r') (hfg : ∀ a b, R a b → Matched S (f a) (g b)) :
    Matched S (r >>= f) (r' >>= g) := by
  cases h with
  | ok hab => exact hfg _ _ hab
  | error e => exact .error e

/-- A test or a read that gives the same on both sides. -/
theorem Matched.bind_eq {α β : Type} {S : β → β → Prop} {r r' : Except Code α} {f g : α → Except Code β}
    (h : r = r') (hfg : ∀ a, Matched S (f a) (g a)) : Matched S (r >>= f) (r' >>= g) := by
  subst h
  cases r with
  | ok a => exact hfg a
  | error e => exact .error e

/-- Two outcomes a host cannot tell apart. -/
inductive SameOutcome : Host.Outcome State Fault Refusal → Host.Outcome State Fault Refusal → Prop
  | next {t t' : State} (h : alike t t') : SameOutcome (.next t) (.next t')
  | fault (f : Fault) : SameOutcome (.fault f) (.fault f)
  | refused (r : Refusal) : SameOutcome (.refused r) (.refused r)

/-- The same test on both sides. -/
theorem SameOutcome.ite {p q : Prop} [Decidable p] [Decidable q] {o₁ o₁' o₂ o₂' : Host.Outcome State Fault Refusal}
    (hpq : p ↔ q) (h₁ : SameOutcome o₁ o₁') (h₂ : SameOutcome o₂ o₂') :
    SameOutcome (if p then o₁ else o₂) (if q then o₁' else o₂') := by
  by_cases hp : p
  · rwa [if_pos hp, if_pos (hpq.mp hp)]
  · rwa [if_neg hp, if_neg (mt hpq.mpr hp)]

theorem settle_alike {s s' : State} {r r' : Except Code State} (h : alike s s') (hr : Matched alike r r') :
    SameOutcome (settle s r) (settle s' r') := by
  cases hr with
  | ok ht => exact .next ht.complete
  | error e => exact .next (h.raise e)

/-! ## Commands -/

section
variable {s s' : State} (hs : s.inv = true) (hs' : s'.inv = true) (h : alike s s')
include hs hs' h

theorem getCtx_alike (c : Idx) :
    Matched (fun x y => ctxWf x = true ∧ ctxWf y = true ∧ ctxAlike x y) (getCtx s c) (getCtx s' c) := by
  obtain ⟨-, hctx, -⟩ := alike_iff.mp h
  rcases forall₂_getElem? hctx c.toNat with ⟨hn, hn'⟩ | ⟨x, y, hx, hy, hxy⟩
  · rw [getCtx, getCtx, hn, hn']
    exact .error _
  · rw [getCtx, getCtx, hx, hy]
    exact .ok ⟨ctxWf_of_inv hs hx, ctxWf_of_inv hs' hy, hxy⟩

theorem getSnap_alike (k : Idx) :
    Matched (fun p q => snapWf p = true ∧ snapWf q = true ∧ snapAlike p q) (getSnap s k) (getSnap s' k) := by
  obtain ⟨-, -, hsnap, -⟩ := alike_iff.mp h
  rcases forall₂_getElem? hsnap k.toNat with ⟨hn, hn'⟩ | ⟨p, q, hp, hq, hpq⟩
  · rw [getSnap, getSnap, hn, hn']
    exact .error _
  · rw [getSnap, getSnap, hp, hq]
    exact .ok ⟨snapWf_of_inv hs hp, snapWf_of_inv hs' hq, hpq⟩

theorem getChan_alike (k : Idx) :
    Matched (fun a b => chanWf a = true ∧ chanWf b = true ∧ chanAlike a b) (getChan s k) (getChan s' k) := by
  obtain ⟨-, -, -, hhm⟩ := alike_iff.mp h
  rcases forall₂_getElem? hhm k.toNat with ⟨hn, hn'⟩ | ⟨a, b, ha, hb, hab⟩
  · rw [getChan, getChan, hn, hn']
    exact .error _
  · rw [getChan, getChan, ha, hb]
    exact .ok ⟨chanWf_of_inv hs ha, chanWf_of_inv hs' hb, hab⟩

/-- A command raises the same code on alike states, or leaves alike states: its pseudocode is followed on both sides, since
`exec_cases` does not say which code is raised. -/
theorem exec_alike (i : Instr) : SameOutcome (exec i s) (exec i s') := by
  cases i with
  | nop => exact settle_alike h (.ok h)
  | reset c =>
    exact settle_alike h ((getCtx_alike hs hs' h c).bind fun x y _ => .ok (h.setCtx c (ctxReset_alike x y)))
  | update c =>
    refine settle_alike h ((getCtx_alike hs hs' h c).bind fun x y ⟨hx, hy, hxy⟩ => ?_)
    refine .bind_eq (by rw [hxy.fin_eq]) fun _ => .bind_eq h.inputBytes_eq fun bs => ?_
    exact .ok (h.setCtx c (ctxUpdate_alike hx hy hxy bs))
  | finish c =>
    refine settle_alike h ((getCtx_alike hs hs' h c).bind fun x y ⟨hx, hy, hxy⟩ => .bind_eq h.checkOutput_eq fun _ => ?_)
    have hfin := ctxFinish_alike hx hy hxy
    exact .ok ((h.setCtx c hfin).putDigest hfin)
  | save c k =>
    refine settle_alike h ((getCtx_alike hs hs' h c).bind fun x y ⟨_, _, hxy⟩ => ?_)
    refine (getSnap_alike hs hs' h k).bind fun _ _ _ => .bind_eq (by rw [hxy.fin_eq]) fun _ => ?_
    exact .ok (h.setSnap k (ctxSave_alike hxy))
  | restore c k =>
    refine settle_alike h ((getCtx_alike hs hs' h c).bind fun x y _ => ?_)
    refine (getSnap_alike hs hs' h k).bind fun p q ⟨hp, hq, hpq⟩ => .bind_eq (by rw [hpq.1]) fun _ => ?_
    exact .ok (h.setCtx c (ctxRestore_alike hp hq hpq x y))
  | clean c =>
    exact settle_alike h ((getCtx_alike hs hs' h c).bind fun _ _ _ => .ok (h.setCtx c (ctxAlike_refl _)))
  | sclr k =>
    exact settle_alike h ((getSnap_alike hs hs' h k).bind fun _ _ _ => .ok (h.setSnap k (snapAlike_refl _)))
  | pblk c =>
    refine settle_alike h ((getCtx_alike hs hs' h c).bind fun x y ⟨hx, hy, hxy⟩ => ?_)
    refine .bind_eq (by rw [hxy.fin_eq]) fun _ => .bind_eq h.inputBytes_eq fun bs => ?_
    obtain ⟨hctx, hoff⟩ := processBlocks_alike hx hy hxy bs 0 bs.length
    exact .ok (h.setPblk c hctx hoff)
  | sread c =>
    refine settle_alike h ((getCtx_alike hs hs' h c).bind fun x y ⟨_, _, hxy⟩ => .bind_eq h.checkOutput_eq fun _ => ?_)
    exact .ok (h.putDigest hxy)
  | hkey k =>
    refine settle_alike h ((getChan_alike hs hs' h k).bind fun a b _ => .bind_eq h.inputBytes_eq fun key => ?_)
    exact .ok (h.setChan k (keyChannel_alike a b key))
  | hupd k =>
    refine settle_alike h ((getChan_alike hs hs' h k).bind fun a b ⟨ha, hb, hab⟩ => ?_)
    refine .bind_eq (by rw [hab.keyed_eq]) fun _ => .bind_eq (by rw [hab.1.fin_eq]) fun _ => ?_
    refine .bind_eq h.inputBytes_eq fun bs => ?_
    exact .ok (h.setChan k (updateChannel_alike ha hb hab bs))
  | hfin k =>
    refine settle_alike h ((getChan_alike hs hs' h k).bind fun a b ⟨ha, hb, hab⟩ => ?_)
    refine .bind_eq (by rw [hab.keyed_eq]) fun _ => .bind_eq h.checkOutput_eq fun _ => ?_
    have hfin := finishChannel_alike ha hb hab
    exact .ok ((h.setChan k hfin).putDigest hfin.out_alike)
  | hrst k =>
    refine settle_alike h ((getChan_alike hs hs' h k).bind fun a b ⟨ha, hb, hab⟩ => ?_)
    exact .bind_eq (by rw [hab.keyed_eq]) fun _ => .ok (h.setChan k (restoreChannel_alike ha hb hab))
  | hcln k =>
    exact settle_alike h ((getChan_alike hs hs' h k).bind fun _ _ _ => .ok (h.setChan k (chanAlike_refl _)))
  | srst => exact settle_alike h (.ok h.srst)

/-! ## Inputs -/

theorem runCommand_alike (v : Word) : SameOutcome (runCommand v s) (runCommand v s') := by
  unfold runCommand
  rw [← h.params_eq]
  cases decode s.params v with
  | ok i =>
    exact exec_alike (s := { s with cmd := v }) (s' := { s' with cmd := v }) (inv_of_same_files hs rfl rfl rfl rfl rfl)
      (inv_of_same_files hs' rfl rfl rfl rfl rfl) (h.setCmd v) i
  | error e => exact settle_alike (h.setCmd v) (.error _)

theorem writeOffset_alike (off : BitVec 8) (v : Word) : SameOutcome (writeOffset off v s) (writeOffset off v s') := by
  unfold writeOffset
  cases regAt off with
  | none => exact .next h
  | some r =>
    cases r with
    | cmd => exact runCommand_alike hs hs' h v
    | addr => exact .next (h.update (fun u => { u with addr := v }) fun _ => ⟨rfl, rfl, rfl, rfl⟩)
    | len => exact .next (h.update (fun u => { u with len := v }) fun _ => ⟨rfl, rfl, rfl, rfl⟩)
    | status => exact .next (h.writeStatus v)
    | result => exact .next h
    | id => exact .next h
    | cfg => exact .next h
    | dmsz => exact .next h

theorem perform_alike (i : Input) : SameOutcome (perform i s) (perform i s') := by
  have hsize : s.dmemSize = s'.dmemSize := congrArg Params.dmemSize h.params_eq
  cases i with
  | regWrite width off v => exact .ite Iff.rfl (writeOffset_alike hs hs' h off v) (.refused _)
  | regRead width off =>
    exact .ite Iff.rfl (.next (h.addSeen (congrArg (Observed.reg off) (h.readOffset_eq off)))) (.refused _)
  | memWrite a b =>
    refine .ite (by rw [hsize]) (.next ?_) (.fault _)
    exact h.update (fun u => { u with dmem := writeByte u.dmem a b }) fun _ => ⟨rfl, rfl, rfl, rfl⟩
  | memRead a => exact .ite (by rw [hsize]) (.next (h.addSeen (by rw [h.dmem_eq]))) (.fault _)
  | powerOn => exact .next h.powerOn

theorem step_alike : SameOutcome (step s) (step s') := by
  have hin : s.inputs = s'.inputs := (congrArg State.inputs h.visible_eq :)
  unfold step takeInput
  rw [hin]
  cases s'.inputs with
  | nil => exact .next h
  | cons i rest =>
    exact perform_alike (s := { s with inputs := rest }) (s' := { s' with inputs := rest })
      (inv_of_same_files hs rfl rfl rfl rfl rfl) (inv_of_same_files hs' rfl rfl rfl rfl rfl)
      (h.update (fun u => { u with inputs := rest }) fun _ => ⟨rfl, rfl, rfl, rfl⟩) i

end

/-- Settles O56: every access has the same outcome on alike states of the invariant. -/
theorem hiddenStateIsNeverObserved : Obligations.HiddenStateIsNeverObserved := by
  intro s s' hs hs' h
  have hsame := step_alike hs hs' h
  generalize step s = o, step s' = o' at hsame
  cases hsame with
  | next ht => exact ⟨fun t he => ⟨_, rfl, by cases he; exact ht⟩, nofun, nofun⟩
  | fault f => exact ⟨nofun, nofun, fun _ he => he⟩
  | refused r => exact ⟨nofun, fun _ he => he, nofun⟩

end Sys2Proof.Machine
end

section
/-! SUPPORT. What commands and steps leave alone on the host's side, what writes `RESULT`, the command a step runs, and the
registers after reset. -/

namespace Sys2Proof.Machine

/-! ## The host's side -/

/-- The effect of a command reaches the files, `RESULT`, `STATUS` and `DMEM` only. -/
theorem Effect.keepsHostSide {s t : State} {i : Instr} (he : Effect s i t) : keepsHostSide s t := by
  cases he with
  | pblk _ _ _ => exact ⟨rfl, rfl, rfl, setCtx_params .., rfl, rfl⟩
  | srst => exact ⟨rfl, rfl, rfl, by simp [State.params], rfl, rfl⟩
  | nop | reset | update | finish | save | restore | clean | sclr | sread | hkey | hupd | hfin | hrst | hcln =>
    simp [Machine.keepsHostSide]

theorem exec_keepsHostSide (i : Instr) (s : State) : ∃ t, exec i s = .next t ∧ keepsHostSide s t := by
  rcases exec_cases i s with ⟨e, -, hr⟩ | ⟨t, hr, he⟩
  · exact ⟨_, hr, rfl, rfl, rfl, rfl, rfl, rfl⟩
  · exact ⟨_, hr, he.keepsHostSide⟩

theorem exec_params {i : Instr} {s t : State} (h : exec i s = .next t) : t.params = s.params := by
  obtain ⟨u, hu, -, -, -, hp, -⟩ := exec_keepsHostSide i s
  cases hu.symm.trans h
  exact hp

theorem writeStatus_params (v : Word) (s : State) : (writeStatus v s).params = s.params := by
  unfold writeStatus
  split <;> rfl

/-- No input changes a parameter (R7, R29). -/
theorem InputEffect.params {s t : State} {i : Input} (he : InputEffect s i t) : t.params = s.params := by
  cases he with
  | @command v _ _ _ hx => exact exec_params (s := { s with cmd := v }) hx
  | powerOn => exact params_resetWith s.params s.dmem
  | status => exact writeStatus_params ..
  | illegal | addr | len | ignored | read | memWrite | memRead => rfl

theorem step_params {s t : State} (h : step s = .next t) : t.params = s.params := by
  rcases step_cases h with ⟨-, rfl⟩ | ⟨i, rest, -, he⟩
  · rfl
  · exact he.params

theorem readOffset_id (s : State) : readOffset s 0x14 = idWord := rfl
theorem readOffset_cfg (s : State) : readOffset s 0x18 = cfgWord s.params := rfl
theorem readOffset_dmsz (s : State) : readOffset s 0x1C = dmszWord s.params := rfl

/-! ## `RESULT` -/

/-- The block loop ends one past the last whole block, on every context (R108). -/
theorem processBlocks_snd (x : Context) (bs : List Byte) (off n : Nat) :
    (processBlocks x bs off n).2 = off + 64 * (n / 64) := by
  unfold processBlocks
  generalize n / 64 = k
  induction k generalizing x off with
  | zero => rfl
  | succ k ih =>
    rw [processLoop, ih]
    omega

theorem Effect.result_of_pblk {s t : State} {c : Idx} (he : Effect s (.pblk c) t) :
    t.result = BitVec.ofNat 32 (s.addr.toNat + 64 * (s.len.toNat / 64)) := by
  cases he with
  | pblk _ _ _ =>
    dsimp only
    rw [processBlocks_snd, inputOf_length, Nat.zero_add, BitVec.ofNat_add, BitVec.ofNat_toNat, BitVec.setWidth_eq]

theorem Effect.result_of_srst {s t : State} (he : Effect s .srst t) : t.result = 0 := by
  cases he with
  | srst => rfl

theorem Effect.result_of_other {s t : State} {i : Instr} (he : Effect s i t) (hs : i ≠ .srst) (hp : ∀ c, i ≠ .pblk c) :
    t.result = s.result := by
  cases he with
  | pblk _ _ _ => exact absurd rfl (hp _)
  | srst => exact absurd rfl hs
  | nop | reset | update | finish | save | restore | clean | sclr | sread | hkey | hupd | hfin | hrst | hcln => simp

/-! ## The command a step runs -/

/-- An aligned write of a legal command word to `CMD` (R22, R70). -/
theorem step_of_command {s : State} {v : Word} {i : Instr} {rest : List Input}
    (hin : s.inputs = .regWrite .word 0x00 v :: rest) (hd : decode s.params v = .ok i) :
    step s = exec i { s with cmd := v, inputs := rest } := by
  have hd' : decode ({ s with inputs := rest } : State).params v = .ok i := hd
  have hcmd : regAt 0x00 = some .cmd := rfl
  rw [step_of_inputs hin, perform, if_pos ((regAccessOk_iff _ _).mpr ⟨rfl, rfl⟩), writeOffset, hcmd]
  simp only [runCommand, hd']

/-! ## `STATUS` and `CFG` as numbers -/

theorem statusWord_resetWith (p : Params) (m : Memory) : statusWord (State.resetWith p m) = 0 := by
  have hcode : (State.resetWith p m).code = .ok := rfl
  have hsticky : (State.resetWith p m).sticky = false := rfl
  rw [statusWord, hcode, hsticky]
  decide

/-- In range each count fits its byte of `CFG` (R7, R29). -/
theorem cfgWord_eq {p : Params} (hp : p.inRange = true) :
    cfgWord p = BitVec.ofNat 32 (p.nctx + 2 ^ 8 * p.nsnap + 2 ^ 16 * p.nhmac) := by
  obtain ⟨⟨-, hc⟩, ⟨-, hs⟩, ⟨-, hh⟩, -⟩ := (inRange_iff p).mp hp
  have byte : ∀ {n : Nat}, n ≤ 16 → (BitVec.ofNat 8 n).toNat = n := fun hn => by
    rw [BitVec.toNat_ofNat]
    omega
  refine BitVec.eq_of_toNat_eq ?_
  rw [cfgWord, BitVec.toNat_append, BitVec.toNat_append, BitVec.toNat_append,
    ← Nat.shiftLeft_add_eq_or_of_lt (BitVec.isLt _), ← Nat.shiftLeft_add_eq_or_of_lt (BitVec.isLt _),
    ← Nat.shiftLeft_add_eq_or_of_lt (BitVec.isLt _), byte hc, byte hs, byte hh, BitVec.toNat_ofNat]
  simp only [Nat.shiftLeft_eq, show (0 : BitVec 8).toNat = 0 from rfl]
  omega

/-! ## The obligations -/

/-- Settles O9: no input changes the parameters, and the three registers read nothing else. -/
theorem identityRegistersAreConstant : Obligations.IdentityRegistersAreConstant := by
  intro s t h
  have hp := step_params h
  rw [readOffset_cfg, readOffset_cfg, readOffset_dmsz, readOffset_dmsz, hp]
  exact ⟨rfl, rfl, rfl, rfl⟩

/-- Settles O17: a raise writes `STATUS` only, and no effect reaches the host's side. -/
theorem commandsAlwaysEndAndKeepOperands : Obligations.CommandsAlwaysEndAndKeepOperands := fun s i =>
  exec_keepsHostSide i s

/-- Settles O18, by what a command can do: raise, or have its effect. -/
theorem resultIsWrittenByPblkAndSrst : Obligations.ResultIsWrittenByPblkAndSrst := by
  intro s t i h
  rcases exec_cases i s with ⟨e, hne, hr⟩ | ⟨u, hr, he⟩ <;> cases hr.symm.trans h
  · refine ⟨?_, fun _ _ hok => absurd hok hne, fun _ _ _ => rfl, fun _ _ => rfl⟩
    rintro rfl
    have hcode := congrArg State.code (Host.Outcome.next.inj (hr.symm.trans (exec_of_effect .srst)))
    exact absurd hcode hne
  · refine ⟨?_, ?_, fun _ _ hcode => absurd rfl hcode, he.result_of_other⟩
    · rintro rfl
      exact he.result_of_srst
    · rintro c rfl -
      exact he.result_of_pblk

/-- Settles O6: `withFetchWord` is the first part with the write in front. -/
theorem stepRunsTheCommandWritten : Obligations.StepRunsTheCommandWritten := by
  refine ⟨fun s v i rest => step_of_command, fun s w i hw hd => ?_⟩
  rw [State.withFetchWord, Nat.mod_eq_of_lt hw]
  exact step_of_command (s := beforeCommand s (BitVec.ofNat 32 w)) rfl hd

/-- Settles O13: the files are replicas of the power-on values, and `CFG` packs counts that fit a byte. -/
theorem resetLeavesTheSpecValues : Obligations.ResetLeavesTheSpecValues := by
  intro p m hp t
  have hparams : t.params = p := params_resetWith p m
  refine ⟨rfl, rfl, rfl, rfl, statusWord_resetWith p m, rfl, ?_, ?_, hparams, rfl, ?_, ?_, ?_⟩
  · rw [readOffset_cfg, hparams, cfgWord_eq hp]
  · rw [readOffset_dmsz, hparams, dmszWord]
  · exact fun x => List.eq_of_mem_replicate
  · exact fun q => List.eq_of_mem_replicate
  · exact fun ch => List.eq_of_mem_replicate

end Sys2Proof.Machine
end

section
/-! SUPPORT. Data memory: the host's accesses of single bytes, what a command writes, and that what else a command
does depends on its input bytes only (spec/20_memory.md R61 to R63). -/

namespace Sys2Proof.Machine

/-! ## The host's accesses -/

theorem step_of_memWrite {s : State} {a : Nat} {b : Byte} {rest : List Input} (ha : a < s.dmemSize)
    (hin : s.inputs = .memWrite a b :: rest) :
    step s = .next { s with inputs := rest, dmem := writeByte s.dmem a b } :=
  (step_of_inputs hin).trans (if_pos ha)

theorem step_of_memRead {s : State} {a : Nat} {rest : List Input} (ha : a < s.dmemSize)
    (hin : s.inputs = .memRead a :: rest) :
    step s = .next { s with inputs := rest, seen := .mem a (readByte s.dmem a) :: s.seen } :=
  (step_of_inputs hin).trans (if_pos ha)

/-! ## What a command writes -/

/-- The digest commands write a digest at `ADDR`; every other effect leaves memory alone (R62). -/
theorem Effect.dmem_cases {s t : State} {i : Instr} (he : Effect s i t) :
    t.dmem = s.dmem ∨ (∃ c, i = .finish c ∨ i = .sread c ∨ i = .hfin c) ∧
      ∃ x, t.dmem = memWrite s.dmem s.addr.toNat (ctxDigest x) := by
  cases he with
  | finish => exact .inr ⟨⟨_, .inl rfl⟩, _, putOutput_dmem ..⟩
  | sread => exact .inr ⟨⟨_, .inr (.inl rfl)⟩, _, putOutput_dmem ..⟩
  | hfin => exact .inr ⟨⟨_, .inr (.inr rfl)⟩, _, putOutput_dmem ..⟩
  | nop | reset | update | save | restore | clean | sclr | pblk | hkey | hupd | hrst | hcln | srst => exact .inl rfl

/-! ## What a command reads -/

/-- A state with memory `m` in place of its own. -/
def withMemory (s : State) (m : Memory) : State := { s with dmem := m }

/-- Two states that differ at most in memory. -/
def SameButMemory (t t' : State) : Prop := withMemory t' [] = withMemory t []

/-- An update that neither reads nor writes memory keeps two states the same but for memory. -/
theorem SameButMemory.update {t t' : State} (h : SameButMemory t t') (f : State → State)
    (hf : ∀ u, withMemory (f u) [] = f (withMemory u [])) : SameButMemory (f t) (f t') :=
  (hf t').trans ((congrArg f h).trans (hf t).symm)

theorem SameButMemory.setCtx {t t' : State} (h : SameButMemory t t') (c : Idx) (x : Context) :
    SameButMemory (setCtx t c x) (setCtx t' c x) :=
  h.update (Machine.setCtx · c x) fun _ => rfl

theorem SameButMemory.setSnap {t t' : State} (h : SameButMemory t t') (k : Idx) (p : Snapshot) :
    SameButMemory (setSnap t k p) (setSnap t' k p) :=
  h.update (Machine.setSnap · k p) fun _ => rfl

theorem SameButMemory.setChan {t t' : State} (h : SameButMemory t t') (k : Idx) (ch : Channel) :
    SameButMemory (setChan t k ch) (setChan t' k ch) :=
  h.update (Machine.setChan · k ch) fun _ => rfl

/-- PBLK writes a context and `RESULT` (R109). -/
theorem SameButMemory.setPblk {t t' : State} (h : SameButMemory t t') (c : Idx) (x : Context) (n : Nat) :
    SameButMemory { Machine.setCtx t c x with result := t.addr + BitVec.ofNat 32 n }
      { Machine.setCtx t' c x with result := t'.addr + BitVec.ofNat 32 n } :=
  h.update (fun u => { Machine.setCtx u c x with result := u.addr + BitVec.ofNat 32 n }) fun _ => rfl

/-- The write of a digest is a write of memory. -/
theorem SameButMemory.putOutput {t t' : State} (h : SameButMemory t t') (d : List Byte) :
    SameButMemory (putOutput t d) (putOutput t' d) := h

/-- Two next states that differ at most in memory. -/
def EndsSameButMemory (o o' : Host.Outcome State Fault Refusal) : Prop :=
  ∃ t t', o = .next t ∧ o' = .next t' ∧ SameButMemory t t'

theorem settle_sameButMemory {s s' : State} {r r' : Except Code State} (h : SameButMemory s s')
    (hr : Matched SameButMemory r r') : EndsSameButMemory (settle s r) (settle s' r') := by
  cases hr with
  | ok ht => exact ⟨_, _, rfl, rfl, ht.update complete fun _ => rfl⟩
  | error e => exact ⟨_, _, rfl, rfl, h.update (raise e) fun _ => rfl⟩

/-- The input form reads the input's bytes only, and none when they are out of bounds (R62, R64). -/
theorem inputBytes_withMemory {s : State} {m : Memory}
    (h : ∀ a, s.addr.toNat ≤ a → a < s.addr.toNat + s.len.toNat → readByte m a = readByte s.dmem a) :
    inputBytes s = inputBytes (withMemory s m) := by
  have hread : memRead s.dmem s.addr.toNat s.len.toNat = memRead m s.addr.toNat s.len.toNat :=
    memRead_congr fun j hj => (h _ (by omega) (by omega)).symm
  rw [inputBytes, hread]
  rfl

/-- A command reaches memory through its input bytes and the write of a digest alone: every other test, read and update
of its pseudocode is the same whatever memory holds. -/
theorem exec_withMemory {s : State} {m : Memory} (hin : inputBytes s = inputBytes (withMemory s m)) (i : Instr) :
    EndsSameButMemory (exec i s) (exec i (withMemory s m)) := by
  have hs : SameButMemory s (withMemory s m) := rfl
  cases i with
  | nop => exact settle_sameButMemory hs (.ok hs)
  | reset c => exact settle_sameButMemory hs (.bind_eq rfl fun _ => .ok (hs.setCtx c _))
  | update c =>
    refine settle_sameButMemory hs (.bind_eq rfl fun _ => .bind_eq rfl fun _ => .bind_eq hin fun _ => ?_)
    exact .ok (hs.setCtx c _)
  | finish c =>
    exact settle_sameButMemory hs (.bind_eq rfl fun _ => .bind_eq rfl fun _ => .ok ((hs.setCtx c _).putOutput _))
  | save c k =>
    refine settle_sameButMemory hs (.bind_eq rfl fun _ => .bind_eq rfl fun _ => .bind_eq rfl fun _ => ?_)
    exact .ok (hs.setSnap k _)
  | restore c k =>
    refine settle_sameButMemory hs (.bind_eq rfl fun _ => .bind_eq rfl fun _ => .bind_eq rfl fun _ => ?_)
    exact .ok (hs.setCtx c _)
  | clean c => exact settle_sameButMemory hs (.bind_eq rfl fun _ => .ok (hs.setCtx c _))
  | sclr k => exact settle_sameButMemory hs (.bind_eq rfl fun _ => .ok (hs.setSnap k _))
  | pblk c =>
    refine settle_sameButMemory hs (.bind_eq rfl fun _ => .bind_eq rfl fun _ => .bind_eq hin fun _ => ?_)
    exact .ok (hs.setPblk c _ _)
  | sread c => exact settle_sameButMemory hs (.bind_eq rfl fun _ => .bind_eq rfl fun _ => .ok (hs.putOutput _))
  | hkey k => exact settle_sameButMemory hs (.bind_eq rfl fun _ => .bind_eq hin fun _ => .ok (hs.setChan k _))
  | hupd k =>
    refine settle_sameButMemory hs (.bind_eq rfl fun _ => .bind_eq rfl fun _ => .bind_eq rfl fun _ => ?_)
    exact .bind_eq hin fun _ => .ok (hs.setChan k _)
  | hfin k =>
    refine settle_sameButMemory hs (.bind_eq rfl fun _ => .bind_eq rfl fun _ => .bind_eq rfl fun _ => ?_)
    exact .ok ((hs.setChan k _).putOutput _)
  | hrst k => exact settle_sameButMemory hs (.bind_eq rfl fun _ => .bind_eq rfl fun _ => .ok (hs.setChan k _))
  | hcln k => exact settle_sameButMemory hs (.bind_eq rfl fun _ => .ok (hs.setChan k _))
  | srst =>
    exact settle_sameButMemory hs (.ok (hs.update (fun u => { u with
      ctx := u.ctx.map ctxClean, snap := u.snap.map fun _ => Snapshot.empty, hm := u.hm.map cleanChannel,
      result := 0, sticky := false }) fun _ => rfl))

/-! ## The obligations -/

/-- Settles O19: a raise writes no memory, and an effect that does writes the 20 bytes of a digest. -/
theorem memoryIsWrittenByDigestsOnly : Obligations.MemoryIsWrittenByDigestsOnly := by
  intro s t i h a hne
  rcases exec_cases i s with ⟨e, -, hr⟩ | ⟨u, hr, he⟩ <;> cases hr.symm.trans h
  · exact absurd rfl hne
  · rw [complete_dmem] at hne
    rcases he.dmem_cases with hmem | ⟨hi, x, hmem⟩ <;> rw [hmem] at hne
    · exact absurd rfl hne
    · have hin : ¬ (a < s.addr.toNat ∨ s.addr.toNat + 20 ≤ a) := mt readByte_digest_outside hne
      exact ⟨hi, rfl, by omega, by omega⟩

/-- Settles O20: both runs read the same input bytes, so they end the same but for memory. -/
theorem commandsReadTheirInputOnly : Obligations.CommandsReadTheirInputOnly := by
  intro s t m i hsame h
  obtain ⟨u, u', hu, hu', huu'⟩ := exec_withMemory (inputBytes_withMemory hsame) i
  cases hu.symm.trans h
  exact ⟨u', hu', huu'⟩

/-- Settles O11: a write in canonical memory is read back, and no other byte reads differently. -/
theorem hostReadsAndWritesMemory : Obligations.HostReadsAndWritesMemory := fun s a _ hwf ha =>
  ⟨fun b hin => ⟨writeByte s.dmem a b, step_of_memWrite ha hin, readByte_writeByte_same hwf a b,
    fun _ => readByte_writeByte_other b⟩, step_of_memRead ha⟩

end Sys2Proof.Machine
end

section
/-! SUPPORT. The decoder said once: which words it accepts, field by field; that a row's mask and match value say the same
of the fields; and which rows use which indices (spec/30_encoding.md R81 to R86). -/

namespace Sys2Proof

/-! ## The opcode map -/

theorem rowOf_some {op : BitVec 8} {r : OpRow} (h : rowOf op = some r) : r ∈ opcodeMap ∧ r.op = op :=
  ⟨List.mem_of_find?_eq_some h, by simpa using List.find?_some h⟩

/-- No two rows of the map share an opcode, so a row is found by its own (R83). -/
theorem rowOf_op : ∀ r ∈ opcodeMap, rowOf r.op = some r := by
  simp only [opcodeMap, List.forall_mem_cons, List.not_mem_nil, false_implies, implies_true, and_true]
  exact ⟨rfl, rfl, rfl, rfl, rfl, rfl, rfl, rfl, rfl, rfl, rfl, rfl, rfl, rfl, rfl, rfl⟩

/-! ## The decoder -/

/-- The pattern test of R85 on the fields of a word: the row's opcode, `RSV` zero, and zeros in the fields the row does not
use. -/
def FieldsMatch (r : OpRow) (v : Word) : Prop :=
  opField v = r.op ∧ rsvField v = 0 ∧ (r.usesX = false → xField v = 0) ∧ (r.usesY = false → yField v = 0)

theorem checkRanges_eq_ok_iff {p : Params} {i j : Instr} : checkRanges p i = .ok j ↔ i = j ∧ i.wf p = true := by
  unfold checkRanges Instr.wf
  cases i.ctxOk p <;> cases i.chanOk p <;> cases i.slotOk p <;> simp

/-- The decoder's test of an index field a row does not use. -/
theorem unusedField_test {uses : Bool} {f : Idx} : ¬ (!uses && f != 0) = true ↔ (uses = false → f = 0) := by
  cases uses <;> simp

/-- The words the decoder accepts, and the command it reads (R85). -/
theorem decode_eq_ok_iff {p : Params} {v : Word} {i : Instr} : decode p v = .ok i ↔
    ∃ r ∈ opcodeMap, FieldsMatch r v ∧ i = r.make (xField v) (yField v) ∧ i.wf p = true := by
  constructor
  · intro h
    unfold decode at h
    split at h
    · cases h
    · next r hrow =>
      obtain ⟨hr, hop⟩ := rowOf_some hrow
      split_ifs at h with hrsv hx hy
      obtain ⟨rfl, hwf⟩ := checkRanges_eq_ok_iff.mp h
      exact ⟨r, hr, ⟨hop.symm, not_not.mp hrsv, unusedField_test.mp hx, unusedField_test.mp hy⟩, rfl, hwf⟩
  · rintro ⟨r, hr, ⟨hop, hrsv, hx, hy⟩, rfl, hwf⟩
    rw [decode, hop, rowOf_op r hr]
    dsimp only
    rw [if_neg (not_not.mpr hrsv), if_neg (unusedField_test.mpr hx), if_neg (unusedField_test.mpr hy)]
    exact checkRanges_eq_ok_iff.mpr ⟨rfl, hwf⟩

/-- The word of every command carries its opcode and its indices (R81, R83). -/
theorem encodedFields (i : Instr) : Laws.EncodedFields.Statement i := by
  cases i with
  | nop => exact Laws.EncodedFields.nop
  | reset c => exact Laws.EncodedFields.reset c
  | update c => exact Laws.EncodedFields.update c
  | finish c => exact Laws.EncodedFields.finish c
  | save c s => exact Laws.EncodedFields.save c s
  | restore c s => exact Laws.EncodedFields.restore c s
  | clean c => exact Laws.EncodedFields.clean c
  | sclr s => exact Laws.EncodedFields.sclr s
  | pblk c => exact Laws.EncodedFields.pblk c
  | sread c => exact Laws.EncodedFields.sread c
  | hkey h => exact Laws.EncodedFields.hkey h
  | hupd h => exact Laws.EncodedFields.hupd h
  | hfin h => exact Laws.EncodedFields.hfin h
  | hrst h => exact Laws.EncodedFields.hrst h
  | hcln h => exact Laws.EncodedFields.hcln h
  | srst => exact Laws.EncodedFields.srst

/-- The decoder reads a well-formed command back from its word (R81, R83, R85). -/
theorem decode_encode {p : Params} {i : Instr} (h : i.wf p = true) : decode p (encode i) = .ok i := by
  obtain ⟨r, hrow, hrsv, hx, hy, hmake⟩ := encodedFields i
  obtain ⟨hr, hop⟩ := rowOf_some hrow
  exact decode_eq_ok_iff.mpr ⟨r, hr, ⟨hop.symm, hrsv, hx, hy⟩, hmake.symm, h⟩

/-! ## Masks and match values -/

/-- Two words are the same when their fields are (R81). -/
theorem word_eq_iff {v w : Word} : v = w ↔
    opField v = opField w ∧ rsvField v = rsvField w ∧ xField v = xField w ∧ yField v = yField w := by
  refine ⟨fun h => by simp [h], fun ⟨hop, hrsv, hx, hy⟩ => BitVec.eq_of_toNat_eq ?_⟩
  have hv := fields_toNat v
  have hw := fields_toNat w
  rw [hop, hx, hy, hrsv] at hv
  omega

theorem matchValue_eq (r : OpRow) : r.matchValue = commandWord r.op 0 0 := by
  refine BitVec.eq_of_toNat_eq ?_
  rw [commandWord_toNat, OpRow.matchValue, BitVec.toNat_append, ← Nat.shiftLeft_add_eq_or_of_lt (BitVec.isLt _)]
  simp [Nat.shiftLeft_eq]

/-- The mask keeps `OP`, `RSV` and the fields the row does not use (R84). -/
theorem mask_fields (r : OpRow) : opField r.mask = BitVec.allOnes 8 ∧ rsvField r.mask = BitVec.allOnes 16 ∧
    xField r.mask = (if r.usesX then 0 else BitVec.allOnes 4) ∧ yField r.mask = (if r.usesY then 0 else BitVec.allOnes 4) := by
  unfold OpRow.mask
  cases r.usesX <;> cases r.usesY <;> decide

/-- A word matches a row's mask and match value exactly when its fields do (R84, R85). -/
theorem and_mask_eq_iff {r : OpRow} {v : Word} : v &&& r.mask = r.matchValue ↔ FieldsMatch r v := by
  have hand : ∀ w : Word, opField (v &&& w) = opField v &&& opField w ∧ rsvField (v &&& w) = rsvField v &&& rsvField w ∧
      xField (v &&& w) = xField v &&& xField w ∧ yField (v &&& w) = yField v &&& yField w := fun w =>
    ⟨BitVec.extractLsb'_and .., BitVec.extractLsb'_and .., BitVec.extractLsb'_and .., BitVec.extractLsb'_and ..⟩
  obtain ⟨mop, mrsv, mx, my⟩ := mask_fields r
  obtain ⟨aop, arsv, ax, ay⟩ := hand r.mask
  rw [word_eq_iff, matchValue_eq, aop, arsv, ax, ay, mop, mrsv, mx, my, FieldsMatch]
  cases r.usesX <;> cases r.usesY <;> simp [-BitVec.reduceAllOnes]

/-! ## The obligations -/

/-- Settles O3: the masks are those listed, and a word matches one exactly when the decoder's own tests pass. -/
theorem decodeFollowsMaskAndMatch : Obligations.DecodeFollowsMaskAndMatch := by
  refine ⟨by decide, fun p v i => ?_, fun v r _ r' _ h h' => ?_⟩
  · simp only [and_mask_eq_iff]
    exact decode_eq_ok_iff
  · obtain ⟨hop, -⟩ := and_mask_eq_iff.mp h
    obtain ⟨hop', -⟩ := and_mask_eq_iff.mp h'
    exact hop.symm.trans hop'

/-- Settles O4: each word listed is the encoding, and a well-formed command is read back from its encoding. -/
theorem specExamplesEncodeAndDecode : Obligations.SpecExamplesEncodeAndDecode := by
  intro e he
  have hlisted : encode e.1 = e.2 ∧ e.1.wf .default = true := by
    revert e
    decide
  obtain ⟨henc, hwf⟩ := hlisted
  exact ⟨henc, henc ▸ decode_encode hwf⟩

/-- Settles O53: each form is defined as the sequence of accesses listed. -/
theorem assemblerExpandsStatements : Obligations.AssemblerExpandsStatements := fun _ _ _ _ _ _ _ _ _ _ _ =>
  ⟨rfl, rfl, rfl, rfl, rfl, rfl⟩

end Sys2Proof
end

section
/-! SUPPORT. Which words raise `ILLEGAL`, in numbers (spec/30_encoding.md R85, R86). -/

namespace Sys2Proof

/-- Which rows use which fields, by opcode (R83). -/
theorem usesX_iff : ∀ r ∈ opcodeMap, r.usesX = false ↔ r.op.toNat = 0x00 ∨ r.op.toNat = 0x07 ∨ r.op.toNat = 0x30 := by
  decide

@[inherit_doc usesX_iff]
theorem usesY_iff : ∀ r ∈ opcodeMap, r.usesY = false ↔ r.op.toNat ≠ 0x04 ∧ r.op.toNat ≠ 0x05 ∧ r.op.toNat ≠ 0x07 := by
  decide

/-- The index tests of each row's command, by opcode (R82, R83). -/
theorem make_wf_iff (p : Params) (x y : Idx) : ∀ r ∈ opcodeMap, (r.make x y).wf p = true ↔
    ((0x01 ≤ r.op.toNat ∧ r.op.toNat ≤ 0x06) ∨ r.op.toNat = 0x10 ∨ r.op.toNat = 0x11 → x.toNat < p.nctx) ∧
    (0x20 ≤ r.op.toNat ∧ r.op.toNat ≤ 0x24 → x.toNat < p.nhmac) ∧
    (r.op.toNat = 0x04 ∨ r.op.toNat = 0x05 ∨ r.op.toNat = 0x07 → y.toNat < p.nsnap) := by
  simp [opcodeMap, Instr.wf, Instr.ctxOk, Instr.chanOk, Instr.slotOk, Instr.ctxIdx, Instr.chanIdx, Instr.slotIdx, idxBelow]

/-- The opcodes of the map are those outside the reserved ranges (R83). -/
theorem exists_row_iff : ∀ op : BitVec 8, (∃ r ∈ opcodeMap, op = r.op) ↔
    ¬ ((0x08 ≤ op.toNat ∧ op.toNat ≤ 0x0F) ∨ (0x12 ≤ op.toNat ∧ op.toNat ≤ 0x1F) ∨ (0x25 ≤ op.toNat ∧ op.toNat ≤ 0x2F) ∨
      (0x31 ≤ op.toNat ∧ op.toNat ≤ 0xFF)) := by
  decide

/-- The words that raise `ILLEGAL`, by the numbers in their fields (R85, R86). -/
def IllegalFields (p : Params) (op x y rsv : Nat) : Prop :=
  (0x08 ≤ op ∧ op ≤ 0x0F) ∨ (0x12 ≤ op ∧ op ≤ 0x1F) ∨ (0x25 ≤ op ∧ op ≤ 0x2F) ∨ (0x31 ≤ op ∧ op ≤ 0xFF) ∨
  rsv ≠ 0 ∨
  (x ≠ 0 ∧ (op = 0x00 ∨ op = 0x07 ∨ op = 0x30)) ∨
  (y ≠ 0 ∧ op ≠ 0x04 ∧ op ≠ 0x05 ∧ op ≠ 0x07) ∨
  (p.nctx ≤ x ∧ ((0x01 ≤ op ∧ op ≤ 0x06) ∨ op = 0x10 ∨ op = 0x11)) ∨
  (p.nhmac ≤ x ∧ 0x20 ≤ op ∧ op ≤ 0x24) ∨
  (p.nsnap ≤ y ∧ (op = 0x04 ∨ op = 0x05 ∨ op = 0x07))

/-- The tests of R85 after the opcode, on numbers: those of `IllegalFields` when the opcode is a row's. -/
theorem accepts_iff (p : Params) {r : OpRow} {v : Word} (hr : r ∈ opcodeMap) (hop : opField v = r.op) :
    FieldsMatch r v ∧ (r.make (xField v) (yField v)).wf p = true ↔
    ¬ IllegalFields p (opField v).toNat (xField v).toNat (yField v).toNat (rsvField v).toNat := by
  have hrow := (exists_row_iff (opField v)).mp ⟨r, hr, hop⟩
  rw [FieldsMatch, usesX_iff r hr, usesY_iff r hr, make_wf_iff p _ _ r hr, ← hop, IllegalFields]
  simp only [BitVec.toNat_eq (x := xField v), BitVec.toNat_eq (x := yField v), BitVec.toNat_eq (x := rsvField v),
    BitVec.ofNat_eq_ofNat, BitVec.toNat_ofNat, Nat.zero_mod, true_and]
  omega

/-- The decoder rejects exactly the words with illegal fields (R85, R86). -/
theorem decode_ok_iff_not_illegalFields (p : Params) (v : Word) : (∃ i, decode p v = .ok i) ↔
    ¬ IllegalFields p (opField v).toNat (xField v).toNat (yField v).toNat (rsvField v).toNat := by
  constructor
  · rintro ⟨i, h⟩
    obtain ⟨r, hr, hm, rfl, hwf⟩ := decode_eq_ok_iff.mp h
    exact (accepts_iff p hr hm.1).mp ⟨hm, hwf⟩
  · intro h
    obtain ⟨r, hr, hop⟩ := (exists_row_iff (opField v)).mpr (by unfold IllegalFields at h; omega)
    obtain ⟨hm, hwf⟩ := (accepts_iff p hr hop).mpr h
    exact ⟨_, decode_eq_ok_iff.mpr ⟨r, hr, hm, rfl, hwf⟩⟩

namespace Machine

/-- A write to `CMD` of a word that is no legal command (R86). -/
theorem step_of_illegal {s : State} {v : Word} {e : DecodeError} {rest : List Input}
    (hin : s.inputs = .regWrite .word 0x00 v :: rest) (hd : decode s.params v = .error e) :
    step s = .next (raise .illegal { s with cmd := v, inputs := rest }) := by
  have hd' : decode ({ s with inputs := rest } : State).params v = .error e := hd
  have hcmd : regAt 0x00 = some .cmd := rfl
  rw [step_of_inputs hin, perform, if_pos ((regAccessOk_iff _ _).mpr ⟨rfl, rfl⟩), writeOffset, hcmd]
  simp only [runCommand, hd', settle_error]

/-- Settles O5: the words listed are the ones the decoder rejects, and a rejected word raises `ILLEGAL`. -/
theorem illegalWordRaisesIllegalOnly : Obligations.IllegalWordRaisesIllegalOnly := by
  intro s v rest hin op x y rsv bad
  obtain ⟨hop, hx, hy, hrsv⟩ := fields_toNat v
  have hok : (∃ i, decode s.params v = .ok i) ↔ ¬ bad := by
    rw [decode_ok_iff_not_illegalFields, hop, hx, hy, hrsv]
    rfl
  refine ⟨fun hbad => ?_, fun hgood => ?_⟩
  · cases hd : decode s.params v with
    | ok i => exact absurd hbad (hok.mp ⟨i, hd⟩)
    | error e => exact step_of_illegal hin hd
  · obtain ⟨i, hd⟩ := hok.mpr hgood
    exact ⟨i, hd, step_of_command hin hd⟩

end Machine

end Sys2Proof
end

section
/-! SUPPORT. Which context, slot and channel a command writes (spec/30_encoding.md R82). -/

namespace Sys2Proof.Machine

/-- A command other than SRST writes the context its index names, or none. -/
theorem Effect.ctx_cases {s t : State} {i : Instr} (he : Effect s i t) (hi : i ≠ .srst) :
    t.ctx = s.ctx ∨ ∃ c x, i.ctxIdx = some c ∧ t.ctx = s.ctx.set c.toNat x := by
  cases he with
  | nop | save | sclr | sread | hkey | hupd | hfin | hrst | hcln => exact .inl (by simp)
  | finish => exact .inr ⟨_, _, rfl, putOutput_ctx ..⟩
  | reset | update | restore | clean | pblk => exact .inr ⟨_, _, rfl, setCtx_ctx ..⟩
  | srst => exact absurd rfl hi

/-- A command other than SRST writes the slot its index names, or none. -/
theorem Effect.snap_cases {s t : State} {i : Instr} (he : Effect s i t) (hi : i ≠ .srst) :
    t.snap = s.snap ∨ ∃ k p, i.slotIdx = some k ∧ t.snap = s.snap.set k.toNat p := by
  cases he with
  | save | sclr => exact .inr ⟨_, _, rfl, setSnap_snap ..⟩
  | nop | reset | update | finish | restore | clean | pblk | sread | hkey | hupd | hfin | hrst | hcln =>
    exact .inl (by simp)
  | srst => exact absurd rfl hi

/-- A command other than SRST writes the channel its index names, or none. -/
theorem Effect.hm_cases {s t : State} {i : Instr} (he : Effect s i t) (hi : i ≠ .srst) :
    t.hm = s.hm ∨ ∃ h ch, i.chanIdx = some h ∧ t.hm = s.hm.set h.toNat ch := by
  cases he with
  | hfin => exact .inr ⟨_, _, rfl, putOutput_hm ..⟩
  | hkey | hupd | hrst | hcln => exact .inr ⟨_, _, rfl, setChan_hm ..⟩
  | nop | reset | update | finish | save | restore | clean | sclr | pblk | sread => exact .inl (by simp)
  | srst => exact absurd rfl hi

theorem Effect.ctx_of_save {s t : State} {c k : Idx} (he : Effect s (.save c k) t) : t.ctx = s.ctx := by
  cases he with
  | save => exact setSnap_ctx ..

theorem Effect.snap_of_restore {s t : State} {c k : Idx} (he : Effect s (.restore c k) t) : t.snap = s.snap := by
  cases he with
  | restore => exact setCtx_snap ..

/-- A file written at the named index only, read at another. -/
theorem getElem?_of_named_write {α : Type} {l l' : List α} {o : Option Idx} {j : Nat}
    (h : l' = l ∨ ∃ c x, o = some c ∧ l' = l.set c.toNat x) (hj : ∀ c, o = some c → j ≠ c.toNat) : l'[j]? = l[j]? := by
  rcases h with rfl | ⟨c, x, ho, rfl⟩
  · rfl
  · exact List.getElem?_set_ne (hj c ho).symm

/-- Settles O21: a raise writes no file, and an effect writes one at the index the command carries. -/
theorem commandsTouchOnlyWhatTheyName : Obligations.CommandsTouchOnlyWhatTheyName := by
  intro s t i h hi
  rcases exec_cases i s with ⟨e, -, hr⟩ | ⟨u, hr, he⟩ <;> cases hr.symm.trans h
  · exact ⟨fun _ _ => rfl, fun _ _ => rfl, fun _ _ => rfl, fun _ _ _ => rfl, fun _ _ _ => rfl⟩
  · refine ⟨fun j => getElem?_of_named_write (he.ctx_cases hi), fun j => getElem?_of_named_write (he.snap_cases hi),
      fun j => getElem?_of_named_write (he.hm_cases hi), ?_, ?_⟩
    · rintro c k rfl
      exact he.snap_of_restore
    · rintro c k rfl
      exact he.ctx_of_save

end Sys2Proof.Machine
end

section
/-! SUPPORT. Running the accesses of a statement: a command form, then its command's effect; and what the pseudo-instructions
SHA1 and HMAC leave (spec/30_encoding.md R91, R92, R95). -/

namespace Sys2Proof.Machine

/-! ## The command forms -/

/-- A command has its effect only when the indices it carries are in range (R85). -/
theorem Effect.wf {s t : State} {i : Instr} (he : Effect s i t) : i.wf s.params = true := by
  have below : ∀ {α : Type} {l : List α} {j : Idx} {x : α}, l[j.toNat]? = some x → idxBelow l.length (some j) = true :=
    fun hx => by simpa [idxBelow] using (List.getElem?_eq_some_iff.mp hx).1
  cases he with
  | nop => rfl
  | srst => rfl
  | reset hx | update hx | finish hx | clean hx | pblk hx | sread hx =>
    exact Bool.and_eq_true_iff.mpr ⟨Bool.and_eq_true_iff.mpr ⟨below hx, rfl⟩, rfl⟩
  | save hx hp | restore hx hp => exact Bool.and_eq_true_iff.mpr ⟨Bool.and_eq_true_iff.mpr ⟨below hx, rfl⟩, below hp⟩
  | sclr hp => exact Bool.and_eq_true_iff.mpr ⟨rfl, below hp⟩
  | hkey hc | hupd hc | hfin hc | hrst hc | hcln hc =>
    exact Bool.and_eq_true_iff.mpr ⟨Bool.and_eq_true_iff.mpr ⟨rfl, below hc⟩, rfl⟩

/-- The state a command form executes its command in: the operands written, the command word stored, the form's accesses
taken off the list (R91, R92). -/
def issue (s : State) (i : Instr) (a n : Word) (rest : List Input) : State :=
  { s with cmd := encode i, addr := a, len := n, inputs := rest }

section
variable (s : State) (i : Instr) (a n : Word) (rest : List Input)

@[simp] theorem issue_addr : (issue s i a n rest).addr = a := rfl
@[simp] theorem issue_len : (issue s i a n rest).len = n := rfl
@[simp] theorem issue_sticky : (issue s i a n rest).sticky = s.sticky := rfl
@[simp] theorem issue_ctx : (issue s i a n rest).ctx = s.ctx := rfl
@[simp] theorem issue_snap : (issue s i a n rest).snap = s.snap := rfl
@[simp] theorem issue_hm : (issue s i a n rest).hm = s.hm := rfl
@[simp] theorem issue_dmemSize : (issue s i a n rest).dmemSize = s.dmemSize := rfl
@[simp] theorem issue_dmem : (issue s i a n rest).dmem = s.dmem := rfl
@[simp] theorem issue_inputs : (issue s i a n rest).inputs = rest := rfl
@[simp] theorem issue_params : (issue s i a n rest).params = s.params := rfl

theorem inputOf_issue : inputOf (issue s i a n rest) = memRead s.dmem a.toNat n.toNat := rfl

end

theorem run_succ {s t : State} (h : step s = .next t) (k : Nat) : Host.Core.run core (k + 1) s = Host.Core.run core k t := by
  have h' : core.step s = .next t := h
  simp only [Host.Core.run, h']

/-- The write of `CMD` that ends a form runs its command. -/
theorem step_of_issue {s t : State} {i : Instr} {rest : List Input} (hin : s.inputs = writeReg .cmd (encode i) :: rest)
    (he : Effect (issue s i s.addr s.len rest) i t) : step s = .next (complete t) := by
  rw [step_of_command hin (decode_encode he.wf)]
  exact exec_of_effect he

theorem run_shortForm {s t : State} {i : Instr} {rest : List Input} (hin : s.inputs = shortForm i ++ rest)
    (he : Effect (issue s i s.addr s.len rest) i t) (k : Nat) :
    Host.Core.run core (k + 1) s = Host.Core.run core k (complete t) :=
  run_succ (step_of_issue hin he) k

theorem run_longForm {s t : State} {i : Instr} {a n : Word} {rest : List Input} (hin : s.inputs = longForm i a n ++ rest)
    (he : Effect (issue s i a n rest) i t) (k : Nat) :
    Host.Core.run core (k + 3) s = Host.Core.run core k (complete t) := by
  have haddr : step s = .next { s with addr := a, inputs := writeReg .len n :: writeReg .cmd (encode i) :: rest } :=
    step_of_inputs hin
  rw [run_succ haddr, run_succ (t := { s with addr := a, len := n, inputs := writeReg .cmd (encode i) :: rest }) rfl]
  exact run_succ (step_of_issue (s := { s with addr := a, len := n, inputs := writeReg .cmd (encode i) :: rest }) rfl he) k

/-! ## What the forms leave -/

theorem inBounds_issue {s : State} {i : Instr} {a n : Word} {rest : List Input} {k : Nat}
    (h : a.toNat + k ≤ s.dmemSize) : inBounds (issue s i a n rest) k = true :=
  decide_eq_true h

/-- What completed forms leave of `s`, the registers apart: these contexts, channels and bytes, these accesses still to
come, and the rest as it was. -/
structure Leaves (s t : State) (ctx : List Context) (hm : List Channel) (dmem : Memory) (rest : List Input) : Prop where
  inputs : t.inputs = rest
  completed : completed s t
  ctx : t.ctx = ctx
  snap : t.snap = s.snap
  hm : t.hm = hm
  dmem : t.dmem = dmem
  dmemSize : t.dmemSize = s.dmemSize

theorem Leaves.trans {s t u : State} {ctx ctx' : List Context} {hm hm' : List Channel} {m m' : Memory}
    {rest rest' : List Input} (h : Leaves s t ctx hm m rest) (h' : Leaves t u ctx' hm' m' rest') :
    Leaves s u ctx' hm' m' rest' where
  inputs := h'.inputs
  completed := ⟨h'.completed.1, h'.completed.2.trans h.completed.2⟩
  ctx := h'.ctx
  snap := h'.snap.trans h.snap
  hm := h'.hm
  dmem := h'.dmem
  dmemSize := h'.dmemSize.trans h.dmemSize

section
variable {s : State} {rest : List Input} {a n : Word}

theorem run_reset {c : Idx} {x : Context} (hin : s.inputs = shortForm (.reset c) ++ rest)
    (hx : s.ctx[c.toNat]? = some x) (k : Nat) :
    ∃ t, Host.Core.run core (k + 1) s = Host.Core.run core k t ∧
      Leaves s t (s.ctx.set c.toNat (ctxReset x)) s.hm s.dmem rest :=
  ⟨_, run_shortForm hin (.reset hx) k, by constructor <;> simp [completed]⟩

theorem run_update {c : Idx} {x : Context} (hin : s.inputs = longForm (.update c) a n ++ rest)
    (hx : s.ctx[c.toNat]? = some x) (hf : x.fin = false) (hb : a.toNat + n.toNat ≤ s.dmemSize) (k : Nat) :
    ∃ t, Host.Core.run core (k + 3) s = Host.Core.run core k t ∧
      Leaves s t (s.ctx.set c.toNat (ctxUpdate x (memRead s.dmem a.toNat n.toNat))) s.hm s.dmem rest :=
  ⟨_, run_longForm hin (.update hx hf (inBounds_issue hb)) k, by constructor <;> simp [completed, inputOf_issue]⟩

theorem run_finish {c : Idx} {x : Context} (hin : s.inputs = longForm (.finish c) a 20 ++ rest)
    (hx : s.ctx[c.toNat]? = some x) (hb : a.toNat + 20 ≤ s.dmemSize) (k : Nat) :
    ∃ t, Host.Core.run core (k + 3) s = Host.Core.run core k t ∧
      Leaves s t (s.ctx.set c.toNat (ctxFinish x)) s.hm (memWrite s.dmem a.toNat (ctxDigest (ctxFinish x))) rest :=
  ⟨_, run_longForm hin (.finish hx (Nat.le_refl 20) (inBounds_issue hb)) k, by constructor <;> simp [completed]⟩

theorem run_hkey {h : Idx} {ch : Channel} (hin : s.inputs = longForm (.hkey h) a n ++ rest)
    (hc : s.hm[h.toNat]? = some ch) (hb : a.toNat + n.toNat ≤ s.dmemSize) (k : Nat) :
    ∃ t, Host.Core.run core (k + 3) s = Host.Core.run core k t ∧
      Leaves s t s.ctx (s.hm.set h.toNat (keyChannel ch (memRead s.dmem a.toNat n.toNat))) s.dmem rest :=
  ⟨_, run_longForm hin (.hkey hc (inBounds_issue hb)) k, by constructor <;> simp [completed, inputOf_issue]⟩

theorem run_hupd {h : Idx} {ch : Channel} (hin : s.inputs = longForm (.hupd h) a n ++ rest)
    (hc : s.hm[h.toNat]? = some ch) (hk : ch.keyed = true) (hf : ch.inn.fin = false)
    (hb : a.toNat + n.toNat ≤ s.dmemSize) (k : Nat) :
    ∃ t, Host.Core.run core (k + 3) s = Host.Core.run core k t ∧
      Leaves s t s.ctx (s.hm.set h.toNat (updateChannel ch (memRead s.dmem a.toNat n.toNat))) s.dmem rest :=
  ⟨_, run_longForm hin (.hupd hc hk hf (inBounds_issue hb)) k, by constructor <;> simp [completed, inputOf_issue]⟩

theorem run_hfin {h : Idx} {ch : Channel} (hin : s.inputs = longForm (.hfin h) a 20 ++ rest)
    (hc : s.hm[h.toNat]? = some ch) (hk : ch.keyed = true) (hb : a.toNat + 20 ≤ s.dmemSize) (k : Nat) :
    ∃ t, Host.Core.run core (k + 3) s = Host.Core.run core k t ∧
      Leaves s t s.ctx (s.hm.set h.toNat (finishChannel ch))
        (memWrite s.dmem a.toNat (ctxDigest (finishChannel ch).out)) rest :=
  ⟨_, run_longForm hin (.hfin hc hk (Nat.le_refl 20) (inBounds_issue hb)) k, by constructor <;> simp [completed]⟩

end

/-- The element just written to a file. -/
theorem getElem?_set_of_some {α : Type} {l : List α} {j : Nat} {x y : α} (h : l[j]? = some x) :
    (l.set j y)[j]? = some y :=
  List.getElem?_set_self (List.getElem?_eq_some_iff.mp h).1

/-! ## Digests -/

/-- A context reset, given `m` and finished holds the SHA-1 of `m` (R145). -/
theorem digest_of_reset_update {x : Context} (hx : ctxWf x = true) (m : List Byte) :
    ctxDigest (ctxFinish (ctxUpdate (ctxReset x) m)) = sha1Of m :=
  ((absorbed_ctxReset hx).update m).digest

/-- A channel keyed, given `m` and finished holds the MAC of `m` (R178). -/
theorem digest_of_key_update (ch : Channel) (key m : List Byte) :
    ctxDigest (finishChannel (updateChannel (keyChannel ch key) m)).out = hmacOf key m := by
  have hin := ((absorbed_keyed key innerPad).update m).digest
  have hout := fun d => ((absorbed_keyed key outerPad).update d).digest
  rw [keyChannel_eq, updateChannel, finishChannel, if_neg Bool.false_ne_true]
  dsimp only
  rw [hout, hin, keyBlock_eq, keyBlock_eq]
  rfl

/-- A channel just keyed can take a message (R173). -/
theorem keyChannel_keyed (ch : Channel) (key : List Byte) :
    (keyChannel ch key).keyed = true ∧ (keyChannel ch key).inn.fin = false := by
  obtain ⟨-, -, -, hfin⟩ := keyed_context key innerPad
  rw [keyChannel_eq]
  exact ⟨rfl, hfin⟩

/-! ## The obligations -/

/-- Settles O51: RESET, UPDATE and FINISH in turn, each on the context the one before left. -/
theorem sha1StatementHashesMemory : Obligations.Sha1StatementHashesMemory := by
  intro s c src n dst rest hinv hc hsrc hdst hin
  obtain ⟨-, -, -, -, hwf, -⟩ := (inv_iff s).mp hinv
  obtain ⟨x, hx⟩ : ∃ x, s.ctx[c.toNat]? = some x := ⟨_, List.getElem?_eq_getElem hc⟩
  rw [expand, List.append_assoc, List.append_assoc] at hin
  obtain ⟨t₁, r₁, l₁⟩ := run_reset hin hx 6
  have hx₁ : t₁.ctx[c.toNat]? = some (ctxReset x) := by rw [l₁.ctx, getElem?_set_of_some hx]
  obtain ⟨t₂, r₂, l₂⟩ := run_update l₁.inputs hx₁ rfl (by rwa [l₁.dmemSize]) 3
  have hx₂ := l₂.ctx ▸ getElem?_set_of_some hx₁
  obtain ⟨t₃, r₃, l₃⟩ := run_finish l₂.inputs hx₂ (by rwa [l₂.dmemSize, l₁.dmemSize]) 0
  rw [l₁.ctx, l₁.hm, l₁.dmem] at l₂
  rw [l₂.ctx, l₂.hm, l₂.dmem, List.set_set, List.set_set, l₁.dmem] at l₃
  have l := (l₁.trans l₂).trans l₃
  refine ⟨t₃, ?_, l.inputs, l.completed, ?_, fun a ha => ?_, fun j hj => ?_, l.snap, l.hm⟩
  · rw [r₁, r₂, r₃, Host.Core.run]
  · rw [l.dmem, memRead_digest hwf, digest_of_reset_update (ctxWf_of_inv hinv hx)]
  · rw [l.dmem, readByte_digest_outside ha]
  · rw [l.ctx, List.getElem?_set_ne hj.symm]

/-- Settles O52: HKEY, HUPD and HFIN in turn, each on the channel the one before left. -/
theorem hmacStatementAuthenticatesMemory : Obligations.HmacStatementAuthenticatesMemory := by
  intro s h key klen msg mlen dst rest hinv hh hkey hmsg hdst hin
  obtain ⟨-, -, -, -, hwf, -⟩ := (inv_iff s).mp hinv
  obtain ⟨ch, hc⟩ : ∃ ch, s.hm[h.toNat]? = some ch := ⟨_, List.getElem?_eq_getElem hh⟩
  rw [expand, List.append_assoc, List.append_assoc] at hin
  obtain ⟨t₁, r₁, l₁⟩ := run_hkey hin hc hkey 6
  have hc₁ := l₁.hm ▸ getElem?_set_of_some hc
  have hk₁ := keyChannel_keyed ch (memRead s.dmem key.toNat klen.toNat)
  obtain ⟨t₂, r₂, l₂⟩ := run_hupd l₁.inputs hc₁ hk₁.1 hk₁.2 (by rwa [l₁.dmemSize]) 3
  have hc₂ := l₂.hm ▸ getElem?_set_of_some hc₁
  obtain ⟨t₃, r₃, l₃⟩ := run_hfin l₂.inputs hc₂ hk₁.1 (by rwa [l₂.dmemSize, l₁.dmemSize]) 0
  rw [l₁.ctx, l₁.hm, l₁.dmem] at l₂
  rw [l₂.ctx, l₂.hm, l₂.dmem, List.set_set, List.set_set, l₁.dmem] at l₃
  have l := (l₁.trans l₂).trans l₃
  refine ⟨t₃, ?_, l.inputs, l.completed, ?_, fun a ha => ?_, fun j hj => ?_, l.ctx, l.snap⟩
  · rw [r₁, r₂, r₃, Host.Core.run]
  · rw [l.dmem, memRead_digest hwf, digest_of_key_update]
  · rw [l.dmem, readByte_digest_outside ha]
  · rw [l.hm, List.getElem?_set_ne hj.symm]

end Sys2Proof.Machine
end

section
/-! SUPPORT. The compression engine in the spec's own terms (spec/40_compression.md R100 to R110): rotations, bytes of a
word, the rounds as recurrences, and the block loop as a fold over the blocks it reads. -/

namespace Sys2Proof.Machine

/-! ## Words and bytes -/

/-- `ROTL` is the rotation of bit vectors (R11). -/
theorem rotl_eq_rotateLeft (x : Word) {n : Nat} (hn : n < 32) : rotl x n = x.rotateLeft n := by
  rw [BitVec.rotateLeft, Nat.mod_eq_of_lt hn]
  rfl

/-- A big-endian word is the number its bytes write (R12, R65). -/
theorem loadBE32_eq_ofNat (s : List Byte) (i : Nat) : loadBE32 s i =
    BitVec.ofNat 32 ((s.getD i 0).toNat * 2 ^ 24 + (s.getD (i + 1) 0).toNat * 2 ^ 16 + (s.getD (i + 2) 0).toNat * 2 ^ 8 +
      (s.getD (i + 3) 0).toNat) := by
  have byte (j : Nat) : (s.getD j 0).toNat < 2 ^ 8 := (s.getD j 0).isLt
  have h0 := byte i
  have h1 := byte (i + 1)
  have h2 := byte (i + 2)
  have h3 := byte (i + 3)
  refine BitVec.eq_of_toNat_eq ?_
  rw [loadBE32, BitVec.toNat_append, BitVec.toNat_append, BitVec.toNat_append, ← Nat.shiftLeft_add_eq_or_of_lt h3,
    ← Nat.shiftLeft_add_eq_or_of_lt h2, ← Nat.shiftLeft_add_eq_or_of_lt h1, BitVec.toNat_ofNat]
  simp only [Nat.shiftLeft_eq]
  omega

/-- The bytes of a word, most significant first, by division (R12, R65). -/
theorem be32_eq_map (w : Word) : be32 w = [24, 16, 8, 0].map fun k => BitVec.ofNat 8 (w.toNat / 2 ^ k) := by
  simp only [be32, BitVec.extractLsb', Nat.shiftRight_eq_div_pow, List.map_cons, List.map_nil]

/-- A chaining state's bytes: those of its five words in order (R134). -/
theorem hBytes_eq_flatMap (h : HState) : hBytes h = [h.h0, h.h1, h.h2, h.h3, h.h4].flatMap fun w =>
    [24, 16, 8, 0].map fun k => BitVec.ofNat 8 (w.toNat / 2 ^ k) := by
  simp only [← be32_eq_map, hBytes, List.flatMap_cons, List.flatMap_nil, List.append_nil, List.append_assoc]

/-! ## The rounds as recurrences -/

/-- The round function by the last round of each row of R104. -/
theorem roundF_eq (i : Nat) (b c d : Word) : roundF i b c d =
    if i ≤ 19 then (b &&& c) ||| (~~~b &&& d)
    else if i ≤ 39 then b ^^^ c ^^^ d
    else if i ≤ 59 then (b &&& c) ||| (b &&& d) ||| (c &&& d)
    else b ^^^ c ^^^ d := by
  simp only [roundF, Nat.lt_succ_iff]

/-- The round constant by the last round of each row of R104. -/
theorem roundK_eq (i : Nat) : roundK i =
    if i ≤ 19 then 0x5A827999 else if i ≤ 39 then 0x6ED9EBA1 else if i ≤ 59 then 0x8F1BBCDC else 0xCA62C1D6 := by
  simp only [roundK, Nat.lt_succ_iff]

/-- The five assignments of a round, on the values from before it (R105). -/
theorem workAfter_succ (w : List Word) (h : HState) (n : Nat) : workAfter w h (n + 1) =
    { a := (workAfter w h n).a.rotateLeft 5 + roundF n (workAfter w h n).b (workAfter w h n).c (workAfter w h n).d +
        (workAfter w h n).e + roundK n + w.getD n 0,
      b := (workAfter w h n).a, c := (workAfter w h n).b.rotateLeft 30, d := (workAfter w h n).c,
      e := (workAfter w h n).d } := by
  rw [workAfter, round, rotl_eq_rotateLeft _ (by decide), rotl_eq_rotateLeft _ (by decide)]

/-! ## The block loop as a fold -/

/-- The block loop compresses the blocks at `off`, `off + 64`, … in order (R108). -/
theorem processLoop_eq_foldl (k : Nat) (x : Context) (s : List Byte) (off : Nat) : processLoop k x s off =
    ((List.range k).foldl (fun y j => compress y ((s.drop (off + 64 * j)).take 64)) x, off + 64 * k) := by
  induction k generalizing x off with
  | zero => rfl
  | succ k ih =>
    rw [processLoop, ih, List.range_succ_eq_map, List.foldl_cons, List.foldl_map]
    simp only [Nat.mul_zero, Nat.add_zero, Nat.mul_succ, Nat.add_assoc, Nat.add_comm 64]

theorem take_drop_congr {α : Type} {s s' : List α} {a n m : Nat} (h : s'.take m = s.take m) (hm : a + n ≤ m) :
    (s'.drop a).take n = (s.drop a).take n := by
  have prefix_block (l : List α) : (l.drop a).take n = ((l.take m).drop a).take n := by
    rw [List.drop_take, List.take_take, Nat.min_eq_left (by omega)]
  rw [prefix_block, h, ← prefix_block]

/-- The block loop reads no byte at or after the offset it returns (R108). -/
theorem processBlocks_congr (x : Context) {s s' : List Byte} {off n : Nat}
    (h : s'.take (off + 64 * (n / 64)) = s.take (off + 64 * (n / 64))) :
    processBlocks x s' off n = processBlocks x s off n := by
  rw [processBlocks, processBlocks, processLoop_eq_foldl, processLoop_eq_foldl]
  refine Prod.ext (List.foldl_ext _ _ _ fun y j hj => ?_) rfl
  have hj : j < n / 64 := List.mem_range.mp hj
  rw [take_drop_congr h (by omega)]

/-! ## What a completed command reports -/

/-- A command with an effect completes, and only SRST touches `STICKY` (R14, R215). -/
theorem Effect.completed {s t : State} {i : Instr} (he : Effect s i t) (hi : i ≠ .srst) : completed s (complete t) := by
  cases he with
  | srst => exact absurd rfl hi
  | pblk _ _ _ => exact ⟨rfl, rfl⟩
  | nop | reset | update | finish | save | restore | clean | sclr | sread | hkey | hupd | hfin | hrst | hcln =>
    simp [Machine.completed]

/-- `CODE <- OK` does not reach the host's side. -/
theorem keepsHostSide_complete {s t : State} (h : keepsHostSide s t) : keepsHostSide s (complete t) := h

/-! ## The obligations -/

/-- Settles O24: the load loop and the extend loop, with `LOADBE32` and `ROTL` written as numbers and rotations. -/
theorem scheduleLoadsAndExtends : Obligations.ScheduleLoadsAndExtends := by
  intro x blk hw hb w
  have hsched : w = schedule blk x.w := compress_w x hb
  rw [hsched]
  refine ⟨?_, fun j hj => ?_, fun i h16 hi => ?_⟩
  · rw [schedule_length, hw]
  · rw [schedule_load hw hj, loadBE32_eq_ofNat]
  · rw [schedule_extend hw h16 hi, schedWord, rotl_eq_rotateLeft _ (by decide)]

/-- Settles O25: the sequences are the working variables after each number of rounds. -/
theorem roundsFollowTheRule : Obligations.RoundsFollowTheRule := by
  intro x blk hw hb w f k
  have hh : (compress x blk).h = accumulate x.h (workAfter w x.h 80) := by
    rw [compress_h_rounds hw hb, ← compress_w x hb]
  refine ⟨fun i => (workAfter w x.h i).a, fun i => (workAfter w x.h i).b, fun i => (workAfter w x.h i).c,
    fun i => (workAfter w x.h i).d, fun i => (workAfter w x.h i).e, ⟨rfl, rfl, rfl, rfl, rfl⟩, fun i _ => ?_, hh⟩
  dsimp only
  rw [workAfter_succ, roundF_eq, roundK_eq]
  exact ⟨rfl, rfl, rfl, rfl, rfl⟩

set_option maxRecDepth 4000 in
/-- V-C1, the worked example of R107: the padded block of "abc" compressed from IV, by running its 80 rounds. -/
theorem compress_abc : (compress Context.initial ([0x61, 0x62, 0x63, 0x80] ++ List.replicate 59 0 ++ [0x18])).h =
    ⟨0xA9993E36, 0x4706816A, 0xBA3E2571, 0x7850C26C, 0x9CD0D89D⟩ := by decide

/-- Settles O26: `H` is `compressH` of `H` and the block, and the schedule does not see what the array held. -/
theorem compressDependsOnStateAndBlockOnly : Obligations.CompressDependsOnStateAndBlockOnly := by
  refine ⟨fun x y blk hx hy hb => ⟨fun hh => ?_, ?_, compress_buf .., compress_bufLen .., compress_count ..,
    compress_fin ..⟩, compress_abc⟩
  · rw [compress_h hx, compress_h hy, hh]
  · rw [compress_w x hb, compress_w y hb, schedule_indep hx hy]

/-- Settles O27: the block loop is a fold over the blocks before the offset it returns. -/
theorem processBlocksTakesWholeBlocks : Obligations.ProcessBlocksTakesWholeBlocks := by
  intro x s off n _
  refine ⟨?_, processBlocks_snd x s off n, processBlocks_small x s off, fun _ => processBlocks_congr x⟩
  rw [processBlocks, processLoop_eq_foldl]

/-- Settles O28: PBLK has its effect, which is the block loop's on the context it names. -/
theorem pblkCompressesWholeBlocks : Obligations.PblkCompressesWholeBlocks := by
  intro s c x hx hwf hf hb
  obtain ⟨-, hw, -⟩ := (ctxWf_iff x).mp hwf
  have he := Effect.pblk hx hf (decide_eq_true hb)
  obtain ⟨-, hh, -, hbuf, hlen, hcount, hfin⟩ := processBlocks_spec hw (inputOf s) 0 (inputOf s).length
  refine ⟨_, (processBlocks x (inputOf s) 0 (inputOf s).length).1, exec_of_effect he, he.completed nofun,
    getElem?_set_of_some hx, hh, hbuf, hlen, hcount, hfin, fun hsmall => ?_, he.result_of_pblk,
    keepsHostSide_complete he.keepsHostSide, fun j hj => List.getElem?_set_ne hj.symm, rfl, rfl, fun _ => rfl⟩
  rw [processBlocks_small _ _ _ (by rwa [inputOf_length])]

/-- Settles O29: SREAD has its effect, which is to write the context's digest. -/
theorem sreadWritesChainingState : Obligations.SreadWritesChainingState := by
  intro s c x hm hx hl hb
  have he := Effect.sread hx hl (decide_eq_true hb)
  refine ⟨_, exec_of_effect he, he.completed nofun, ?_, fun a ha => ?_, ?_, keepsHostSide_complete he.keepsHostSide,
    ?_, ?_, ?_⟩
  · rw [complete_dmem, putOutput_dmem, memRead_digest hm, ctxDigest, hBytes_eq_flatMap]
  · rw [complete_dmem, putOutput_dmem, readByte_digest_outside ha]
  · rw [complete_ctx, putOutput_ctx]
  · rw [complete_snap, putOutput_snap]
  · rw [complete_hm, putOutput_hm]
  · rw [complete_result, putOutput_result]

end Sys2Proof.Machine
end

section
/-! SUPPORT. What a completed command that writes one context or one slot leaves, and the hasher's five commands that read
no memory: RESET, CLEAN, SAVE, RESTORE, SCLR (spec/41_hasher.md R131, R135 to R138, R141 to R144). -/

namespace Sys2Proof.Machine

/-! ## Commands that write one file at one index -/

/-- A command whose effect is to write one context completes, and changes no other context, no other file, neither `RESULT`
nor memory. -/
theorem exec_of_setCtx {s : State} {c : Idx} {x y : Context} {i : Instr} (hx : s.ctx[c.toNat]? = some x)
    (he : Effect s i (setCtx s c y)) (hi : i ≠ .srst) :
    ∃ t, exec i s = .next t ∧ completed s t ∧ t.ctx[c.toNat]? = some y ∧ keepsHostSide s t ∧ keepsOtherCtx c s t ∧
      t.snap = s.snap ∧ t.hm = s.hm ∧ t.result = s.result ∧ keepsMemory s t :=
  ⟨_, exec_of_effect he, he.completed hi, getElem?_set_of_some hx, keepsHostSide_complete he.keepsHostSide,
    fun _ hj => List.getElem?_set_ne hj.symm, rfl, rfl, rfl, fun _ => rfl⟩

/-- A command whose effect is to write one slot completes, and changes no other slot, no other file, neither `RESULT` nor
memory. -/
theorem exec_of_setSnap {s : State} {k : Idx} {p q : Snapshot} {i : Instr} (hp : s.snap[k.toNat]? = some p)
    (he : Effect s i (setSnap s k q)) (hi : i ≠ .srst) :
    ∃ t, exec i s = .next t ∧ completed s t ∧ t.snap[k.toNat]? = some q ∧ t.ctx = s.ctx ∧ keepsOtherSnap k s t ∧
      t.hm = s.hm ∧ t.result = s.result ∧ keepsHostSide s t ∧ keepsMemory s t :=
  ⟨_, exec_of_effect he, he.completed hi, getElem?_set_of_some hp, rfl, fun _ hj => List.getElem?_set_ne hj.symm, rfl,
    rfl, keepsHostSide_complete he.keepsHostSide, fun _ => rfl⟩

/-! ## What a slot holds -/

theorem ctxSave_buf_of_buffered {x : Context} (h : x.bufLen.toNat > 0) :
    (ctxSave x).bufValid = true ∧ (ctxSave x).buf = x.buf := by
  simp [ctxSave, h]

theorem ctxSave_buf_of_empty {x : Context} (h : x.bufLen.toNat = 0) :
    (ctxSave x).bufValid = false ∧ (ctxSave x).buf = List.replicate 128 0 := by
  simp [ctxSave, h]

theorem ctxRestore_buf (x : Context) (p : Snapshot) :
    (ctxRestore x p).buf = if p.bufValid then p.buf else x.buf := rfl

/-- RESTORE from a slot that holds no saved state (R142). -/
theorem exec_restore_of_not_valid {s : State} {c k : Idx} {x : Context} {p : Snapshot} (hx : s.ctx[c.toNat]? = some x)
    (hp : s.snap[k.toNat]? = some p) (hv : p.valid = false) :
    exec (.restore c k) s = .next (raise .snapempty s) := by
  simp only [exec, execRestore, getCtx, getSnap, hx, hp, hv, ok_bind, require_false, error_bind, settle_error]

/-! ## The obligations -/

/-- Settles O30: RESET writes one context, and `CtxReset` writes neither `BUF` nor `W`. -/
theorem resetReinitialisesContext : Obligations.ResetReinitialisesContext := fun _ _ _ hx =>
  exec_of_setCtx hx (.reset hx) nofun

/-- Settles O31: CLEAN writes one context, with the value it has after power-on. -/
theorem cleanWipesContext : Obligations.CleanWipesContext := fun _ _ _ hx =>
  exec_of_setCtx hx (.clean hx) nofun

/-- Settles O35: SAVE writes one slot, which carries a buffer exactly when bytes are buffered. -/
theorem saveCopiesContextToSlot : Obligations.SaveCopiesContextToSlot := by
  intro s c k x p hx hp hf
  obtain ⟨t, ht, hok, hq, hframe⟩ := exec_of_setSnap hp (.save hx hp hf) nofun
  exact ⟨t, ctxSave x, ht, hok, hq, rfl, rfl, rfl, rfl, ctxSave_buf_of_buffered, ctxSave_buf_of_empty, hframe⟩

/-- Settles O36: RESTORE writes one context, whose buffer is the slot's if the slot carries one. -/
theorem restoreLoadsContextFromSlot : Obligations.RestoreLoadsContextFromSlot := by
  intro s c k x p hx hp hv
  obtain ⟨t, ht, hok, hy, hhost, hother, hsnap, hhm, hresult, hmem⟩ := exec_of_setCtx hx (.restore hx hp hv) nofun
  refine ⟨t, ctxRestore x p, ht, hok, hy, rfl, rfl, rfl, rfl, rfl, fun hb => ?_, fun hb => ?_, hsnap, hother, hhm,
    hresult, hhost, hmem⟩
  · rw [ctxRestore_buf, if_pos hb]
  · rw [ctxRestore_buf, hb, if_neg Bool.false_ne_true]

/-- Settles O37: SCLR writes one slot, and the value it writes is not a saved state. -/
theorem sclrWipesSlot : Obligations.SclrWipesSlot := by
  intro s k p hp empty
  obtain ⟨t, ht, hok, hq, hctx, hframe⟩ := exec_of_setSnap hp (.sclr hp) nofun
  refine ⟨t, ht, hok, hq, fun c hc => ?_, hctx, hframe⟩
  obtain ⟨x, hx⟩ : ∃ x, s.ctx[c.toNat]? = some x := ⟨_, List.getElem?_eq_getElem hc⟩
  rw [← hctx] at hx
  exact exec_restore_of_not_valid hx hq rfl

end Sys2Proof.Machine
end

section
/-! SUPPORT. UPDATE and FINISH, and the padded buffer byte by byte (spec/41_hasher.md R132 to R134, R139, R140, R147). -/

namespace Sys2Proof.Machine

/-! ## The bytes of the padding -/

/-- The length field is the bit length's eight bytes, most significant first (R133). -/
theorem lengthField_eq_map (count : BitVec 64) : lengthField count =
    (List.range 8).map fun k => BitVec.ofNat 8 (8 * count.toNat % 2 ^ 64 / 2 ^ (8 * (7 - k))) := by
  have hbits : (8 * count).toNat = 8 * count.toNat % 2 ^ 64 := BitVec.toNat_mul 8 count
  simp only [lengthField, be32_eq_map, BitVec.extractLsb'_toNat, hbits]
  generalize 8 * count.toNat % 2 ^ 64 = bits
  simp only [List.range_succ, List.range_zero, List.map_cons, List.map_nil, List.nil_append, List.cons_append,
    List.cons.injEq, ← BitVec.toNat_inj, BitVec.toNat_ofNat, and_true, Nat.reduceSub, Nat.reduceMul, Nat.reducePow]
  omega

theorem lengthField_getD (count : BitVec 64) {k : Nat} (hk : k < 8) : (lengthField count).getD k 0 =
    BitVec.ofNat 8 (8 * count.toNat % 2 ^ 64 / 2 ^ (8 * (7 - k))) := by
  rw [lengthField_eq_map, List.getD_eq_getElem _ _ (by simpa using hk), List.getElem_map, List.getElem_range]

theorem padLength_eq {left : Nat} (hl : left < 64) : padLength left = if left ≤ 55 then 64 else 128 := by
  simp only [padLength, Nat.mod_eq_of_lt hl, Nat.lt_succ_iff]

/-- The padding by position in the buffer: the terminator, zeros, and the length field in the last eight bytes (R147). -/
theorem padding_getD {left j : Nat} (hl : left < 64) (hj : left + j < padLength left) (count : BitVec 64) :
    (padding left count).getD j 0 =
      if j = 0 then 0x80
      else if left + j < padLength left - 8 then 0
      else BitVec.ofNat 8 (8 * count.toNat % 2 ^ 64 / 2 ^ (8 * (padLength left - 1 - (left + j)))) := by
  have hlen := padding_length hl count
  unfold padding at hlen ⊢
  generalize (if left % 64 < 56 then 55 - left % 64 else 119 - left % 64) = zeros at hlen ⊢
  simp only [List.length_append, List.length_cons, List.length_replicate, lengthField_length] at hlen
  cases j with
  | zero => rfl
  | succ j =>
    rw [List.cons_append, List.getD_cons_succ, if_neg (Nat.succ_ne_zero j)]
    split
    · rw [List.getD_append _ _ _ _ (by rw [List.length_replicate]; omega), List.getD_replicate _ (by omega)]
    · rw [List.getD_append_right _ _ _ _ (by rw [List.length_replicate]; omega), List.length_replicate,
        lengthField_getD _ (by omega), show 7 - (j - zeros) = padLength left - 1 - (left + (j + 1)) by omega]

/-! ## The padded buffer -/

theorem wholeBlocks_two {m : List Byte} (h : m.length = 128) : wholeBlocks m = [m.take 64, m.drop 64] := by
  have h1 : (m.take 64).length = 64 := by rw [List.length_take]; omega
  have h2 : (m.drop 64).length = 64 := by rw [List.length_drop]; omega
  conv_lhs => rw [← List.take_append_drop 64 m]
  rw [wholeBlocks_append (by rw [h1]), wholeBlocks_one h1, wholeBlocks_one h2]
  rfl

section
variable {x : Context} (hwf : ctxWf x = true) (hf : x.fin = false)
include hwf hf

/-- The buffer of a context just finished, byte by byte (R133, R147). -/
theorem ctxFinish_buf_getD (i : Nat) : (ctxFinish x).buf.getD i 0 =
    if i < x.bufLen.toNat then x.buf.getD i 0
    else if i = x.bufLen.toNat then 0x80
    else if i < padLength x.bufLen.toNat - 8 then 0
    else if i < padLength x.bufLen.toNat then
      BitVec.ofNat 8 (8 * x.count.toNat % 2 ^ 64 / 2 ^ (8 * (padLength x.bufLen.toNat - 1 - i)))
    else x.buf.getD i 0 := by
  obtain ⟨hb, hw, -⟩ := (ctxWf_iff x).mp hwf
  have hl := ctxWf.lt hwf
  obtain ⟨-, hbuf, -⟩ := ctxFinish_spec hf hb hw hl
  have hdata := buffered_length hb
  have hpad := padding_length hl x.count
  rw [hbuf]
  by_cases hi : i < x.bufLen.toNat
  · rw [if_pos hi, List.getD_append _ _ _ _ (by rw [List.length_append]; omega),
      List.getD_append _ _ _ _ (by omega), buffered]
    simp [List.getD_eq_getElem?_getD, hi]
  rw [if_neg hi]
  by_cases hn : i < padLength x.bufLen.toNat
  · rw [List.getD_append _ _ _ _ (by rw [List.length_append]; omega), List.getD_append_right _ _ _ _ (by omega), hdata,
      padding_getD hl (by omega), show x.bufLen.toNat + (i - x.bufLen.toNat) = i by omega, if_pos hn]
    simp only [show i - x.bufLen.toNat = 0 ↔ i = x.bufLen.toNat by omega]
  · have hleft : x.bufLen.toNat < padLength x.bufLen.toNat := by
      rw [padLength]
      split <;> omega
    rw [List.getD_append_right _ _ _ _ (by rw [List.length_append]; omega), List.length_append, hdata, hpad,
      if_neg (by omega), if_neg (by omega), if_neg hn]
    simp [List.getD_eq_getElem?_getD, show padLength x.bufLen.toNat + (i - padLength x.bufLen.toNat) = i by omega]

/-- One block is compressed when at most 55 bytes are buffered, two otherwise (R133, R147). -/
theorem ctxFinish_h_blocks : (ctxFinish x).h =
    if x.bufLen.toNat ≤ 55 then compressH x.h ((ctxFinish x).buf.take 64)
    else compressH (compressH x.h ((ctxFinish x).buf.take 64)) ((ctxFinish x).buf.drop 64) := by
  obtain ⟨hb, hw, -⟩ := (ctxWf_iff x).mp hwf
  have hl := ctxWf.lt hwf
  obtain ⟨hh, hbuf, -⟩ := ctxFinish_spec hf hb hw hl
  have hlen : (buffered x ++ padding x.bufLen.toNat x.count).length = padLength x.bufLen.toNat := by
    rw [List.length_append, buffered_length hb, padding_length hl]
  rw [padLength_eq hl] at hlen hbuf
  split at hlen <;> rename_i hleft
  · rw [if_pos hleft, hh, hbuf, wholeBlocks_one hlen, List.take_left' hlen, hashBlocks_cons, hashBlocks_nil]
  · rw [if_neg hleft, List.drop_eq_nil_of_le (Nat.le_of_eq hb), List.append_nil] at hbuf
    rw [if_neg hleft, hh, hbuf, wholeBlocks_two hlen, hashBlocks_cons, hashBlocks_cons, hashBlocks_nil]

end

/-! ## The obligations -/

/-- Settles O32: UPDATE writes one context, with what `CtxUpdate` makes of it and the input. -/
theorem updateAbsorbsInput : Obligations.UpdateAbsorbsInput := by
  intro s c x hx hwf hf hb data
  obtain ⟨hbuf, hw, -⟩ := (ctxWf_iff x).mp hwf
  obtain ⟨hh, hdata, hlen, hcount, hfin, -⟩ := ctxUpdate_spec (inputOf s) hbuf hw (ctxWf.lt hwf)
  obtain ⟨t, ht, hok, hy, hframe⟩ := exec_of_setCtx hx (.update hx hf (decide_eq_true hb)) nofun
  refine ⟨t, ctxUpdate x (inputOf s), ht, hok, hy, hh, ?_, hdata, ?_, hfin.trans hf, hframe⟩
  · rw [hlen, List.length_append, buffered_length hbuf, inputOf_length, memRead_length]
  · rw [hcount, inputOf_length, BitVec.toNat_add, BitVec.toNat_ofNat, Nat.add_mod_mod]

/-- Settles O33: FINISH writes one context, which `CtxFinish` changes only while it is Active, and its digest. -/
theorem finishPadsAndWritesDigest : Obligations.FinishPadsAndWritesDigest := by
  intro s c x hm hx hwf hl hb
  obtain ⟨hbuf, hw, -⟩ := (ctxWf_iff x).mp hwf
  have he := Effect.finish hx hl (decide_eq_true hb)
  refine ⟨_, ctxFinish x, exec_of_effect he, he.completed nofun, ?_, ctxFinish_of_fin, fun hf => ?_, ?_, fun a ha => ?_,
    keepsHostSide_complete he.keepsHostSide, fun j hj => ?_, ?_, ?_, ?_⟩
  · rw [complete_ctx, putOutput_ctx, setCtx_ctx, getElem?_set_of_some hx]
  · obtain ⟨hh, -, hlen, hcount, hfin, -⟩ := ctxFinish_spec hf hbuf hw (ctxWf.lt hwf)
    exact ⟨hh, hfin, hlen, hcount⟩
  · rw [complete_dmem, putOutput_dmem, setCtx_dmem, setCtx_addr, memRead_digest hm, ctxDigest]
  · rw [complete_dmem, putOutput_dmem, setCtx_dmem, setCtx_addr, readByte_digest_outside ha]
  · rw [complete_ctx, putOutput_ctx, setCtx_ctx, List.getElem?_set_ne hj.symm]
  · rw [complete_snap, putOutput_snap, setCtx_snap]
  · rw [complete_hm, putOutput_hm, setCtx_hm]
  · rw [complete_result, putOutput_result, setCtx_result]

/-- Settles O34: the padded buffer by position, and its one or two blocks. -/
theorem paddingLayoutByBufferedBytes : Obligations.PaddingLayoutByBufferedBytes := by
  refine ⟨by decide, ?_⟩
  intro x hwf hf left n bits y
  refine ⟨fun i _ => ?_, ctxFinish_h_blocks hwf hf⟩
  rw [ctxFinish_buf_getD hwf hf, padLength_eq (ctxWf.lt hwf)]

end Sys2Proof.Machine
end

section
/-! SUPPORT. The hasher's states, Active and Finished, command by command, and the digest a repeated FINISH, SREAD or HFIN
writes (spec/41_hasher.md R130, R146). -/

namespace Sys2Proof.Machine

/-- Writing back the element a file holds. -/
theorem set_of_getElem? {α : Type} {l : List α} {j : Nat} {x : α} (h : l[j]? = some x) : l.set j x = l := by
  obtain ⟨hj, rfl⟩ := List.getElem?_eq_some_iff.mp h
  exact List.set_getElem_self hj

/-! ## Commands that completed, and commands that raised -/

/-- A command that ended `OK` had its effect: a raise leaves another code (R210). -/
theorem effect_of_exec_ok {s t : State} {i : Instr} (h : exec i s = .next t) (hok : t.code = .ok) :
    ∃ u, t = complete u ∧ Effect s i u := by
  rcases exec_cases i s with ⟨e, hne, hr⟩ | ⟨u, hr, he⟩ <;> cases hr.symm.trans h
  · exact absurd hok hne
  · exact ⟨u, rfl, he⟩

/-- A command whose effect is known to hold ended with it. -/
theorem exec_eq_of_effect {s t u : State} {i : Instr} (he : Effect s i u) (h : exec i s = .next t) : t = complete u :=
  Host.Outcome.next.inj (h.symm.trans (exec_of_effect he))

section
variable {s : State} {c k : Idx} {x : Context} (hx : s.ctx[c.toNat]? = some x)
include hx

/-- UPDATE, SAVE and PBLK of a Finished context raise `MISUSE` (R130). -/
theorem exec_update_of_fin (hf : x.fin = true) : exec (.update c) s = .next (raise .misuse s) := by
  simp only [exec, execUpdate, getCtx, hx, hf, ok_bind, Bool.not_true, require_false, error_bind, settle_error]

@[inherit_doc exec_update_of_fin]
theorem exec_pblk_of_fin (hf : x.fin = true) : exec (.pblk c) s = .next (raise .misuse s) := by
  simp only [exec, execPblk, getCtx, hx, hf, ok_bind, Bool.not_true, require_false, error_bind, settle_error]

@[inherit_doc exec_update_of_fin]
theorem exec_save_of_fin {p : Snapshot} (hp : s.snap[k.toNat]? = some p) (hf : x.fin = true) :
    exec (.save c k) s = .next (raise .misuse s) := by
  simp only [exec, execSave, getCtx, getSnap, hx, hp, hf, ok_bind, Bool.not_true, require_false, error_bind, settle_error]

end

/-- What a FINISH that completed leaves: the context finished, and its digest at `ADDR` (R140). -/
theorem exec_finish_ok {s t : State} {c : Idx} (h : exec (.finish c) s = .next t) (hok : t.code = .ok) :
    ∃ x, s.ctx[c.toNat]? = some x ∧ t.ctx = s.ctx.set c.toNat (ctxFinish x) ∧
      t.dmem = memWrite s.dmem s.addr.toNat (ctxDigest (ctxFinish x)) := by
  obtain ⟨u, rfl, he⟩ := effect_of_exec_ok h hok
  cases he with
  | finish hx _ _ =>
    refine ⟨_, hx, ?_, ?_⟩
    · rw [complete_ctx, putOutput_ctx, setCtx_ctx]
    · rw [complete_dmem, putOutput_dmem, setCtx_dmem, setCtx_addr]

/-- What an HFIN that completed leaves: the channel finished, and the outer digest at `ADDR` (spec/42_hmac.md R175). -/
theorem exec_hfin_ok {s t : State} {h : Idx} (hx : exec (.hfin h) s = .next t) (hok : t.code = .ok) :
    ∃ ch, s.hm[h.toNat]? = some ch ∧ ch.keyed = true ∧ t.hm = s.hm.set h.toNat (finishChannel ch) ∧
      t.dmem = memWrite s.dmem s.addr.toNat (ctxDigest (finishChannel ch).out) := by
  obtain ⟨u, rfl, he⟩ := effect_of_exec_ok hx hok
  cases he with
  | hfin hc hk _ _ =>
    refine ⟨_, hc, hk, ?_, ?_⟩
    · rw [complete_hm, putOutput_hm, setChan_hm]
    · rw [complete_dmem, putOutput_dmem, setChan_dmem, setChan_addr]

/-! ## The state machine -/

theorem processBlocks_fin {x : Context} (h : ctxWf x = true) (bs : List Byte) (off n : Nat) :
    (processBlocks x bs off n).1.fin = x.fin := by
  obtain ⟨-, hw, -⟩ := (ctxWf_iff x).mp h
  obtain ⟨-, -, -, -, -, -, hfin⟩ := processBlocks_spec hw bs off n
  exact hfin

theorem fin_of_set {l : List Context} {j : Nat} {x : Context} (h : l[j]? = some x) (y : Context) :
    ((l.set j y)[j]?).map (·.fin) = some y.fin := by
  rw [getElem?_set_of_some h, Option.map_some]

/-- UPDATE, PBLK and SREAD leave a context Active or Finished as it was, whether they raise or complete (R130). -/
theorem Effect.fin_kept {s t : State} {i : Instr} {c : Idx} {x : Context} (he : Effect s i t)
    (hi : i = .update c ∨ i = .pblk c ∨ i = .sread c) (hx : s.ctx[c.toNat]? = some x) (hwf : ctxWf x = true) :
    (t.ctx[c.toNat]?).map (·.fin) = some x.fin := by
  rcases hi with rfl | rfl | rfl
  · cases he with
    | update hx' _ _ =>
      cases hx.symm.trans hx'
      rw [setCtx_ctx, fin_of_set hx, ctxUpdate_fin hwf]
  · cases he with
    | pblk hx' _ _ =>
      cases hx.symm.trans hx'
      exact (fin_of_set hx _).trans (congrArg some (processBlocks_fin hwf ..))
  · cases he with
    | sread _ _ _ => rw [putOutput_ctx, hx, Option.map_some]

theorem exec_fin_kept {s t : State} {i : Instr} {c : Idx} {x : Context} (h : exec i s = .next t)
    (hi : i = .update c ∨ i = .pblk c ∨ i = .sread c) (hx : s.ctx[c.toNat]? = some x) (hwf : ctxWf x = true) :
    (t.ctx[c.toNat]?).map (·.fin) = some x.fin := by
  rcases exec_cases i s with ⟨e, -, hr⟩ | ⟨u, hr, he⟩ <;> cases hr.symm.trans h
  · rw [raise_ctx, hx, Option.map_some]
  · exact he.fin_kept hi hx hwf

/-- Settles O38: each command in turn, by what it raises or the context it writes. -/
theorem hasherStateMachine : Obligations.HasherStateMachine := by
  refine ⟨fun p m x hx => List.eq_of_mem_replicate hx ▸ rfl, ?_⟩
  intro s t c x hinv hx finAfter
  obtain ⟨-, -, -, -, hmem, -⟩ := (inv_iff s).mp hinv
  have hwf := ctxWf_of_inv hinv hx
  refine ⟨fun h => ?reset, fun h => ?clean, fun h => ⟨exec_fin_kept h (.inl rfl) hx hwf, fun hf => ?update⟩,
    fun h hok => ?finish, fun k hk h => ?save, fun k h hok => ?restore,
    fun h => ⟨exec_fin_kept h (.inr (.inl rfl)) hx hwf, fun hf => ?pblk⟩,
    fun h => exec_fin_kept h (.inr (.inr rfl)) hx hwf⟩
  case reset =>
    cases exec_eq_of_effect (.reset hx) h
    exact fin_of_set hx _
  case clean =>
    cases exec_eq_of_effect (.clean hx) h
    exact fin_of_set hx _
  case update =>
    cases (exec_update_of_fin hx hf).symm.trans h
    rfl
  case pblk =>
    cases (exec_pblk_of_fin hx hf).symm.trans h
    rfl
  case finish =>
    obtain ⟨x', hx', hctx, hdmem⟩ := exec_finish_ok h hok
    cases hx.symm.trans hx'
    refine ⟨?_, fun hf => ?_⟩
    · show (t.ctx[c.toNat]?).map (·.fin) = some true
      rw [hctx, fin_of_set hx, ctxFinish_fin]
    · rw [hctx, hdmem, ctxFinish_of_fin hf, set_of_getElem? hx, memRead_digest hmem, ctxDigest]
      exact ⟨rfl, rfl⟩
  case save =>
    obtain ⟨p, hp⟩ : ∃ p, s.snap[k.toNat]? = some p := ⟨_, List.getElem?_eq_getElem hk⟩
    cases hf : x.fin
    · cases exec_eq_of_effect (.save hx hp hf) h
      exact ⟨rfl, nofun, fun _ => ⟨rfl, by rw [complete_snap, setSnap_snap, getElem?_set_of_some hp]; rfl⟩⟩
    · cases (exec_save_of_fin hx hp hf).symm.trans h
      exact ⟨rfl, fun _ => rfl, nofun⟩
  case restore =>
    obtain ⟨u, rfl, he⟩ := effect_of_exec_ok h hok
    cases he with
    | restore hx' _ _ => exact fin_of_set hx' _

/-! ## Repeated digests -/

@[simp] theorem finishChannel_done (ch : Channel) : (finishChannel ch).done = true := by
  unfold finishChannel
  split
  · assumption
  · rfl

@[simp] theorem finishChannel_keyed (ch : Channel) : (finishChannel ch).keyed = ch.keyed := by
  unfold finishChannel
  split <;> rfl

/-- A finished channel is left alone (spec/42_hmac.md R175). -/
theorem finishChannel_of_done {ch : Channel} (hd : ch.done = true) : finishChannel ch = ch := by
  rw [finishChannel, if_pos hd]

section
variable {u : State} (hm : u.dmem.wf = true) (hl : 20 ≤ u.len.toNat) (hb : u.addr.toNat + 20 ≤ u.dmemSize)
include hm hl hb

/-- FINISH of a Finished context writes its digest and leaves it alone (R140, R146). -/
theorem exec_finish_of_fin {c : Idx} {x : Context} (hx : u.ctx[c.toNat]? = some x) (hf : x.fin = true) :
    ∃ v, exec (.finish c) u = .next v ∧ v.code = .ok ∧ memRead v.dmem u.addr.toNat 20 = ctxDigest x ∧ v.ctx = u.ctx := by
  have he := Effect.finish hx hl (decide_eq_true hb)
  rw [ctxFinish_of_fin hf] at he
  refine ⟨_, exec_of_effect he, rfl, ?_, ?_⟩
  · rw [complete_dmem, putOutput_dmem, setCtx_dmem, setCtx_addr, memRead_digest hm]
  · rw [complete_ctx, putOutput_ctx, setCtx_ctx, set_of_getElem? hx]

/-- SREAD writes a context's digest and leaves it alone (spec/40_compression.md R110). -/
theorem exec_sread {c : Idx} {x : Context} (hx : u.ctx[c.toNat]? = some x) :
    ∃ v, exec (.sread c) u = .next v ∧ v.code = .ok ∧ memRead v.dmem u.addr.toNat 20 = ctxDigest x ∧ v.ctx = u.ctx := by
  refine ⟨_, exec_of_effect (.sread hx hl (decide_eq_true hb)), rfl, ?_, ?_⟩
  · rw [complete_dmem, putOutput_dmem, memRead_digest hm]
  · rw [complete_ctx, putOutput_ctx]

/-- HFIN of a finished channel writes its outer digest and leaves it alone (spec/42_hmac.md R175). -/
theorem exec_hfin_of_done {h : Idx} {ch : Channel} (hc : u.hm[h.toNat]? = some ch) (hk : ch.keyed = true)
    (hd : ch.done = true) :
    ∃ v, exec (.hfin h) u = .next v ∧ v.code = .ok ∧ memRead v.dmem u.addr.toNat 20 = ctxDigest ch.out ∧ v.hm = u.hm := by
  have he := Effect.hfin hc hk hl (decide_eq_true hb)
  rw [finishChannel_of_done hd] at he
  refine ⟨_, exec_of_effect he, rfl, ?_, ?_⟩
  · rw [complete_dmem, putOutput_dmem, setChan_dmem, setChan_addr, memRead_digest hm]
  · rw [complete_hm, putOutput_hm, setChan_hm, set_of_getElem? hc]

end

/-- Settles O41: the first command left the context or channel finished, and the second writes its digest again. -/
theorem repeatedFinishWritesTheSameDigest : Obligations.RepeatedFinishWritesTheSameDigest := by
  intro s t u hs hu hok hl hb same
  refine ⟨fun c h huc => ?_, fun k h huk => ?_⟩
  · obtain ⟨x, hx, hctx, hdmem⟩ := exec_finish_ok h hok
    rw [hctx, getElem?_set_of_some hx] at huc
    have hsame : memRead t.dmem s.addr.toNat 20 = ctxDigest (ctxFinish x) := by rw [hdmem, memRead_digest hs]
    dsimp only [same]
    rw [hsame]
    exact ⟨exec_finish_of_fin hu hl hb huc (ctxFinish_fin x), exec_sread hu hl hb huc⟩
  · obtain ⟨ch, hc, hk, hhm, hdmem⟩ := exec_hfin_ok h hok
    rw [hhm, getElem?_set_of_some hc] at huk
    have hsame : memRead t.dmem s.addr.toNat 20 = ctxDigest (finishChannel ch).out := by rw [hdmem, memRead_digest hs]
    dsimp only [same]
    rw [hsame]
    exact exec_hfin_of_done hu hl hb huk ((finishChannel_keyed ch).trans hk) (finishChannel_done ch)

end Sys2Proof.Machine
end

section
/-! SUPPORT. Messages absorbed in chunks: by contexts a host cannot tell apart, from a reset, and over a session of commands
(spec/41_hasher.md R135, R136, R140, R145). -/

namespace Sys2Proof.Machine

/-- Alike contexts that absorb the same chunks finish with the same digest. -/
theorem absorb_digest_alike {x y : Context} (hx : ctxWf x = true) (hy : ctxWf y = true) (h : ctxAlike x y)
    (chunks : List (List Byte)) :
    ctxDigest (ctxFinish (absorb x chunks)) = ctxDigest (ctxFinish (absorb y chunks)) := by
  induction chunks generalizing x y with
  | nil => exact ctxDigest_alike (ctxFinish_alike hx hy h)
  | cons bs chunks ih => exact ih (ctxWf_ctxUpdate hx bs) (ctxWf_ctxUpdate hy bs) (ctxUpdate_alike hx hy h bs)

/-- What RESTORE loads into any context is alike to the Active context that was saved (R135, R136). -/
theorem ctxRestore_ctxSave_alike (x y : Context) (hf : x.fin = false) : ctxAlike (ctxRestore y (ctxSave x)) x :=
  ⟨rfl, rfl, rfl, hf.symm, buffered_ctxRestore_ctxSave x y⟩

/-- Chunks extend the message absorbed, one after the other (R145). -/
theorem Absorbed.absorb {x : Context} {m : List Byte} (h : Absorbed x m) (chunks : List (List Byte)) :
    Absorbed (absorb x chunks) (m ++ chunks.flatten) := by
  induction chunks generalizing x m with
  | nil => rwa [List.flatten_nil, List.append_nil]
  | cons bs chunks ih =>
    rw [List.flatten_cons, ← List.append_assoc]
    exact ih (h.update bs)

/-- A context reset and given some chunks has absorbed the message they make up (R145). -/
theorem absorbed_reset_chunks {x : Context} (hx : ctxWf x = true) (chunks : List (List Byte)) :
    Absorbed (absorb (ctxReset x) chunks) chunks.flatten :=
  (absorbed_ctxReset hx).absorb chunks

/-- The context of a session has absorbed the session's message. -/
theorem HashSession.absorbed {c : Idx} {m : List Byte} {s : State} (hs : HashSession c m s) :
    ∃ x, s.ctx[c.toNat]? = some x ∧ Absorbed x m := by
  induction hs with
  | reset hinv h hok =>
    obtain ⟨u, rfl, he⟩ := effect_of_exec_ok h hok
    cases he with
    | reset hx => exact ⟨_, getElem?_set_of_some hx, absorbed_ctxReset (ctxWf_of_inv hinv hx)⟩
  | clean h hok =>
    obtain ⟨u, rfl, he⟩ := effect_of_exec_ok h hok
    cases he with
    | clean hx => exact ⟨_, getElem?_set_of_some hx, absorbed_initial⟩
  | update _ h hok ih =>
    obtain ⟨x, hx, habs⟩ := ih
    obtain ⟨u, rfl, he⟩ := effect_of_exec_ok h hok
    cases he with
    | update hx' _ _ =>
      cases hx.symm.trans hx'
      exact ⟨_, getElem?_set_of_some hx, habs.update _⟩
  | other _ h ih => rwa [h]

/-! ## The obligations -/

/-- Settles O39: what RESTORE loads is alike to what SAVE read, and alike contexts hash alike. -/
theorem saveThenRestoreClonesTheHash : Obligations.SaveThenRestoreClonesTheHash := by
  intro s c d k x hinv hx hf hd hk
  obtain ⟨p, hp⟩ : ∃ p, s.snap[k.toNat]? = some p := ⟨_, List.getElem?_eq_getElem hk⟩
  obtain ⟨z, hz⟩ : ∃ z, s.ctx[d.toNat]? = some z := ⟨_, List.getElem?_eq_getElem hd⟩
  obtain ⟨t, ht, -, hq, hctx, -⟩ := exec_of_setSnap hp (.save hx hp hf) nofun
  rw [← hctx] at hz
  obtain ⟨u, hu, hok, hy, -⟩ := exec_of_setCtx hz (.restore hz hq rfl) nofun
  have hwf := ctxWf_of_inv hinv hx
  have hwf' := ctxWf_ctxRestore (ctxWf_of_inv hinv (hctx ▸ hz)) (snapWf_ctxSave hwf)
  have halike := ctxRestore_ctxSave_alike x z hf
  exact ⟨t, u, _, ht, hu, hok.1, hy, halike, absorb_digest_alike hwf' hwf halike⟩

/-- Settles O40: what is left after the chunks is said by their concatenation alone, and so is the digest. -/
theorem streamingDoesNotDependOnChunks : Obligations.StreamingDoesNotDependOnChunks := by
  intro x chunks hx m y
  have habs : Absorbed y m := absorbed_reset_chunks hx chunks
  have hbuf : y.buf.take (m.length % 64) = restPart m := habs.bufLen ▸ habs.buffered
  refine ⟨habs.h, habs.bufLen, hbuf, habs.count, habs.fin, fun x' chunks' hx' hm => ?_⟩
  have habs' : Absorbed (absorb (ctxReset x') chunks') m := hm ▸ absorbed_reset_chunks hx' chunks'
  rw [habs'.digest, habs.digest]

/-- Settles O49: the session's context has absorbed the message, and FINISH writes its digest. -/
theorem finishWritesSha1OfTheMessage : Obligations.FinishWritesSha1OfTheMessage := by
  intro c m s t hs hm h hok
  obtain ⟨x, hx, habs⟩ := hs.absorbed
  obtain ⟨x', hx', -, hdmem⟩ := exec_finish_ok h hok
  cases hx.symm.trans hx'
  rw [hdmem, memRead_digest hm, habs.digest]

end Sys2Proof.Machine
end

section
/-! SUPPORT. What a completed command that writes one channel leaves, and the five HMAC commands: keyed states, the message
in the inner context, the MAC, long keys (spec/42_hmac.md R171 to R177, R179). -/

namespace Sys2Proof.Machine

/-! ## Commands that write one channel -/

/-- A command whose effect is to write one channel completes, and changes no other channel, no other file, neither `RESULT`
nor memory. -/
theorem exec_of_setChan {s : State} {h : Idx} {ch ch' : Channel} {i : Instr} (hc : s.hm[h.toNat]? = some ch)
    (he : Effect s i (setChan s h ch')) (hi : i ≠ .srst) :
    ∃ t, exec i s = .next t ∧ completed s t ∧ t.hm[h.toNat]? = some ch' ∧ keepsHostSide s t ∧ keepsOtherChan h s t ∧
      t.ctx = s.ctx ∧ t.snap = s.snap ∧ t.result = s.result ∧ keepsMemory s t :=
  ⟨_, exec_of_effect he, he.completed hi, getElem?_set_of_some hc, keepsHostSide_complete he.keepsHostSide,
    fun _ hj => List.getElem?_set_ne hj.symm, rfl, rfl, rfl, fun _ => rfl⟩

/-! ## Keyed states -/

/-- What the snapshot of a context with an empty buffer holds (R135). -/
theorem ctxSave_of_empty {x : Context} (h : x.bufLen = 0) :
    ctxSave x = { valid := true, h := x.h, bufValid := false, buf := List.replicate 128 0, bufLen := 0,
                  count := x.count } := by
  simp [ctxSave, h]

/-- A count of whole blocks leaves nothing buffered (R37). -/
theorem bufLen_eq_zero {n : BitVec 7} {count : BitVec 64} (h : n.toNat = count.toNat % 64) (hc : count = 64) : n = 0 :=
  BitVec.eq_of_toNat_eq (by rw [h, hc]; rfl)

/-- Restoring a keyed state, which carries no buffer, leaves `BUF` alone (R136, R176). -/
theorem ctxRestore_keyed {p : Snapshot} (hp : snapWf p = true) (hc : p.count = 64) (x : Context) :
    ctxRestore x p = { x with h := p.h, bufLen := 0, count := 64, fin := false } := by
  obtain ⟨-, hlen, hvalid, -⟩ := (snapWf_iff p).mp hp
  have h0 : p.bufLen = 0 := bufLen_eq_zero hlen hc
  rw [h0] at hvalid
  simp [ctxRestore, h0, hc, hvalid]

/-- What `chanWf` says of a keyed channel (R39, R173, R175). -/
theorem keyed_counts {ch : Channel} (h : chanWf ch = true) (hk : ch.keyed = true) :
    ch.ikey.count = 64 ∧ ch.okey.count = 64 ∧ (ch.done = false → ch.out.count = 64) := by
  obtain ⟨-, -, -, -, -, -, ⟨-, -, -, hi, ho, hd⟩ | ⟨hk', -⟩⟩ := (chanWf_iff ch).mp h
  · exact ⟨hi, ho, fun hf => (hd.resolve_left (by rw [hf]; decide)).2⟩
  · rw [hk] at hk'
    cases hk'

/-- What HRST makes of a keyed channel (R176). -/
theorem restoreChannel_eq {ch : Channel} (hwf : chanWf ch = true) (hk : ch.keyed = true) :
    restoreChannel ch = { ch with
      inn := { ch.inn with h := ch.ikey.h, bufLen := 0, count := 64, fin := false },
      out := { ch.out with h := ch.okey.h, bufLen := 0, count := 64, fin := false }, done := false } := by
  obtain ⟨-, -, hikey, hokey, -⟩ := (chanWf_iff ch).mp hwf
  obtain ⟨hi, ho, -⟩ := keyed_counts hwf hk
  rw [restoreChannel, ctxRestore_keyed hikey hi, ctxRestore_keyed hokey ho]

/-! ## The outer context -/

/-- What HFIN makes of a channel not yet finished (R175). -/
theorem finishChannel_of_not_done {ch : Channel} (hd : ch.done = false) :
    finishChannel ch = { ch with
      inn := ctxFinish ch.inn, out := ctxFinish (ctxUpdate ch.out (ctxDigest (ctxFinish ch.inn))), done := true } := by
  rw [finishChannel, if_neg (by rw [hd]; decide)]

/-- A context with one block absorbed and nothing buffered, given a digest and finished (R132, R133). -/
theorem ctxFinish_ctxUpdate_digest {x : Context} (hwf : ctxWf x = true) (hf : x.fin = false) (hc : x.count = 64)
    {d : List Byte} (hd : d.length = 20) :
    (ctxFinish (ctxUpdate x d)).h = hashBlocks x.h (wholeBlocks (d ++ padding 20 84)) ∧
    (ctxFinish (ctxUpdate x d)).count = 84 ∧ (ctxFinish (ctxUpdate x d)).bufLen = 20 ∧
    (ctxFinish (ctxUpdate x d)).fin = true := by
  obtain ⟨hbuf, hw, hlen⟩ := (ctxWf_iff x).mp hwf
  have h0 : x.bufLen = 0 := bufLen_eq_zero hlen hc
  have hempty : buffered x = [] := by rw [buffered, h0]; rfl
  obtain ⟨uh, udata, ulen, ucount, ufin, ubuf, uw⟩ := ctxUpdate_spec d hbuf hw (ctxWf.lt hwf)
  rw [hempty, List.nil_append] at uh udata
  rw [wholeBlocks_small (by rw [hd]; decide), hashBlocks_nil] at uh
  rw [hd] at udata ulen ucount
  have hlen20 : (ctxUpdate x d).bufLen = 20 := BitVec.eq_of_toNat_eq (by rw [ulen, h0]; rfl)
  have hcount : (ctxUpdate x d).count = 84 := by rw [ucount, hc]; rfl
  obtain ⟨fh, -, flen, fcount, ffin, -⟩ :=
    ctxFinish_spec (ufin.trans hf) ubuf uw (ctxWf.lt (ctxWf_ctxUpdate hwf d))
  rw [udata, uh, hlen20, hcount] at fh
  exact ⟨fh, fcount.trans hcount, flen.trans hlen20, ffin⟩

/-! ## Long keys -/

/-- A hash fits in a block, so it is its own block key but for the zeros behind it (R171, R179). -/
theorem blockKey_sha1Of {key : List Byte} (hl : 64 < key.length) : blockKey (sha1Of key) = blockKey key := by
  have hshort : ¬ 64 < (sha1Of key).length := by rw [sha1Of_length]; decide
  simp only [blockKey, gt_iff_lt, hl, hshort, if_true, if_false]

/-! ## The obligations -/

/-- Settles O42: what HKEY writes is a function of the key, and each context in it has absorbed one block. -/
theorem hkeyKeysChannel : Obligations.HkeyKeysChannel := by
  intro s h ch hc hb k0 saved
  obtain ⟨t, ht, hok, hu, hframe⟩ := exec_of_setChan hc (.hkey hc (decide_eq_true hb)) nofun
  rw [keyChannel_eq] at hu
  obtain ⟨ih, ilen, icount, ifin⟩ := keyed_context (inputOf s) innerPad
  obtain ⟨oh, olen, ocount, ofin⟩ := keyed_context (inputOf s) outerPad
  have hsaved : ∀ {x : Context}, x.bufLen = 0 → x.count = 64 → ctxSave x = saved x.h := fun h0 hcount => by
    rw [ctxSave_of_empty h0, hcount]
  refine ⟨t, _, ht, hok, hu, rfl, rfl, ?_, ?_, ilen, icount, ifin, olen, ocount, ofin, hsaved ilen icount,
    hsaved olen ocount, hframe⟩
  · rw [ih, keyBlock_eq]
    rfl
  · rw [oh, keyBlock_eq]
    rfl

/-- Settles O43: HUPD writes one channel, whose inner context is what `CtxUpdate` makes of it and the input. -/
theorem hupdAbsorbsMessage : Obligations.HupdAbsorbsMessage := by
  intro s h ch hc hchan hk hf hb data
  obtain ⟨hwf, -⟩ := (chanWf_iff ch).mp hchan
  obtain ⟨hbuf, hw, -⟩ := (ctxWf_iff ch.inn).mp hwf
  obtain ⟨hh, hdata, hlen, hcount, hfin, -⟩ := ctxUpdate_spec (inputOf s) hbuf hw (ctxWf.lt hwf)
  obtain ⟨t, ht, hok, hu, hframe⟩ := exec_of_setChan hc (.hupd hc hk hf (decide_eq_true hb)) nofun
  refine ⟨t, ctxUpdate ch.inn (inputOf s), ht, hok, hu, hh, ?_, hdata, ?_, hfin.trans hf, hframe⟩
  · rw [hlen, List.length_append, buffered_length hbuf, inputOf_length, memRead_length]
  · rw [hcount, inputOf_length, BitVec.toNat_add, BitVec.toNat_ofNat, Nat.add_mod_mod]

/-- Settles O44: HFIN writes one channel, whose contexts it finishes only while the channel is open, and the outer digest. -/
theorem hfinWritesMac : Obligations.HfinWritesMac := by
  intro s h ch hm hc hchan hk hl hb
  obtain ⟨hin, hout, -, -, ifin, ofin, -⟩ := (chanWf_iff ch).mp hchan
  obtain ⟨hbuf, hw, -⟩ := (ctxWf_iff ch.inn).mp hin
  have he := Effect.hfin hc hk hl (decide_eq_true hb)
  refine ⟨_, finishChannel ch, exec_of_effect he, he.completed nofun, ?_, finishChannel_of_done, fun hd => ?_, ?_,
    fun a ha => ?_, keepsHostSide_complete he.keepsHostSide, fun j hj => ?_, ?_, ?_, ?_⟩
  · rw [complete_hm, putOutput_hm, setChan_hm, getElem?_set_of_some hc]
  · obtain ⟨ih, -, ilen, icount, ifin', -⟩ := ctxFinish_spec (ifin.trans hd) hbuf hw (ctxWf.lt hin)
    obtain ⟨-, -, hcount⟩ := keyed_counts hchan hk
    obtain ⟨oh, ocount, olen, ofin'⟩ :=
      ctxFinish_ctxUpdate_digest hout (ofin.trans hd) (hcount hd) (ctxDigest_length (ctxFinish ch.inn))
    rw [finishChannel_of_not_done hd]
    exact ⟨ih, icount, ilen, ifin', oh, ocount, olen, ofin', rfl, hk, rfl, rfl⟩
  · rw [complete_dmem, putOutput_dmem, setChan_dmem, setChan_addr, memRead_digest hm, ctxDigest]
  · rw [complete_dmem, putOutput_dmem, setChan_dmem, setChan_addr, readByte_digest_outside ha]
  · rw [complete_hm, putOutput_hm, setChan_hm, List.getElem?_set_ne hj.symm]
  · rw [complete_ctx, putOutput_ctx, setChan_ctx]
  · rw [complete_snap, putOutput_snap, setChan_snap]
  · rw [complete_result, putOutput_result, setChan_result]

/-- Settles O45: HRST writes one channel, with the keyed states loaded into its contexts. -/
theorem hrstReturnsToKeyedState : Obligations.HrstReturnsToKeyedState := by
  intro s h ch hc hwf hk
  rw [← restoreChannel_eq hwf hk]
  exact exec_of_setChan hc (.hrst hc hk) nofun

/-- Settles O46: HCLN writes one channel, with the value it has after power-on. -/
theorem hclnWipesChannel : Obligations.HclnWipesChannel := fun _ _ _ hc =>
  exec_of_setChan hc (.hcln hc) nofun

/-- Settles O48: a long key and its hash have one block key, and a key enters by its block key alone. -/
theorem longKeyActsAsItsHash : Obligations.LongKeyActsAsItsHash := by
  intro key m ch ch' hl
  refine ⟨?_, ?_⟩
  · rw [hmacOf, hmacOf, blockKey_sha1Of hl]
  · rw [keyChannel_eq, keyChannel_eq]
    simp only [keyBlock_eq, blockKey_sha1Of hl]

end Sys2Proof.Machine
end

section
/-! SUPPORT. The channel's states, Unkeyed, Open and Done, command by command (spec/42_hmac.md R172). -/

namespace Sys2Proof.Machine

/-! ## The states -/

theorem chanState_eq_unkeyed_iff (ch : Channel) : chanState ch = .unkeyed ↔ ch.keyed = false := by
  cases hk : ch.keyed
  · simp [chanState, hk]
  · cases hd : ch.done <;> simp [chanState, hk, hd]

theorem chanState_eq_opened_iff (ch : Channel) : chanState ch = .opened ↔ ch.keyed = true ∧ ch.done = false := by
  cases hk : ch.keyed <;> simp [chanState, hk]

theorem chanState_eq_finished_iff (ch : Channel) : chanState ch = .finished ↔ ch.keyed = true ∧ ch.done = true := by
  cases hk : ch.keyed <;> simp [chanState, hk]

theorem chanState_ne_unkeyed_iff (ch : Channel) : chanState ch ≠ .unkeyed ↔ ch.keyed = true := by
  rw [Ne, chanState_eq_unkeyed_iff, Bool.not_eq_false]

/-- The state of a channel just written. -/
theorem chanState_of_set {l : List Channel} {j : Nat} {ch ch' : Channel} {st : ChanState} (h : l[j]? = some ch)
    (hst : chanState ch' = st) : ((l.set j ch')[j]?).map chanState = some st := by
  rw [getElem?_set_of_some h, Option.map_some, hst]

/-- An unkeyed channel is as after power-on (R177). -/
theorem eq_initial_of_unkeyed {ch : Channel} (h : chanWf ch = true) (hk : ch.keyed = false) : ch = Channel.initial := by
  obtain ⟨-, -, -, -, -, -, ⟨hk', -⟩ | ⟨-, heq⟩⟩ := (chanWf_iff ch).mp h
  · rw [hk] at hk'
    cases hk'
  · exact heq

/-! ## Commands that raise -/

section
variable {s : State} {h : Idx} {ch : Channel} (hc : s.hm[h.toNat]? = some ch)
include hc

/-- HUPD, HFIN and HRST of an unkeyed channel raise `NOKEY` (R172). -/
theorem exec_hupd_of_unkeyed (hk : ch.keyed = false) : exec (.hupd h) s = .next (raise .nokey s) := by
  simp only [exec, execHupd, getChan, hc, hk, ok_bind, require_false, error_bind, settle_error]

@[inherit_doc exec_hupd_of_unkeyed]
theorem exec_hfin_of_unkeyed (hk : ch.keyed = false) : exec (.hfin h) s = .next (raise .nokey s) := by
  simp only [exec, execHfin, getChan, hc, hk, ok_bind, require_false, error_bind, settle_error]

@[inherit_doc exec_hupd_of_unkeyed]
theorem exec_hrst_of_unkeyed (hk : ch.keyed = false) : exec (.hrst h) s = .next (raise .nokey s) := by
  simp only [exec, execHrst, getChan, hc, hk, ok_bind, require_false, error_bind, settle_error]

/-- HUPD of a channel whose inner context is finished raises `MISUSE` (R174). -/
theorem exec_hupd_of_fin (hk : ch.keyed = true) (hf : ch.inn.fin = true) :
    exec (.hupd h) s = .next (raise .misuse s) := by
  simp only [exec, execHupd, getChan, hc, hk, hf, ok_bind, require_true, Bool.not_true, require_false, error_bind,
    settle_error]

end

/-- A command that did not end `OK` raised, and a raise leaves the channels alone (R210, R214). -/
theorem exec_hm_of_not_ok {s t : State} {i : Instr} (hx : exec i s = .next t) (hne : t.code ≠ .ok) : t.hm = s.hm := by
  rcases exec_cases i s with ⟨e, -, hr⟩ | ⟨u, hr, -⟩ <;> cases hr.symm.trans hx
  · exact raise_hm e s
  · exact absurd rfl hne

/-- Settles O47: each command in turn, by what it raises or the channel it writes. -/
theorem channelStateMachine : Obligations.ChannelStateMachine := by
  intro s t h ch hinv hc before after
  obtain ⟨-, -, -, -, hmem, -⟩ := (inv_iff s).mp hinv
  have hwf := chanWf_of_inv hinv hc
  have unkeyed : before = .unkeyed → ch.keyed = false := (chanState_eq_unkeyed_iff ch).mp
  have finished : before = .finished → ch.keyed = true ∧ ch.done = true := (chanState_eq_finished_iff ch).mp
  obtain ⟨-, -, -, -, hfin, -⟩ := (chanWf_iff ch).mp hwf
  refine ⟨fun hb => ?initial, fun hx hok => ?hkey, fun hx => ⟨fun hb => ?hupdUnkeyed, fun hb => ?hupdFinished,
    fun hok => ?hupd⟩, fun hx => ⟨fun hb => ?hfinUnkeyed, fun hok => ?hfin, fun hok hb => ?hfinAgain⟩,
    fun hx => ⟨fun hb => ?hrstUnkeyed, fun hb => ?hrst⟩, fun hx => ?hcln, fun i _ hx => exec_hm_of_not_ok hx⟩
  case initial => exact ⟨unkeyed hb, congrArg Channel.done (eq_initial_of_unkeyed hwf (unkeyed hb))⟩
  case hkey =>
    obtain ⟨u, rfl, he⟩ := effect_of_exec_ok hx hok
    cases he with
    | hkey _ _ => exact chanState_of_set hc ((chanState_eq_opened_iff _).mpr ⟨rfl, rfl⟩)
  case hupdUnkeyed =>
    cases (exec_hupd_of_unkeyed hc (unkeyed hb)).symm.trans hx
    rfl
  case hupdFinished =>
    obtain ⟨hk, hd⟩ := finished hb
    cases (exec_hupd_of_fin hc hk (hfin.trans hd)).symm.trans hx
    rfl
  case hupd =>
    obtain ⟨u, rfl, he⟩ := effect_of_exec_ok hx hok
    cases he with
    | hupd hc' hk hf _ =>
      cases hc.symm.trans hc'
      have hd := hfin.symm.trans hf
      exact ⟨(chanState_eq_opened_iff ch).mpr ⟨hk, hd⟩, chanState_of_set hc ((chanState_eq_opened_iff _).mpr ⟨hk, hd⟩)⟩
  case hfinUnkeyed =>
    cases (exec_hfin_of_unkeyed hc (unkeyed hb)).symm.trans hx
    rfl
  case hfin =>
    obtain ⟨ch', hc', hk, hhm, -⟩ := exec_hfin_ok hx hok
    cases hc.symm.trans hc'
    have hafter := (chanState_eq_finished_iff _).mpr ⟨(finishChannel_keyed ch).trans hk, finishChannel_done ch⟩
    refine ⟨(chanState_ne_unkeyed_iff ch).mpr hk, ?_⟩
    dsimp only [after]
    rw [hhm, chanState_of_set hc hafter]
  case hfinAgain =>
    obtain ⟨ch', hc', -, hhm, hdmem⟩ := exec_hfin_ok hx hok
    cases hc.symm.trans hc'
    obtain ⟨-, hd⟩ := finished hb
    rw [hhm, hdmem, finishChannel_of_done hd, set_of_getElem? hc, memRead_digest hmem, ctxDigest]
    exact ⟨rfl, rfl⟩
  case hrstUnkeyed =>
    cases (exec_hrst_of_unkeyed hc (unkeyed hb)).symm.trans hx
    rfl
  case hrst =>
    have hk := (chanState_ne_unkeyed_iff ch).mp hb
    have he := Effect.hrst hc hk
    rw [restoreChannel_eq hwf hk] at he
    cases exec_eq_of_effect he hx
    refine ⟨rfl, chanState_of_set hc ((chanState_eq_opened_iff _).mpr ⟨hk, rfl⟩), ?_, ?_⟩ <;>
      rw [complete_hm, setChan_hm, getElem?_set_of_some hc] <;> rfl
  case hcln =>
    cases exec_eq_of_effect (.hcln hc) hx
    exact chanState_of_set hc ((chanState_eq_unkeyed_iff _).mpr rfl)

end Sys2Proof.Machine
end

section
/-! SUPPORT. HMAC sessions: what the channel holds after any sequence of HKEY, HUPD, HFIN and HRST (spec/42_hmac.md R178). -/

namespace Sys2Proof.Machine

/-- What RESTORE loads from a saved context that absorbed `m` has absorbed `m`, whatever the context held (R135, R136). -/
theorem Absorbed.restore {x y : Context} {m : List Byte} (h : Absorbed x m) (hy : ctxWf y = true) :
    Absorbed (ctxRestore y (ctxSave x)) m where
  buf_length := by
    obtain ⟨hbuf, -⟩ := (ctxWf_iff y).mp hy
    rw [ctxRestore_buf]
    split
    · next hv =>
      obtain ⟨-, hsaved⟩ := ctxSave_buf_of_buffered (of_decide_eq_true hv)
      rw [hsaved, h.buf_length]
    · exact hbuf
  w_length := by
    obtain ⟨-, hw, -⟩ := (ctxWf_iff y).mp hy
    exact hw
  h := h.h
  buffered := (buffered_ctxRestore_ctxSave x y).trans h.buffered
  bufLen := h.bufLen
  count := h.count
  fin := rfl

/-- The channel is keyed with `key`: it is well formed and holds the two keyed states of that key (R173). -/
structure KeyedWith (ch : Channel) (key : List Byte) : Prop where
  wf : chanWf ch = true
  keyed : ch.keyed = true
  ikey : ch.ikey = ctxSave (ctxUpdate Context.initial (keyBlock key innerPad))
  okey : ch.okey = ctxSave (ctxUpdate Context.initial (keyBlock key outerPad))

/-- The channel is open, its inner context has absorbed the inner pad and `m`, its outer context the outer pad (R174). -/
structure OpenOn (ch : Channel) (key m : List Byte) : Prop where
  done : ch.done = false
  inn : Absorbed ch.inn (keyBlock key innerPad ++ m)
  out : Absorbed ch.out (keyBlock key outerPad)

section
variable {ch : Channel} {key m : List Byte}

theorem keyedWith_keyChannel (ch : Channel) (key : List Byte) : KeyedWith (keyChannel ch key) key := by
  have hwf := chanWf_keyChannel ch key
  rw [keyChannel_eq] at hwf ⊢
  exact ⟨hwf, rfl, rfl, rfl⟩

theorem openOn_keyChannel (ch : Channel) (key : List Byte) : OpenOn (keyChannel ch key) key [] := by
  rw [keyChannel_eq]
  exact ⟨rfl, (List.append_nil _).symm ▸ absorbed_keyed key innerPad, absorbed_keyed key outerPad⟩

theorem KeyedWith.update (hk : KeyedWith ch key) (bs : List Byte) : KeyedWith (updateChannel ch bs) key :=
  ⟨chanWf_updateChannel hk.wf hk.keyed bs, hk.keyed, hk.ikey, hk.okey⟩

theorem OpenOn.update (ho : OpenOn ch key m) (bs : List Byte) : OpenOn (updateChannel ch bs) key (m ++ bs) :=
  ⟨ho.done, List.append_assoc .. ▸ ho.inn.update bs, ho.out⟩

@[simp] theorem finishChannel_ikey (ch : Channel) : (finishChannel ch).ikey = ch.ikey := by
  unfold finishChannel
  split <;> rfl

@[simp] theorem finishChannel_okey (ch : Channel) : (finishChannel ch).okey = ch.okey := by
  unfold finishChannel
  split <;> rfl

theorem KeyedWith.finish (hk : KeyedWith ch key) : KeyedWith (finishChannel ch) key :=
  ⟨chanWf_finishChannel hk.wf hk.keyed, (finishChannel_keyed ch).trans hk.keyed, (finishChannel_ikey ch).trans hk.ikey,
    (finishChannel_okey ch).trans hk.okey⟩

theorem KeyedWith.restore (hk : KeyedWith ch key) : KeyedWith (restoreChannel ch) key :=
  ⟨chanWf_restoreChannel hk.wf hk.keyed, hk.keyed, hk.ikey, hk.okey⟩

/-- HRST opens a channel again on the empty message, with the key it has (R176). -/
theorem KeyedWith.openOn_restore (hk : KeyedWith ch key) : OpenOn (restoreChannel ch) key [] := by
  obtain ⟨hin, hout, -⟩ := (chanWf_iff ch).mp hk.wf
  rw [restoreChannel, hk.ikey, hk.okey]
  exact ⟨rfl, (List.append_nil _).symm ▸ (absorbed_keyed key innerPad).restore hin,
    (absorbed_keyed key outerPad).restore hout⟩

/-- An open channel finishes with the HMAC of the message it has absorbed (R171, R175). -/
theorem OpenOn.digest (ho : OpenOn ch key m) : ctxDigest (finishChannel ch).out = hmacOf key m := by
  rw [finishChannel_of_not_done ho.done]
  dsimp only
  rw [(ho.out.update _).digest, ho.inn.digest, keyBlock_eq, keyBlock_eq]
  rfl

end

/-- The channel of a session is keyed with the session's key, and open on the session's message if it has one. -/
theorem HmacSession.channel {h : Idx} {key : List Byte} {o : Option (List Byte)} {s : State} (hs : HmacSession h key o s) :
    ∃ ch, s.hm[h.toNat]? = some ch ∧ KeyedWith ch key ∧ ∀ m, o = some m → OpenOn ch key m := by
  induction hs with
  | key hx hok =>
    obtain ⟨u, rfl, he⟩ := effect_of_exec_ok hx hok
    cases he with
    | hkey hc _ =>
      refine ⟨_, getElem?_set_of_some hc, keyedWith_keyChannel .., ?_⟩
      rintro m ⟨⟩
      exact openOn_keyChannel ..
  | update _ hx hok ih =>
    obtain ⟨ch, hc, hk, ho⟩ := ih
    obtain ⟨u, rfl, he⟩ := effect_of_exec_ok hx hok
    cases he with
    | hupd hc' _ _ _ =>
      cases hc.symm.trans hc'
      refine ⟨_, getElem?_set_of_some hc, hk.update _, ?_⟩
      rintro m ⟨⟩
      exact (ho _ rfl).update _
  | finish _ hx hok ih =>
    obtain ⟨ch, hc, hk, -⟩ := ih
    obtain ⟨ch', hc', -, hhm, -⟩ := exec_hfin_ok hx hok
    cases hc.symm.trans hc'
    exact ⟨_, by rw [hhm, getElem?_set_of_some hc], hk.finish, nofun⟩
  | reset _ hx hok ih =>
    obtain ⟨ch, hc, hk, -⟩ := ih
    obtain ⟨u, rfl, he⟩ := effect_of_exec_ok hx hok
    cases he with
    | hrst hc' _ =>
      cases hc.symm.trans hc'
      refine ⟨_, getElem?_set_of_some hc, hk.restore, ?_⟩
      rintro m ⟨⟩
      exact hk.openOn_restore
  | other _ hx ih => rwa [hx]

/-- Settles O50: the session's channel is open on the message, and HFIN writes its MAC. -/
theorem hfinWritesHmacOfTheMessage : Obligations.HfinWritesHmacOfTheMessage := by
  intro h key m s t hs hm hx hok
  obtain ⟨ch, hc, -, ho⟩ := hs.channel
  obtain ⟨ch', hc', -, -, hdmem⟩ := exec_hfin_ok hx hok
  cases hc.symm.trans hc'
  rw [hdmem, memRead_digest hm, (ho m rfl).digest]

end Sys2Proof.Machine
end

section
/-! SUPPORT. The host's accesses of the register block, offset by offset, and the two commands that control the engine
(spec/43_control.md R200 to R204). -/

namespace Sys2Proof.Machine

/-! ## Register accesses -/

section
variable {s : State} {off : BitVec 8} {rest : List Input}

/-- A step with an aligned register write pending. -/
theorem step_of_regWrite {v : Word} (hin : s.inputs = .regWrite .word off v :: rest) (ha : off.toNat % 4 = 0) :
    step s = writeOffset off v { s with inputs := rest } :=
  (step_of_inputs hin).trans (if_pos ((regAccessOk_iff _ _).mpr ⟨rfl, ha⟩))

/-- No register shows the pending inputs (R21, log 3). -/
theorem readOffset_inputs (s : State) (off : BitVec 8) (inputs : List Input) :
    readOffset { s with inputs := inputs } off = readOffset s off := rfl

/-- A step with an aligned register read pending records the value and does nothing else (R203, log 4). -/
theorem step_of_regRead (hin : s.inputs = .regRead .word off :: rest) (ha : off.toNat % 4 = 0) :
    step s = .next { s with inputs := rest, seen := .reg off (readOffset s off) :: s.seen } := by
  rw [← readOffset_inputs s off rest]
  exact (step_of_inputs hin).trans (if_pos ((regAccessOk_iff _ _).mpr ⟨rfl, ha⟩))

end

/-! ## Reserved offsets -/

/-- The registers end below offset `0x20` (R21). -/
theorem regAt_of_reserved {off : BitVec 8} (h : 0x20 ≤ off.toNat) : regAt off = none := by
  have hlow : ∀ r : Reg, r.offset.toNat < 0x20 := fun r => by cases r <;> decide
  refine List.find?_eq_none.mpr fun r _ heq => ?_
  have := hlow r
  rw [eq_of_beq heq] at this
  omega

theorem readOffset_of_reserved (s : State) {off : BitVec 8} (h : 0x20 ≤ off.toNat) : readOffset s off = 0 := by
  rw [readOffset, regAt_of_reserved h]

theorem writeOffset_of_reserved (s : State) {off : BitVec 8} (v : Word) (h : 0x20 ≤ off.toNat) :
    writeOffset off v s = .next s := by
  rw [writeOffset, regAt_of_reserved h]

/-! ## `STATUS` -/

/-- What a write of `STATUS` leaves, as one update (R202). -/
theorem writeStatus_eq (v : Word) (s : State) : writeStatus v s = { s with sticky := s.sticky && !v.getLsbD 8 } := by
  unfold writeStatus
  split
  next h => rw [h, Bool.not_true, Bool.and_false]
  next h => rw [Bool.eq_false_of_not_eq_true h, Bool.not_false, Bool.and_true]

/-- `STATUS` as a number: the code of R211 in the low bits, `STICKY` at bit 8 (R25). -/
theorem statusWord_eq (s : State) : statusWord s = BitVec.ofNat 32 (s.code.bits.toNat + if s.sticky then 256 else 0) := by
  rw [statusWord]
  generalize s.code.bits = code
  cases s.sticky <;> (revert code; decide)

/-! ## SRST -/

/-- Cleaning every context, slot and channel leaves files of power-on values (R43, R201). -/
theorem map_clean_eq_replicate (s : State) :
    s.ctx.map ctxClean = List.replicate s.ctx.length Context.initial ∧
    (s.snap.map fun _ => Snapshot.empty) = List.replicate s.snap.length Snapshot.empty ∧
    s.hm.map cleanChannel = List.replicate s.hm.length Channel.initial :=
  ⟨List.map_const (b := Context.initial), List.map_const, List.map_const (b := Channel.initial)⟩

/-! ## The obligations -/

/-- Settles O7: a write of `CMD` runs the word or raises, and at each other offset the register written is known. -/
theorem hostWritesEachRegister : Obligations.HostWritesEachRegister := by
  intro s off v rest hin
  refine ⟨?_, ?_, ?_, ?_, ?_⟩
  · rintro rfl
    cases hd : decode s.params v with
    | ok i => exact step_of_command hin hd
    | error e => exact step_of_illegal hin hd
  · rintro rfl
    exact step_of_regWrite hin rfl
  · rintro rfl
    exact step_of_regWrite hin rfl
  · rintro rfl
    exact (step_of_regWrite hin rfl).trans (congrArg _ (writeStatus_eq v _))
  · rintro (rfl | rfl | rfl | rfl) <;> exact step_of_regWrite hin rfl

/-- Settles O8: a read is recorded, a reserved offset names no register, and `STATUS` and `CFG` are the numbers their
fields pack. -/
theorem hostReadsEachRegister : Obligations.HostReadsEachRegister := by
  intro s hp
  refine ⟨fun off rest hin ha => step_of_regRead hin ha, fun off v rest hin ha hoff => ?_, rfl, rfl, rfl, ?_, rfl, rfl,
    cfgWord_eq hp, rfl, fun off _ hoff => readOffset_of_reserved s hoff⟩
  · rw [step_of_regWrite hin ha, writeOffset_of_reserved _ v hoff]
  · refine (statusWord_eq s).trans ?_
    cases s.code <;> rfl

/-- Settles O22: NOP's effect is the state it starts from, completed. -/
theorem nopOnlySetsCode : Obligations.NopOnlySetsCode := fun _ => exec_of_effect .nop

/-- Settles O23: a file of cleaned entries is a file of power-on values. -/
theorem srstIsPowerOnButForOperands : Obligations.SrstIsPowerOnButForOperands := by
  intro s
  obtain ⟨hctx, hsnap, hhm⟩ := map_clean_eq_replicate s
  rw [exec_of_effect .srst, hctx, hsnap, hhm]
  rfl

end Sys2Proof.Machine
end

section
/-! SUPPORT. The error table of R212, row by row in the order of R213, and what sets and clears `STICKY`
(spec/60_exceptions.md R212 to R215). -/

namespace Sys2Proof

/-! ## Indices -/

theorem idxBelow_eq_false_iff {n : Nat} {o : Option Idx} :
    idxBelow n o = false ↔ ∃ j, o = some j ∧ n ≤ j.toNat := by
  cases o <;> simp [idxBelow]

theorem idxBelow_eq_true_iff {n : Nat} {o : Option Idx} :
    idxBelow n o = true ↔ ∀ j, o = some j → j.toNat < n := by
  cases o <;> simp [idxBelow]

namespace Machine

/-! ## One step of a command's pseudocode -/

section
variable {α : Type} {s : State} {e : Code} {m : Except Code α} {f : α → Except Code State}

theorem settle_bind_ok {a : α} (h : m = .ok a) : settle s (m >>= f) = settle s (f a) := by rw [h, ok_bind]

theorem settle_bind_error (h : m = .error e) : settle s (m >>= f) = .next (raise e s) := by
  rw [h, error_bind, settle_error]

end

theorem require_of_true {b : Bool} {e : Code} (h : b = true) : require b e = .ok () := by rw [h, require_true]

theorem require_of_false {b : Bool} {e : Code} (h : b = false) : require b e = .error e := by rw [h, require_false]

/-- The test that a hasher is not finished. -/
theorem require_not_of_false {b : Bool} {e : Code} (h : b = false) : require (!b) e = .ok () := by
  rw [h, Bool.not_false, require_true]

section
variable {s : State}

theorem getCtx_of_some {c : Idx} {x : Context} (h : s.ctx[c.toNat]? = some x) : getCtx s c = .ok x := by
  rw [getCtx, h]

theorem getSnap_of_some {k : Idx} {p : Snapshot} (h : s.snap[k.toNat]? = some p) : getSnap s k = .ok p := by
  rw [getSnap, h]

theorem getChan_of_some {k : Idx} {ch : Channel} (h : s.hm[k.toNat]? = some ch) : getChan s k = .ok ch := by
  rw [getChan, h]

theorem getCtx_of_ge {c : Idx} (h : s.ctx.length ≤ c.toNat) : getCtx s c = .error .illegal := by
  rw [getCtx, List.getElem?_eq_none h]

theorem getSnap_of_ge {k : Idx} (h : s.snap.length ≤ k.toNat) : getSnap s k = .error .illegal := by
  rw [getSnap, List.getElem?_eq_none h]

theorem getChan_of_ge {k : Idx} (h : s.hm.length ≤ k.toNat) : getChan s k = .error .illegal := by
  rw [getChan, List.getElem?_eq_none h]

theorem inputBytes_of_bad (h : s.dmemSize < s.addr.toNat + s.len.toNat) : inputBytes s = .error .bounds :=
  if_neg (by simpa [inBounds] using h)

theorem checkOutput_of_short (h : s.len.toNat < 20) : checkOutput s = .error .outbuf := if_pos h

theorem checkOutput_of_bad (hl : ¬ s.len.toNat < 20) (h : s.dmemSize < s.addr.toNat + 20) :
    checkOutput s = .error .bounds := by
  rw [checkOutput, if_neg hl, if_neg (by simpa [inBounds] using h)]

/-! ## A well-formed command finds its entries -/

variable {i : Instr} (hwf : i.wf s.params = true)
include hwf

theorem ctx_of_wf {c : Idx} (hi : i.ctxIdx = some c) : ∃ x, s.ctx[c.toNat]? = some x := by
  obtain ⟨⟨hc, -⟩, -⟩ := by simpa only [Instr.wf, Bool.and_eq_true] using hwf
  exact ⟨_, List.getElem?_eq_getElem (idxBelow_eq_true_iff.mp hc c hi)⟩

theorem chan_of_wf {k : Idx} (hi : i.chanIdx = some k) : ∃ ch, s.hm[k.toNat]? = some ch := by
  obtain ⟨⟨-, hh⟩, -⟩ := by simpa only [Instr.wf, Bool.and_eq_true] using hwf
  exact ⟨_, List.getElem?_eq_getElem (idxBelow_eq_true_iff.mp hh k hi)⟩

theorem slot_of_wf {k : Idx} (hi : i.slotIdx = some k) : ∃ p, s.snap[k.toNat]? = some p := by
  obtain ⟨-, hk⟩ := by simpa only [Instr.wf, Bool.and_eq_true] using hwf
  exact ⟨_, List.getElem?_eq_getElem (idxBelow_eq_true_iff.mp hk k hi)⟩

end

/-! ## The conditions, on the entries a command finds -/

section
variable {s : State}

theorem exists_of_any_not {α : Type} {o : Option α} {p : α → Bool} (h : (o.any fun a => !p a) = true) :
    ∃ a, o = some a ∧ p a = false := by
  simpa [Option.any_eq_true] using h

theorem holds_of_any_not {α : Type} {o : Option α} {p : α → Bool} {a : α} (h : (o.any fun a => !p a) = false)
    (ha : o = some a) : p a = true := by
  simpa using (Option.any_eq_false ..).mp h a ha

theorem inBounds_of_not_bad {n : Nat} (h : decide (s.dmemSize < s.addr.toNat + n) = false) : inBounds s n = true := by
  simpa [inBounds] using h

end

/-! ## The rows of the table -/

section
variable {s : State} {i : Instr}

/-- Every command with a context reads it first (R82, R85). -/
theorem exec_of_ctx_out {c : Idx} (hi : i.ctxIdx = some c) (h : s.ctx.length ≤ c.toNat) :
    exec i s = .next (raise .illegal s) := by
  cases i <;> cases hi <;> exact settle_bind_error (getCtx_of_ge h)

/-- Every command with a channel reads it first. -/
theorem exec_of_chan_out {k : Idx} (hi : i.chanIdx = some k) (h : s.hm.length ≤ k.toNat) :
    exec i s = .next (raise .illegal s) := by
  cases i <;> cases hi <;> exact settle_bind_error (getChan_of_ge h)

/-- A slot is read first, or after a context. -/
theorem exec_of_slot_out {k : Idx} (hc : i.ctxOk s.params = true) (hi : i.slotIdx = some k)
    (h : s.snap.length ≤ k.toNat) : exec i s = .next (raise .illegal s) := by
  cases i with
  | save c _ | restore c _ =>
    cases hi
    have hx := List.getElem?_eq_getElem (idxBelow_eq_true_iff.mp hc c rfl)
    exact (settle_bind_ok (getCtx_of_some hx)).trans (settle_bind_error (getSnap_of_ge h))
  | sclr _ =>
    cases hi
    exact settle_bind_error (getSnap_of_ge h)
  | nop | reset | update | finish | clean | pblk | sread | hkey | hupd | hfin | hrst | hcln | srst => cases hi

/-- `ILLEGAL`: an index out of range. -/
theorem exec_of_not_wf (h : i.wf s.params = false) : exec i s = .next (raise .illegal s) := by
  cases hc : i.ctxOk s.params with
  | false =>
    obtain ⟨c, hi, hge⟩ := idxBelow_eq_false_iff.mp hc
    exact exec_of_ctx_out hi hge
  | true =>
    cases hh : i.chanOk s.params with
    | false =>
      obtain ⟨k, hi, hge⟩ := idxBelow_eq_false_iff.mp hh
      exact exec_of_chan_out hi hge
    | true =>
      rw [Instr.wf, hc, hh, Bool.and_self, Bool.true_and] at h
      obtain ⟨k, hi, hge⟩ := idxBelow_eq_false_iff.mp h
      exact exec_of_slot_out hc hi hge

/-- `NOKEY`: the channel is not keyed. -/
theorem exec_of_needsKey (h : needsKey s i = true) : exec i s = .next (raise .nokey s) := by
  cases i with
  | hupd k =>
    obtain ⟨ch, hc, hk⟩ := exists_of_any_not h
    exact exec_hupd_of_unkeyed hc hk
  | hfin k =>
    obtain ⟨ch, hc, hk⟩ := exists_of_any_not h
    exact exec_hfin_of_unkeyed hc hk
  | hrst k =>
    obtain ⟨ch, hc, hk⟩ := exists_of_any_not h
    exact exec_hrst_of_unkeyed hc hk
  | nop | reset | update | finish | save | restore | clean | sclr | pblk | sread | hkey | hcln | srst => cases h

variable (hwf : i.wf s.params = true)
include hwf

/-- `SNAPEMPTY`: the slot holds no saved state. -/
theorem exec_of_needsSaved (h : needsSaved s i = true) : exec i s = .next (raise .snapempty s) := by
  cases i with
  | restore c k =>
    obtain ⟨x, hx⟩ := ctx_of_wf hwf rfl
    obtain ⟨p, hp, hv⟩ := exists_of_any_not h
    refine (settle_bind_ok (getCtx_of_some hx)).trans ((settle_bind_ok (getSnap_of_some hp)).trans ?_)
    exact settle_bind_error (require_of_false hv)
  | nop | reset | update | finish | save | clean | sclr | pblk | sread | hkey | hupd | hfin | hrst | hcln | srst => cases h

variable (hkey : needsKey s i = false)
include hkey

/-- `MISUSE`: the hasher is finished. -/
theorem exec_of_needsActive (h : needsActive s i = true) : exec i s = .next (raise .misuse s) := by
  cases i with
  | update c =>
    obtain ⟨x, hx, hf⟩ := (Option.any_eq_true ..).mp h
    exact exec_update_of_fin hx hf
  | save c k =>
    obtain ⟨x, hx, hf⟩ := (Option.any_eq_true ..).mp h
    obtain ⟨p, hp⟩ := slot_of_wf hwf rfl
    exact exec_save_of_fin hx hp hf
  | pblk c =>
    obtain ⟨x, hx, hf⟩ := (Option.any_eq_true ..).mp h
    exact exec_pblk_of_fin hx hf
  | hupd k =>
    obtain ⟨ch, hc, hf⟩ := (Option.any_eq_true ..).mp h
    exact exec_hupd_of_fin hc (holds_of_any_not hkey hc) hf
  | nop | reset | finish | restore | clean | sclr | sread | hkey | hfin | hrst | hcln | srst => cases h

/-- A command that writes a digest comes to the test of its output buffer. -/
theorem exec_of_checkOutput {e : Code} (hi : (∃ c, i = .finish c ∨ i = .sread c) ∨ ∃ k, i = .hfin k)
    (h : checkOutput s = .error e) : exec i s = .next (raise e s) := by
  rcases hi with ⟨c, hi⟩ | ⟨k, rfl⟩
  · rcases hi with rfl | rfl <;> obtain ⟨x, hx⟩ := ctx_of_wf hwf rfl <;>
      exact (settle_bind_ok (getCtx_of_some hx)).trans (settle_bind_error h)
  · obtain ⟨ch, hc⟩ := chan_of_wf hwf rfl
    refine (settle_bind_ok (getChan_of_some hc)).trans ?_
    exact (settle_bind_ok (require_of_true (holds_of_any_not hkey hc))).trans (settle_bind_error h)

/-- `OUTBUF`: the output buffer is shorter than a digest. -/
theorem exec_of_needsRoom (h : needsRoom s i = true) : exec i s = .next (raise .outbuf s) := by
  cases i with
  | finish | sread | hfin =>
    exact exec_of_checkOutput hwf hkey (by simp) (checkOutput_of_short (of_decide_eq_true h))
  | nop | reset | update | save | restore | clean | sclr | pblk | hkey | hupd | hrst | hcln | srst => cases h

variable (hact : needsActive s i = false)
include hact

/-- `BOUNDS`: the bytes of the buffer do not all exist. -/
theorem exec_of_badBuffer (hroom : needsRoom s i = false) (h : badBuffer s i = true) :
    exec i s = .next (raise .bounds s) := by
  cases i with
  | update c | pblk c =>
    obtain ⟨x, hx⟩ := ctx_of_wf hwf rfl
    have hf : x.fin = false := (Option.any_eq_false ..).mp hact x hx
    refine (settle_bind_ok (getCtx_of_some hx)).trans ((settle_bind_ok (require_not_of_false hf)).trans ?_)
    exact settle_bind_error (inputBytes_of_bad (of_decide_eq_true h))
  | hkey k =>
    obtain ⟨ch, hc⟩ := chan_of_wf hwf rfl
    exact (settle_bind_ok (getChan_of_some hc)).trans (settle_bind_error (inputBytes_of_bad (of_decide_eq_true h)))
  | hupd k =>
    obtain ⟨ch, hc⟩ := chan_of_wf hwf rfl
    have hf : ch.inn.fin = false := (Option.any_eq_false ..).mp hact ch hc
    refine (settle_bind_ok (getChan_of_some hc)).trans ?_
    refine (settle_bind_ok (require_of_true (holds_of_any_not hkey hc))).trans ?_
    refine (settle_bind_ok (require_not_of_false hf)).trans ?_
    exact settle_bind_error (inputBytes_of_bad (of_decide_eq_true h))
  | finish | sread | hfin =>
    exact exec_of_checkOutput hwf hkey (by simp)
      (checkOutput_of_bad (of_decide_eq_false hroom) (of_decide_eq_true h))
  | nop | reset | save | restore | clean | sclr | hrst | hcln | srst => cases h

/-- With no condition of the table a command has its effect. -/
theorem exists_effect (hsaved : needsSaved s i = false) (hroom : needsRoom s i = false) (hbuf : badBuffer s i = false) :
    ∃ t, Effect s i t := by
  cases i with
  | nop => exact ⟨_, .nop⟩
  | srst => exact ⟨_, .srst⟩
  | reset c =>
    obtain ⟨x, hx⟩ := ctx_of_wf hwf rfl
    exact ⟨_, .reset hx⟩
  | update c =>
    obtain ⟨x, hx⟩ := ctx_of_wf hwf rfl
    exact ⟨_, .update hx ((Option.any_eq_false ..).mp hact x hx) (inBounds_of_not_bad hbuf)⟩
  | finish c =>
    obtain ⟨x, hx⟩ := ctx_of_wf hwf rfl
    exact ⟨_, .finish hx (Nat.not_lt.mp (of_decide_eq_false hroom)) (inBounds_of_not_bad hbuf)⟩
  | save c k =>
    obtain ⟨x, hx⟩ := ctx_of_wf hwf rfl
    obtain ⟨p, hp⟩ := slot_of_wf hwf rfl
    exact ⟨_, .save hx hp ((Option.any_eq_false ..).mp hact x hx)⟩
  | restore c k =>
    obtain ⟨x, hx⟩ := ctx_of_wf hwf rfl
    obtain ⟨p, hp⟩ := slot_of_wf hwf rfl
    exact ⟨_, .restore hx hp (holds_of_any_not hsaved hp)⟩
  | clean c =>
    obtain ⟨x, hx⟩ := ctx_of_wf hwf rfl
    exact ⟨_, .clean hx⟩
  | sclr k =>
    obtain ⟨p, hp⟩ := slot_of_wf hwf rfl
    exact ⟨_, .sclr hp⟩
  | pblk c =>
    obtain ⟨x, hx⟩ := ctx_of_wf hwf rfl
    exact ⟨_, .pblk hx ((Option.any_eq_false ..).mp hact x hx) (inBounds_of_not_bad hbuf)⟩
  | sread c =>
    obtain ⟨x, hx⟩ := ctx_of_wf hwf rfl
    exact ⟨_, .sread hx (Nat.not_lt.mp (of_decide_eq_false hroom)) (inBounds_of_not_bad hbuf)⟩
  | hkey k =>
    obtain ⟨ch, hc⟩ := chan_of_wf hwf rfl
    exact ⟨_, .hkey hc (inBounds_of_not_bad hbuf)⟩
  | hupd k =>
    obtain ⟨ch, hc⟩ := chan_of_wf hwf rfl
    exact ⟨_, .hupd hc (holds_of_any_not hkey hc) ((Option.any_eq_false ..).mp hact ch hc) (inBounds_of_not_bad hbuf)⟩
  | hfin k =>
    obtain ⟨ch, hc⟩ := chan_of_wf hwf rfl
    exact ⟨_, .hfin hc (holds_of_any_not hkey hc) (Nat.not_lt.mp (of_decide_eq_false hroom)) (inBounds_of_not_bad hbuf)⟩
  | hrst k =>
    obtain ⟨ch, hc⟩ := chan_of_wf hwf rfl
    exact ⟨_, .hrst hc (holds_of_any_not hkey hc)⟩
  | hcln k =>
    obtain ⟨ch, hc⟩ := chan_of_wf hwf rfl
    exact ⟨_, .hcln hc⟩

end

/-- Settles O15: each row of the table in turn, on a command that passed the rows before it. -/
theorem errorsFollowTheTable : Obligations.ErrorsFollowTheTable := by
  intro s i
  constructor
  · intro e h
    unfold firstError at h
    split_ifs at h with hwf hkey hsaved hact hroom hbuf <;> cases h <;>
      simp only [Bool.not_eq_true', Bool.not_eq_true, Bool.not_eq_false] at *
    · exact exec_of_not_wf hwf
    · exact exec_of_needsKey hkey
    · exact exec_of_needsSaved hwf hsaved
    · exact exec_of_needsActive hwf hkey hact
    · exact exec_of_needsRoom hwf hkey hroom
    · exact exec_of_badBuffer hwf hkey hact hroom hbuf
  · intro h
    unfold firstError at h
    split_ifs at h with hwf hkey hsaved hact hroom hbuf
    simp only [Bool.not_eq_true', Bool.not_eq_true, Bool.not_eq_false] at *
    obtain ⟨t, he⟩ := exists_effect hwf hkey hact hsaved hroom hbuf
    exact ⟨_, exec_of_effect he, rfl, fun hi => (he.completed hi).2⟩

end Machine

/-! ## The word of SRST -/

/-- The command a row makes of two fields is encoded with those it uses (R81, R83). -/
theorem encode_make (x y : Idx) : ∀ r ∈ opcodeMap,
    encode (r.make x y) = commandWord r.op (if r.usesX then x else 0) (if r.usesY then y else 0) := by
  simp [opcodeMap, encode]

theorem ite_unused {uses : Bool} {f : Idx} (h : uses = false → f = 0) : (if uses then f else 0) = f := by
  cases uses with
  | false => exact (h rfl).symm
  | true => rfl

/-- An accepted word is the encoding of the command it is read as (R85). -/
theorem encode_of_decode {p : Params} {v : Word} {i : Instr} (h : decode p v = .ok i) : encode i = v := by
  obtain ⟨r, hr, ⟨hop, hrsv, hx, hy⟩, rfl, -⟩ := decode_eq_ok_iff.mp h
  rw [encode_make _ _ r hr, ite_unused hx, ite_unused hy, ← hop, commandWord_fields hrsv]

/-- SRST has one word, legal for all parameters (R88, R94). -/
theorem decode_eq_srst_iff {p : Params} {v : Word} : decode p v = .ok .srst ↔ v = 0x30000000 :=
  ⟨fun h => (encode_of_decode h).symm, fun h => h ▸ decode_encode (i := .srst) rfl⟩

namespace Machine

/-! ## `STICKY` -/

/-- What a command leaves in `STICKY` (R215). -/
theorem exec_sticky {i : Instr} {s t : State} (h : exec i s = .next t) :
    (t.code ≠ .ok → t.sticky = true) ∧ (i = .srst → t.sticky = false) ∧
    (t.code = .ok → i ≠ .srst → t.sticky = s.sticky) := by
  refine ⟨fun hne => ?_, ?_, fun hok hi => ?_⟩
  · rcases exec_cases i s with ⟨e, -, hr⟩ | ⟨u, hr, -⟩ <;> cases hr.symm.trans h
    · rfl
    · exact absurd rfl hne
  · rintro rfl
    cases exec_eq_of_effect .srst h
    rfl
  · obtain ⟨u, rfl, he⟩ := effect_of_exec_ok h hok
    exact (he.completed hi).2

/-- The inputs that can raise. -/
def WritesCmd (i : Input) : Prop := ∃ v, i = .regWrite .word 0x00 v

/-- The events R215 names for clearing `STICKY`. -/
def ClearsSticky (i : Input) : Prop :=
  (∃ v, i = .regWrite .word 0x0C v ∧ v.getLsbD 8 = true) ∨ i = .regWrite .word 0x00 0x30000000 ∨ i = .powerOn

theorem clearsSticky_cmd_iff {v : Word} : ClearsSticky (.regWrite .word 0x00 v) ↔ v = 0x30000000 := by
  simp [ClearsSticky]

theorem clearsSticky_status_iff {v : Word} : ClearsSticky (.regWrite .word 0x0C v) ↔ v.getLsbD 8 = true := by
  simp [ClearsSticky]

/-- What an input leaves in `STICKY` (R215). -/
theorem InputEffect.sticky {s t : State} {i : Input} (he : InputEffect s i t) :
    (WritesCmd i ∧ t.code ≠ .ok → t.sticky = true) ∧ (ClearsSticky i → t.sticky = false) ∧
    (¬ (WritesCmd i ∧ t.code ≠ .ok) → ¬ ClearsSticky i → t.sticky = s.sticky) := by
  cases he with
  | @command v i _ hd hx =>
    obtain ⟨hraise, hsrst, hkeep⟩ := exec_sticky hx
    have hi : i = .srst ↔ v = 0x30000000 := by
      rw [← decode_eq_srst_iff, hd, Except.ok.injEq]
    rw [clearsSticky_cmd_iff, ← hi]
    refine ⟨fun hr => hraise hr.2, hsrst, fun hr => hkeep ?_⟩
    by_contra hne
    exact hr ⟨⟨v, rfl⟩, hne⟩
  | @illegal v e hd =>
    refine ⟨fun _ => rfl, fun h => ?_, fun hr => absurd ⟨⟨v, rfl⟩, nofun⟩ hr⟩
    rw [decode_eq_srst_iff.mpr (clearsSticky_cmd_iff.mp h)] at hd
    cases hd
  | @status v =>
    rw [writeStatus_eq, clearsSticky_status_iff]
    refine ⟨fun ⟨⟨_, h⟩, _⟩ => (nomatch h), fun h => ?_, fun _ h => ?_⟩
    · rw [h, Bool.not_true, Bool.and_false]
    · rw [Bool.eq_false_of_not_eq_true h, Bool.not_false, Bool.and_true]
  | powerOn =>
    exact ⟨fun ⟨⟨_, h⟩, _⟩ => (nomatch h), fun _ => rfl, fun _ h => absurd (Or.inr (Or.inr rfl)) h⟩
  | @ignored off v _ hoff =>
    have h0 : off ≠ 0x00 := by
      rintro rfl
      exact absurd hoff (by decide)
    have hc : off ≠ 0x0C := by
      rintro rfl
      exact absurd hoff (by decide)
    refine ⟨fun ⟨⟨_, h⟩, _⟩ => absurd (Input.regWrite.inj h).2.1 h0, ?_, fun _ _ => rfl⟩
    rintro (⟨_, h, -⟩ | h | h)
    · cases h
      exact absurd rfl hc
    · cases h
      exact absurd rfl h0
    · cases h
  | addr | len | read | memWrite | memRead => simp [WritesCmd, ClearsSticky]

/-- Settles O16: with no input nothing is raised or cleared, and otherwise the first input decides. -/
theorem stickyIsSetAndClearedAsSaid : Obligations.StickyIsSetAndClearedAsSaid := by
  intro s t h clears raises
  rcases step_cases h with ⟨hin, rfl⟩ | ⟨i, rest, hin, he⟩
  · simp [clears, raises, hin]
  · have hclears : clears ↔ ClearsSticky i := by simp [clears, hin, ClearsSticky]
    have hraises : raises ↔ WritesCmd i ∧ t.code ≠ .ok := by simp [raises, hin, WritesCmd]
    rw [hclears, hraises]
    exact he.sticky

end Machine

end Sys2Proof
end

section
/-! SUPPORT. Power-on reset as an event (spec/70_reset_and_hazards.md R240, log 7). -/

namespace Sys2Proof.Machine

/-- Taking the event off the list does not change what the reset leaves elsewhere: it reads the parameters, `DMEM` and what
the host has read (log 3, log 4). -/
theorem powerOn_withInputs (s : State) (rest : List Input) :
    powerOn { s with inputs := rest } = { State.resetWith s.params s.dmem with inputs := rest, seen := s.seen } := rfl

/-- Settles O14: the step carries out the event, on the state with the event taken off the list. -/
theorem powerOnIsResetButForMemory : Obligations.PowerOnIsResetButForMemory := by
  intro s rest hin
  calc step s
    _ = perform .powerOn { s with inputs := rest } := step_of_inputs hin
    _ = .next (powerOn { s with inputs := rest }) := rfl
    _ = .next { State.resetWith s.params s.dmem with inputs := rest, seen := s.seen } := by rw [powerOn_withInputs]

end Sys2Proof.Machine
end

section
/-! SUPPORT. The decoder and the encoder undo each other (spec/30_encoding.md R81 to R85). -/

namespace Sys2Proof

/-- The decoder accepts legal commands only: its last test is the indices' (R85). -/
theorem wf_of_decode {p : Params} {v : Word} {i : Instr} (h : decode p v = .ok i) : i.wf p = true := by
  obtain ⟨-, -, -, -, hwf⟩ := decode_eq_ok_iff.mp h
  exact hwf

/-- Settles O1: the word's fields select the command's row and give back its indices. -/
theorem decodeReadsEncodedCommand : Obligations.DecodeReadsEncodedCommand := fun _ _ hwf => decode_encode hwf

/-- Settles O2: an accepted word has zeros wherever its row has no field, so the command's word has the same fields. -/
theorem decodedWordIsTheEncoding : Obligations.DecodedWordIsTheEncoding := fun _ _ _ h =>
  ⟨encode_of_decode h, wf_of_decode h⟩

end Sys2Proof
end

section
/-! SUPPORT. When a step waits and when it stops (spec/20_memory.md R60, R69; spec/70_reset_and_hazards.md R241;
log 3, log 6). -/

namespace Sys2Proof.Machine

/-- With no input the state stays as it is (R241, log 3). -/
theorem step_of_no_inputs {s : State} (h : s.inputs = []) : step s = .next s := by
  rw [step, takeInput, h]

/-- Settles O12: a step that finds no input ends where it began. -/
theorem engineWaitsForTheHost : Obligations.EngineWaitsForTheHost := fun _ => step_of_no_inputs

/-- A write at an aligned offset always goes on, also when it runs a command (R202, R204). -/
theorem exists_writeOffset_eq_next (off : BitVec 8) (v : Word) (s : State) : ∃ t, writeOffset off v s = .next t := by
  unfold writeOffset
  cases regAt off with
  | none => exact ⟨_, rfl⟩
  | some r =>
    cases r with
    | cmd =>
      dsimp only [runCommand]
      cases decode s.params v with
      | ok i =>
        obtain ⟨t, ht, -⟩ := exec_keepsHostSide i { s with cmd := v }
        exact ⟨t, ht⟩
      | error e => exact ⟨_, settle_error ..⟩
    | addr | len | status | result | id | cfg | dmsz => exact ⟨_, rfl⟩

/-- An access of the register block that is not an aligned 32-bit access (R69). -/
def UndefinedRegAccess (i : Input) : Prop := ∃ width off, ¬ (width = .word ∧ off.toNat % 4 = 0) ∧
  (i = .regRead width off ∨ ∃ v, i = .regWrite width off v)

/-- An access of a byte at or above `DMEM_SIZE` (R60, log 6). -/
def AbsentAddress (s : State) (i : Input) : Prop := ∃ a, s.dmemSize ≤ a ∧ (i = .memRead a ∨ ∃ b, i = .memWrite a b)

/-- The register block refuses an access by its width and offset alone (R69). -/
theorem perform_refused_iff (i : Input) (s : State) : (∃ r, perform i s = .refused r) ↔ UndefinedRegAccess i := by
  cases i with
  | regWrite width off v =>
    obtain ⟨t, ht⟩ := exists_writeOffset_eq_next off v s
    by_cases hok : regAccessOk width off <;> simp [perform, hok, ht, UndefinedRegAccess, ← regAccessOk_iff]
  | regRead width off => by_cases hok : regAccessOk width off <;> simp [perform, hok, UndefinedRegAccess, ← regAccessOk_iff]
  | memWrite a b => by_cases ha : a < s.dmemSize <;> simp [perform, ha, UndefinedRegAccess]
  | memRead a => by_cases ha : a < s.dmemSize <;> simp [perform, ha, UndefinedRegAccess]
  | powerOn => simp [perform, UndefinedRegAccess]

/-- A memory access faults by its address alone, and nothing else faults (log 6). -/
theorem perform_fault_iff (i : Input) (s : State) : (∃ f, perform i s = .fault f) ↔ AbsentAddress s i := by
  cases i with
  | regWrite width off v =>
    obtain ⟨t, ht⟩ := exists_writeOffset_eq_next off v s
    by_cases hok : regAccessOk width off <;> simp [perform, hok, ht, AbsentAddress]
  | regRead width off => by_cases hok : regAccessOk width off <;> simp [perform, hok, AbsentAddress]
  | memWrite a b =>
    by_cases ha : a < s.dmemSize
    · simp [perform, ha, AbsentAddress]
    · exact iff_of_true ⟨_, if_neg ha⟩ ⟨a, Nat.not_lt.mp ha, .inr ⟨b, rfl⟩⟩
  | memRead a =>
    by_cases ha : a < s.dmemSize
    · simp [perform, ha, AbsentAddress]
    · exact iff_of_true ⟨_, if_neg ha⟩ ⟨a, Nat.not_lt.mp ha, .inl rfl⟩
  | powerOn => simp [perform, AbsentAddress]

/-- Settles O10: with no input the step waits, and otherwise the first input decides. -/
theorem onlyBadHostAccessesStop : Obligations.OnlyBadHostAccessesStop := by
  intro s
  cases hin : s.inputs with
  | nil => simp [step_of_no_inputs hin]
  | cons i rest =>
    rw [step_of_inputs hin, perform_refused_iff, perform_fault_iff]
    simp [UndefinedRegAccess, AbsentAddress, exists_or]

end Sys2Proof.Machine
end
